-- ==== Sys2Proof/Word.lean ====
section
/-! DEFINITION. The word types of the block (spec/00_scope.md R7: every value is unsigned, bit 0 is the least
significant bit). -/

namespace Sys2Proof

/-- `u8`: a byte on the wire, an address field, a checksum accumulator. -/
abbrev Byte := BitVec 8

/-- `u16`: a message id or a declared length. -/
abbrev Half := BitVec 16

/-- A statistics counter, `CNT_W` = 32 bits wide (R6, R31). -/
abbrev Count := BitVec 32

/-- An index into the payload buffer, 10 bits wide (R26, R50). -/
abbrev BufIndex := BitVec 10

end Sys2Proof
end

