-- ==== Sys2Proof/Config.lean ====
section
/-! DEFINITION. Constants and parameters of the block (spec/00_scope.md R6) and its one free value. -/

namespace Sys2Proof

/-- First sync byte (R6). -/
def Config.sync0 : Byte := 0x76#8

/-- Second sync byte (R6). -/
def Config.sync1 : Byte := 0x63#8

/-- `MAX_LEN`: a declared length is accepted only if it is below this (R6, exclusive). -/
def Config.maxLen : Nat := 1024

/-- `BUF_SIZE`: bytes of payload buffer (R6, R50). -/
def Config.bufSize : Nat := 1024

/-- `OVERHEAD`: two sync bytes, six header bytes, two checksum bytes (R6). -/
def Config.overhead : Nat := 10

/-- The largest payload the 16-bit length field can carry (R170). -/
def Config.maxPayload : Nat := 65535

/-- The parameters "a model argument" of R6. "They are not registers and cannot change while the block runs"
(spec/70_reset_and_hazards.md R232). They stand in State, so that a claim over every state is a claim for every
value of them (D7: "Claims must hold for every `MSG_CAP` or name one"). Log 1. -/
structure Config.Params where
  /-- `MSG_CAP`, an integer with 0 <= MSG_CAP <= 1023 (OPEN). -/
  msgCap : Fin 1024
  /-- `SURFACE_CEILING_ERR` (D9). -/
  surfaceCeilingErr : Bool
  deriving DecidableEq, Repr

/-- The parameters of "Start" in spec/95_test_vectors.md: MSG_CAP = 255, SURFACE_CEILING_ERR = false.
DESIGN CHOICE for MSG_CAP (log 1); the default of SURFACE_CEILING_ERR is the spec's. -/
def Config.startParams : Config.Params := { msgCap := 255, surfaceCeilingErr := false }

/-- FREE VALUE (R37: "unspecified: any value, a free draw per byte"): what byte `index` of the payload buffer holds
after reset number `epoch` while no payload beat has written it. No body: nothing can be proved of its value. Log 2. -/
opaque Config.bufferDraw (epoch index : Nat) : Byte

end Sys2Proof
end

