-- ==== Sys2Proof/Syntax.lean ====
section
/-! DEFINITION. The operations of the block as syntax: the FSM's states, one constructor of `Instr` per row of
spec/opcode_table.json (R80), and the encodings of the operations by format. -/

namespace Sys2Proof

/-- `ParserState` (spec/10_state.md R21): each name says which field was last consumed. -/
inductive ParserState where
  | idle | sawSync0 | sawSync1 | sawDestAddr | sawSrcAddr | sawMsgIdLo | sawMsgIdHi | sawLenLo
  | sawLenHi        -- the payload-copy state
  | awaitChecksumA | awaitChecksumB
  deriving DecidableEq, Repr

/-- The operations (R80). A byte step carries the input byte `b` wherever its row leaves `b` open. -/
inductive Instr where
  -- byte steps, format B (R76)
  | idleSync0
  | idleSkip (b : Byte)
  | s0Sync1
  | s0Mismatch (b : Byte)
  | hdrDest (b : Byte)
  | hdrSrc (b : Byte)
  | hdrIdLo (b : Byte)
  | hdrIdHi (b : Byte)
  | hdrLenLo (b : Byte)
  | lenOver (b : Byte)
  | lenZero
  | lenStart (b : Byte)
  | payByte (b : Byte)
  | payLast (b : Byte)
  | chkaOk (b : Byte)
  | chkaBad (b : Byte)
  | chkbOk (b : Byte)
  | chkbBad (b : Byte)
  -- host commands, format H (R77)
  | nop
  | resume
  | extract
  | unhandledInc
  -- port reads, format R
  | readReg (addr : BitVec 4)
  | readBuf (index : BufIndex)
  -- format P
  | reset
  -- format E
  | encodeMsg (dest src : Byte) (msgId : Half) (payload : List Byte)
  -- checksum unit, format C (R84)
  | chkHold
  | chkClear
  | chkAcc (b : Byte)
  deriving DecidableEq, Repr

/-- An operation's encoding: the bits of the port it is given on, one constructor per format (R76, R77, R81, R85,
R84). -/
inductive OpWord where
  /-- Format B: the 12-bit key `{state[3:0], b[7:0]}`. -/
  | key (k : BitVec 12)
  /-- Format H: `cmd[2:0]`. -/
  | cmd (c : BitVec 3)
  /-- Format R: `reg_addr[3:0]`. -/
  | regAddr (a : BitVec 4)
  /-- Format R: `buf_addr[9:0]`. -/
  | bufAddr (a : BufIndex)
  /-- Format P: the `rst` pin. -/
  | rst (r : BitVec 1)
  /-- Format E: `enc_start`, the operands, and the payload stream. -/
  | enc (start : BitVec 1) (dest src : Byte) (msgId : Half) (payload : List Byte)
  /-- Format C: `chk_op[1:0]` and `chk_in[7:0]`. -/
  | chk (op : BitVec 2) (b : Byte)
  deriving DecidableEq, Repr

/-- The registers that the conditions of R76 read ("A condition reads only `b` and the current state registers"). -/
structure RowRegs where
  pendLen : Half
  pendIndex : BufIndex
  chkA : Byte
  chkB : Byte
  deriving DecidableEq, Repr

end Sys2Proof
end

