-- ==== Sys2Proof/WellFormed.lean ====
section
/-! DEFINITION. Which terms of `Instr` are operations of the block: the checks that depend on the operands alone. -/

namespace Sys2Proof

/-- The operand conditions of R76 that read only the byte, and the domain of ENCODE (R170: `0 <= n <= 65535`).
For LEN_OVER the table gives the equivalent `b >= 0x04`; LEN_START then has `b <= 0x03`. -/
def Instr.wf : Instr → Bool
  | .idleSkip b => b != Config.sync0
  | .s0Mismatch b => b != Config.sync1
  | .lenOver b => 4 ≤ b.toNat
  | .lenStart b => b.toNat ≤ 3
  | .encodeMsg _ _ _ payload => payload.length ≤ Config.maxPayload
  | .idleSync0 | .s0Sync1 | .hdrDest _ | .hdrSrc _ | .hdrIdLo _ | .hdrIdHi _ | .hdrLenLo _ | .lenZero
  | .payByte _ | .payLast _ | .chkaOk _ | .chkaBad _ | .chkbOk _ | .chkbBad _
  | .nop | .resume | .extract | .unhandledInc | .readReg _ | .readBuf _ | .reset
  | .chkHold | .chkClear | .chkAcc _ => true

end Sys2Proof
end

