-- ==== Sys2Proof/Decode.lean ====
section
/-! DEFINITION. Decoding and encoding of the block's operations (spec/30_encoding.md), with the bit-field helpers they
and the machine use. Decoding is total and rejects by name. -/

namespace Sys2Proof

/-! ### Bit fields (R7, R72) -/

/-- `v[7:0]`. -/
def lowByte (v : Half) : Byte := v.extractLsb' 0 8

/-- `v[15:8]`. -/
def highByte (v : Half) : Byte := v.extractLsb' 8 8

/-- `{hi, lo}`: the value of a little-endian field (R52, R72). -/
def joinBytes (hi lo : Byte) : Half := hi ++ lo

/-- Write `v[7:0]`, leaving `v[15:8]` (R24, R25: "Each beat writes only its own half"). -/
def setLowByte (v : Half) (b : Byte) : Half := joinBytes (highByte v) b

/-- Write `v[15:8]`, leaving `v[7:0]`. -/
def setHighByte (v : Half) (b : Byte) : Half := joinBytes b (lowByte v)

/-- The declared length `L = {b, pend_len[7:0]}` of the lenHi beat (spec/41_parser.md section 4). -/
def declaredLen (b : Byte) (pendLen : Half) : Nat := (setHighByte pendLen b).toNat

/-! ### State codes (R74) -/

/-- The 4-bit code of an FSM state (R74, D14). -/
def stateCode : ParserState → BitVec 4
  | .idle => 0 | .sawSync0 => 1 | .sawSync1 => 2 | .sawDestAddr => 3 | .sawSrcAddr => 4 | .sawMsgIdLo => 5
  | .sawMsgIdHi => 6 | .sawLenLo => 7 | .sawLenHi => 8 | .awaitChecksumA => 9 | .awaitChecksumB => 10

/-- The state of a code; 11 to 15 are no state (R82(a)). -/
def stateOfCode (c : BitVec 4) : Option ParserState :=
  match c.toNat with
  | 0 => some .idle | 1 => some .sawSync0 | 2 => some .sawSync1 | 3 => some .sawDestAddr | 4 => some .sawSrcAddr
  | 5 => some .sawMsgIdLo | 6 => some .sawMsgIdHi | 7 => some .sawLenLo | 8 => some .sawLenHi
  | 9 => some .awaitChecksumA | 10 => some .awaitChecksumB | _ => none

/-- The decode key `K = {state[3:0], b[7:0]}` of a byte step (R76). -/
def decodeKey (st : ParserState) (b : Byte) : BitVec 12 := stateCode st ++ b

/-- `K[7:0]`. -/
def keyByte (k : BitVec 12) : Byte := k.extractLsb' 0 8

/-- `K[11:8]`. -/
def keyState (k : BitVec 12) : BitVec 4 := k.extractLsb' 8 4

/-! ### The conditions of R76 -/

/-- The condition of an operation's row of R76, on the byte and the current registers. Rows of the other formats
have none. -/
def condition (i : Instr) (r : RowRegs) : Bool :=
  match i with
  | .idleSkip b => b != Config.sync0
  | .s0Mismatch b => b != Config.sync1
  | .lenOver b => Config.maxLen ≤ declaredLen b r.pendLen
  | .lenZero => lowByte r.pendLen == 0x00#8
  | .lenStart b => 1 ≤ declaredLen b r.pendLen && declaredLen b r.pendLen < Config.maxLen
  | .payByte _ => r.pendIndex.toNat + 1 < r.pendLen.toNat
  | .payLast _ => r.pendIndex.toNat + 1 == r.pendLen.toNat
  | .chkaOk b => b == r.chkA
  | .chkaBad b => b != r.chkA
  | .chkbOk b => b == r.chkB
  | .chkbBad b => b != r.chkB
  | .idleSync0 | .s0Sync1 | .hdrDest _ | .hdrSrc _ | .hdrIdLo _ | .hdrIdHi _ | .hdrLenLo _
  | .nop | .resume | .extract | .unhandledInc | .readReg _ | .readBuf _ | .reset | .encodeMsg ..
  | .chkHold | .chkClear | .chkAcc _ => true

/-! ### Format B: the rows, tried in order (R76) -/

/-- One row of R76: `K AND mask = pattern` selects it, if the condition of `op b` holds too. `byte` is the part of the
condition that fixes the whole byte (LEN_ZERO: `b = 0x00`). -/
structure KeyRow where
  pattern : BitVec 12
  mask : BitVec 12
  byte : Option Byte
  op : Byte → Instr

/-- The eighteen rows of R76 in table order. -/
def keyRows : List KeyRow :=
  [ ⟨0x076#12, 0xFFF#12, none, fun _ => .idleSync0⟩,
    ⟨0x000#12, 0xF00#12, none, .idleSkip⟩,
    ⟨0x163#12, 0xFFF#12, none, fun _ => .s0Sync1⟩,
    ⟨0x100#12, 0xF00#12, none, .s0Mismatch⟩,
    ⟨0x200#12, 0xF00#12, none, .hdrDest⟩,
    ⟨0x300#12, 0xF00#12, none, .hdrSrc⟩,
    ⟨0x400#12, 0xF00#12, none, .hdrIdLo⟩,
    ⟨0x500#12, 0xF00#12, none, .hdrIdHi⟩,
    ⟨0x600#12, 0xF00#12, none, .hdrLenLo⟩ ] ++
  [ ⟨0x700#12, 0xF00#12, none, .lenOver⟩,
    ⟨0x700#12, 0xF00#12, some 0x00#8, fun _ => .lenZero⟩,
    ⟨0x700#12, 0xF00#12, none, .lenStart⟩,
    ⟨0x800#12, 0xF00#12, none, .payByte⟩,
    ⟨0x800#12, 0xF00#12, none, .payLast⟩,
    ⟨0x900#12, 0xF00#12, none, .chkaOk⟩,
    ⟨0x900#12, 0xF00#12, none, .chkaBad⟩,
    ⟨0xA00#12, 0xF00#12, none, .chkbOk⟩,
    ⟨0xA00#12, 0xF00#12, none, .chkbBad⟩ ]

/-- Does a row select this key under these registers? -/
def rowMatches (r : RowRegs) (k : BitVec 12) (row : KeyRow) : Bool :=
  k &&& row.mask == row.pattern && (row.byte.isNone || row.byte == some (keyByte k)) &&
    condition (row.op (keyByte k)) r

/-! ### Decoding -/

/-- Why a word is no operation. -/
inductive Reject where
  /-- `cmd` codes 100 to 111 (R82(b), R161). -/
  | reservedCommand
  /-- `chk_op` code 11 (R82(e)). -/
  | reservedMicroOp
  /-- No row of R76 holds: a state code 11 to 15 (R82(a)), or payload copy past the declared length, which no run
  from RESET reaches (R36(b)). -/
  | noRow
  /-- `rst = 0`: no reset is asked for. -/
  | resetNotAsserted
  /-- `enc_start = 0`: no ENCODE is asked for. -/
  | encodeNotStarted
  /-- A payload longer than the 16-bit length field can carry (R170). -/
  | payloadTooLong
  deriving DecidableEq, Repr

/-- What decoding answers. -/
inductive Decoded where
  | op (i : Instr)
  | rejected (e : Reject)
  deriving DecidableEq, Repr

/-- Format B: the first row that matches (R76). -/
def decodeRow (r : RowRegs) (k : BitVec 12) : Decoded :=
  match keyRows.find? (rowMatches r k) with
  | some row => .op (row.op (keyByte k))
  | none => .rejected .noRow

/-- Format H (R77). -/
def decodeCmd (c : BitVec 3) : Decoded :=
  match c.toNat with
  | 0 => .op .nop
  | 1 => .op .resume
  | 2 => .op .extract
  | 3 => .op .unhandledInc
  | _ => .rejected .reservedCommand

/-- Format C (R84). -/
def decodeChk (o : BitVec 2) (b : Byte) : Decoded :=
  match o.toNat with
  | 0 => .op .chkHold
  | 1 => .op .chkClear
  | 2 => .op (.chkAcc b)
  | _ => .rejected .reservedMicroOp

/-- The operation a word stands for under the current registers. -/
def decode (r : RowRegs) : OpWord → Decoded
  | .key k => decodeRow r k
  | .cmd c => decodeCmd c
  | .regAddr a => .op (.readReg a)
  | .bufAddr a => .op (.readBuf a)
  | .rst p => if p = 1#1 then .op .reset else .rejected .resetNotAsserted
  | .enc start dest src msgId payload =>
      if start ≠ 1#1 then .rejected .encodeNotStarted
      else if payload.length ≤ Config.maxPayload then .op (.encodeMsg dest src msgId payload)
      else .rejected .payloadTooLong
  | .chk o b => decodeChk o b

/-! ### Encoding -/

/-- The words of an operation, from the tables of R76, R77, R81, R84 and R85. A micro-operation that takes no byte has
`chk_in = 0`. -/
def encode : Instr → OpWord
  | .idleSync0 => .key 0x076#12
  | .idleSkip b => .key (0x0#4 ++ b)
  | .s0Sync1 => .key 0x163#12
  | .s0Mismatch b => .key (0x1#4 ++ b)
  | .hdrDest b => .key (0x2#4 ++ b)
  | .hdrSrc b => .key (0x3#4 ++ b)
  | .hdrIdLo b => .key (0x4#4 ++ b)
  | .hdrIdHi b => .key (0x5#4 ++ b)
  | .hdrLenLo b => .key (0x6#4 ++ b)
  | .lenOver b => .key (0x7#4 ++ b)
  | .lenZero => .key 0x700#12
  | .lenStart b => .key (0x7#4 ++ b)
  | .payByte b => .key (0x8#4 ++ b)
  | .payLast b => .key (0x8#4 ++ b)
  | .chkaOk b => .key (0x9#4 ++ b)
  | .chkaBad b => .key (0x9#4 ++ b)
  | .chkbOk b => .key (0xA#4 ++ b)
  | .chkbBad b => .key (0xA#4 ++ b)
  | .nop => .cmd 0b000#3
  | .resume => .cmd 0b001#3
  | .extract => .cmd 0b010#3
  | .unhandledInc => .cmd 0b011#3
  | .readReg a => .regAddr a
  | .readBuf a => .bufAddr a
  | .reset => .rst 1#1
  | .encodeMsg dest src msgId payload => .enc 1#1 dest src msgId payload
  | .chkHold => .chk 0b00#2 0x00#8
  | .chkClear => .chk 0b01#2 0x00#8
  | .chkAcc b => .chk 0b10#2 b

/-! ### Words as spec/opcode_table.json numbers them (log 10)

The table gives each format its own port, so that the same bits stand for operations of several formats. A word of 12
bits (two whole bytes) is read as a key of format B; a word of 3 bits (one whole byte) as a host command of format H,
the format with most rows of that size. The conditions of R76 need registers: `tableRegs` says which values stand for
them, and `State.withFetchWord` sets exactly those. -/

/-- The registers under which a table key is decoded: zero, but for a payload beat, which needs a declared length
(two bytes if the byte is 0, so that PAY_BYTE is selected; else one, so that PAY_LAST is). -/
def tableRegs (k : BitVec 12) : RowRegs :=
  { pendLen := if keyState k = 8#4 then (if keyByte k = 0x00#8 then 2#16 else 1#16) else 0#16,
    pendIndex := 0#10, chkA := 0x00#8, chkB := 0x00#8 }

/-- The word of `nbits` bits that the table writes as the number `w`. -/
def tableWord (nbits w : Nat) : Option OpWord :=
  if nbits = 16 ∨ nbits = 12 then (if w < 4096 then some (.key (BitVec.ofNat 12 w)) else none)
  else if nbits = 8 ∨ nbits = 3 then (if w < 8 then some (.cmd (BitVec.ofNat 3 w)) else none)
  else none

/-- The operation the decoder reads from a word of the table. -/
def decodeTableWord (nbits w : Nat) : Option Instr :=
  match tableWord nbits w with
  | none => none
  | some (.key k) =>
      match decode (tableRegs k) (.key k) with
      | .op i => some i
      | .rejected _ => none
  | some word =>
      match decode (tableRegs 0#12) word with
      | .op i => some i
      | .rejected _ => none

end Sys2Proof
end

