-- ==== Sys2Proof/Machine/State.lean ====
section
/-! DEFINITION. The state of the block (spec/10_state.md, spec/20_memory.md), what its outputs showed, what its host
does next, and the reasons a step can stop. Plain data throughout. -/

namespace Sys2Proof.Machine

/-- The event of a byte step (R78). Code 7 is never produced, so it has no constructor. -/
inductive Event where
  | noEvent | packetValid | errSync | errLen | errChkA | errChkB | overrun
  deriving DecidableEq, Repr

/-- The status of an EXTRACT (R79). Value 3 is never produced, so it has no constructor. -/
inductive ExtStatus where
  | noPacket | ok | ceiling
  deriving DecidableEq, Repr

/-- The message a successful EXTRACT produces (R152). -/
structure Message where
  dest : Byte
  src : Byte
  msgId : Half
  len : Half
  payload : List Byte
  deriving DecidableEq, Repr

/-- The payload buffer (R50, R51): the bytes written since reset as (index, byte) pairs, indices strictly rising.
An index that is not listed holds no written value (log 3). -/
abbrev Memory := List Host.Cell

/-- A frame the encoder is emitting at the port level (R85): its operands, the payload bytes taken so far, and how many
frame bytes have left. Log 12. -/
structure EncJob where
  dest : Byte
  src : Byte
  msgId : Half
  len : Half
  taken : List Byte
  sent : Nat
  deriving DecidableEq, Repr

/-- The input ports at one rising clock edge (R75, R85). A field left out is at the value that asks for nothing. -/
structure PortIn where
  rst : Bool := false
  inValid : Bool := false
  inData : Byte := 0x00#8
  cmd : BitVec 3 := 0b000#3
  regAddr : BitVec 4 := 0#4
  bufAddr : BufIndex := 0#10
  encStart : Bool := false
  encDest : Byte := 0x00#8
  encSrc : Byte := 0x00#8
  encMsgId : Half := 0#16
  encLen : Half := 0#16
  encPinValid : Bool := false
  encPinData : Byte := 0x00#8
  encOutReady : Bool := false
  deriving DecidableEq, Repr

/-- One thing the host does: a line of the notation of R83 (the transaction level of R5), a checksum micro-operation
given to the unit on its own (R80), or all ports at one clock edge (the port level of R5). Log 5, log 9, log 20. -/
inductive Input where
  /-- `BYTE bb`. -/
  | byte (b : Byte)
  /-- `NOP`, `RESUME`, `EXTRACT`, `UNHANDLED`: the value on `cmd`. -/
  | command (c : BitVec 3)
  /-- `READ name`: the value on `reg_addr`. -/
  | readReg (a : BitVec 4)
  /-- `READBUF i`. -/
  | readBuf (i : BufIndex)
  /-- `RESET`. -/
  | reset
  /-- `ENCODE d, s, id, [..]`. -/
  | encode (dest src : Byte) (msgId : Half) (payload : List Byte)
  /-- `chk_op`, `chk_in`, given by the user whose accumulators are `unitA` and `unitB`. -/
  | micro (op : BitVec 2) (b : Byte)
  /-- One rising edge with these port values. -/
  | edge (p : PortIn)
  deriving DecidableEq, Repr

/-- What the outputs showed in the last step (log 15). -/
structure Outputs where
  /-- `evt`, 0 when there was no beat (R75, R78). -/
  evt : Event
  /-- `ext_status`, 0 when there was no EXTRACT (R75, R79). -/
  extStatus : ExtStatus
  /-- The message of a successful EXTRACT (R152). -/
  msg : Option Message
  /-- `reg_data`, if it was read (R81). -/
  regData : Option (BitVec 32)
  /-- `buf_data`, if it was read (R159). -/
  bufData : Option Byte
  /-- The frame of an ENCODE (R171). -/
  frame : Option (List Byte)
  /-- The 17-bit `count` of an ENCODE (R173). -/
  count : Option (BitVec 17)
  /-- The frame byte that left the encoder at this edge (R85: `enc_out_valid AND enc_out_ready`). -/
  encByte : Option Byte
  deriving DecidableEq, Repr

/-- Outputs of a step that showed nothing: `evt` and `ext_status` at code 0, nothing read or produced. -/
def Outputs.idle : Outputs :=
  { evt := .noEvent, extStatus := .noPacket, msg := none, regData := none, bufData := none, frame := none,
    count := none, encByte := none }

/-- The state of one instance of the block. -/
structure State where
  /-- Build-time parameters (R6, R232); no step changes them. -/
  params : Config.Params
  /-- `state`, the block's program counter (R21). -/
  fsm : ParserState
  /-- `pend_dest` (R22). -/
  pendDest : Byte
  /-- `pend_src` (R23). -/
  pendSrc : Byte
  /-- `pend_msgid` (R24). -/
  pendMsgid : Half
  /-- `pend_len` (R25). -/
  pendLen : Half
  /-- `pend_index` (R26). -/
  pendIndex : BufIndex
  /-- `chkA` (R27). -/
  chkA : Byte
  /-- `chkB` (R27). -/
  chkB : Byte
  /-- `lv_dest` (R28). -/
  lvDest : Byte
  /-- `lv_src` (R28). -/
  lvSrc : Byte
  /-- `lv_msgid` (R28). -/
  lvMsgid : Half
  /-- `lv_len` (R28). -/
  lvLen : Half
  /-- `lv_chkA` (R28). -/
  lvChkA : Byte
  /-- `lv_chkB` (R28). -/
  lvChkB : Byte
  /-- `lv_valid` (R29). -/
  lvValid : Bool
  /-- `halted` (R30). -/
  halted : Bool
  /-- `valid_packets` (R31). -/
  validPackets : Count
  /-- `parse_errors` (R31). -/
  parseErrors : Count
  /-- `overruns` (R31). -/
  overruns : Count
  /-- `unhandled_packets` (R32). -/
  unhandledPackets : Count
  /-- The payload buffer (R50). -/
  buf : Memory
  /-- The model's own: which free draw an unwritten buffer byte is (R37; log 2). -/
  draws : Nat
  /-- The frame the encoder is emitting at the port level (R85; log 12). -/
  encJob : Option EncJob
  /-- The model's own: accumulator A of the user who drives the checksum unit on its own (R80, R84; log 9). -/
  unitA : Byte
  /-- The model's own: that user's accumulator B. -/
  unitB : Byte
  /-- The model's own: what the outputs showed in the last step (log 15). -/
  out : Outputs
  /-- The model's own: what the host does next, oldest first (log 5). -/
  inputs : List Input
  deriving DecidableEq, Repr

/-- Why a run stands still. -/
inductive Fault where
  /-- A byte given at the transaction level while `halted = 1`. Raised by every byte step. R110: "a model has no step
  for it: it is stuck until RESUME". Safe. Log 6. -/
  | haltedNoBeat
  /-- A byte step's meaning applied in a state whose key or condition does not select its row (R76, R110). Raised by
  every byte step; `step` never raises it, since it selects the row first. Safe. Log 7. -/
  | rowNotSelected
  deriving DecidableEq, Repr

/-- Why an operation has no meaning. -/
inductive Refusal where
  /-- An instruction without a meaning yet. Raised by no arm of this model. Safe. -/
  | notModelled (mnemonic : String)
  /-- A word that is no operation (R82, R161, R170). Raised by `step` when it decodes, and by ENCODE. Safe.
  Log 7, log 8, log 11. -/
  | rejected (e : Reject)
  deriving DecidableEq, Repr

/-- What a meaning answers. -/
abbrev Result := Host.Outcome State Fault Refusal

/-- The block right after RESET (R37, R230, R231), with the parameters of the spec's "Start" (log 1), the first draw of
the buffer (log 2), no output shown and nothing for the host to do (log 4). -/
def State.reset : State where
  params := Config.startParams
  fsm := .idle
  pendDest := 0x00#8
  pendSrc := 0x00#8
  pendMsgid := 0x0000#16
  pendLen := 0x0000#16
  pendIndex := 0#10
  chkA := 0x00#8
  chkB := 0x00#8
  lvDest := 0x00#8
  lvSrc := 0x00#8
  lvMsgid := 0x0000#16
  lvLen := 0x0000#16
  lvChkA := 0x00#8
  lvChkB := 0x00#8
  lvValid := false
  halted := false
  validPackets := 0#32
  parseErrors := 0#32
  overruns := 0#32
  unhandledPackets := 0#32
  buf := []
  draws := 0
  encJob := none
  unitA := 0x00#8
  unitB := 0x00#8
  out := Outputs.idle
  inputs := []

end Sys2Proof.Machine
end

