-- ==== Sys2Proof/Machine/Ops.lean ====
section
/-! DEFINITION. The named operations over the payload buffer, the checksum accumulators, the counters, the events and
the two ways the block leaves its normal flow: error recovery and the success halt. -/

namespace Sys2Proof.Machine

/-! ### The payload buffer (R50, R51, R54) -/

/-- The byte written at index `a`, if one was. -/
def memRead (a : Nat) : Memory → Option Byte
  | [] => none
  | (x, v) :: m => if a = x then some v else memRead a m

/-- Write byte `v` at index `a`, keeping the indices strictly rising. -/
def memWrite (a : Nat) (v : Byte) : Memory → Memory
  | [] => [(a, v)]
  | (x, w) :: m =>
      if a < x then (a, v) :: (x, w) :: m
      else if a = x then (a, v) :: m
      else (x, w) :: memWrite a v m

/-- All indices of `m` are above `a`, strictly rising, and inside the buffer. -/
def memWfAbove (a : Nat) : Memory → Bool
  | [] => true
  | (x, _) :: m => a < x && x < Config.bufSize && memWfAbove x m

/-- The canonical form: indices strictly rising and inside the buffer (R56). An unlisted index reads as no value, so
no entry equals what an unlisted index reads as. -/
def Memory.wf : Memory → Bool
  | [] => true
  | (x, _) :: m => x < Config.bufSize && memWfAbove x m

/-- `buf[i]` (R159): the byte last written there since reset, or the free draw of this reset (R37). -/
def bufByte (s : State) (i : Nat) : Byte := (memRead i s.buf).getD (Config.bufferDraw s.draws i)

/-- `BufRead(i, n)` (R8): the `n` bytes at indices `i .. i+n-1`. -/
def bufRead (s : State) (i : Nat) : Nat → List Byte
  | 0 => []
  | n + 1 => bufByte s i :: bufRead s (i + 1) n

/-! ### The checksum unit (spec/40_checksum.md) -/

/-- CHK_CLEAR on an accumulator pair (R100). -/
def chkClear (_ : Byte × Byte) : Byte × Byte := (0x00#8, 0x00#8)

/-- CHK_ACC on an accumulator pair (R101): `B` adds the new `A`; the carry out is discarded (R105). -/
def chkAcc (ab : Byte × Byte) (b : Byte) : Byte × Byte := (ab.1 + b, ab.2 + (ab.1 + b))

/-- CHK_HOLD on an accumulator pair (R103). -/
def chkHold (ab : Byte × Byte) : Byte × Byte := ab

/-- `Chk(s)` (R102): CHK_ACC folded over `s` from the cleared pair. -/
def chkSeq (bytes : List Byte) : Byte × Byte := bytes.foldl chkAcc (0x00#8, 0x00#8)

/-- Put a pair into the parser's accumulators (R27). -/
def State.withChk (s : State) (ab : Byte × Byte) : State := { s with chkA := ab.1, chkB := ab.2 }

/-- `Acc(b)` of spec/41_parser.md: CHK_ACC on `(chkA, chkB)`. -/
def accumulate (b : Byte) (s : State) : State := s.withChk (chkAcc (s.chkA, s.chkB) b)

/-- CHK_CLEAR on `(chkA, chkB)` (R113). -/
def clearChk (s : State) : State := s.withChk (chkClear (s.chkA, s.chkB))

/-- Put a pair into the accumulators of the user who drives the unit on its own (R84; log 9). -/
def State.withUnit (s : State) (ab : Byte × Byte) : State := { s with unitA := ab.1, unitB := ab.2 }

/-! ### Parser registers -/

/-- `state <- st`. -/
def goto (st : ParserState) (s : State) : State := { s with fsm := st }

/-- `BufWrite(pend_index, b); pend_index <- pend_index + 1` (R123, R124). -/
def storePayload (b : Byte) (s : State) : State :=
  { s with buf := memWrite s.pendIndex.toNat b s.buf, pendIndex := s.pendIndex + 1 }

/-! ### Counters (R33: `c <- (c + 1) mod 2^CNT_W`) -/

/-- One increment of a counter. -/
def bump (c : Count) : Count := c + 1

def countValid (s : State) : State := { s with validPackets := bump s.validPackets }
def countError (s : State) : State := { s with parseErrors := bump s.parseErrors }
def countOverrun (s : State) : State := { s with overruns := bump s.overruns }
def countUnhandled (s : State) : State := { s with unhandledPackets := bump s.unhandledPackets }

/-! ### Events (R8 `emit`, R78) -/

/-- `emit E`. -/
def emit (e : Event) (s : State) : State := { s with out := { s.out with evt := e } }

/-! ### Leaving the normal flow

The block has no trap (R200). "Recovery is the only trap entry" (R202), and the success halt is "the only
stop-and-continue" (R203). -/

/-- Error recovery (R202): count the error, go back to Idle, emit the event. -/
def recover (e : Event) (s : State) : State := emit e (goto .idle (countError s))

/-- The success halt of R127: `halted <- 1; state <- Idle`, emitting PACKET_VALID. -/
def successHalt (s : State) : State := emit .packetValid { s with halted := true, fsm := .idle }

/-- The return from it (R155): `halted <- 0`. -/
def unhalt (s : State) : State := { s with halted := false }

/-! ### Sequencing -/

/-- Run `g` on the state `r` answers; stop where `r` stops. -/
def andThen {α β : Type} (r : Host.Outcome α Fault Refusal) (g : α → Host.Outcome β Fault Refusal) :
    Host.Outcome β Fault Refusal :=
  match r with
  | .next a => g a
  | .fault f => .fault f
  | .refused e => .refused e

end Sys2Proof.Machine
end

