-- ==== Sys2Proof/Machine/Operands.lean ====
section
/-! DEFINITION. The operand forms of the block: the registers a row's condition reads, the register window, the
snapshot as a message, and the numeric codes of the outputs. -/

namespace Sys2Proof.Machine

/-- The registers the conditions of R76 read. -/
def rowRegs (s : State) : RowRegs :=
  { pendLen := s.pendLen, pendIndex := s.pendIndex, chkA := s.chkA, chkB := s.chkB }

/-- The code of an event on `evt` (R78). -/
def eventCode : Event → BitVec 3
  | .noEvent => 0 | .packetValid => 1 | .errSync => 2 | .errLen => 3 | .errChkA => 4 | .errChkB => 5 | .overrun => 6

/-- The code of a status on `ext_status` (R79). -/
def extStatusCode : ExtStatus → BitVec 2
  | .noPacket => 0 | .ok => 1 | .ceiling => 2

/-- Two byte fields packed low first into a 32-bit register (R52, R81). -/
def packBytes (low high : Byte) : BitVec 32 := (high ++ low).setWidth 32

/-- The STATUS register (R81): `[3:0]` state, `[4]` halted, `[5]` lv_valid. -/
def statusReg (s : State) : BitVec 32 :=
  (BitVec.ofBool s.lvValid ++ BitVec.ofBool s.halted ++ stateCode s.fsm).setWidth 32

/-- `Reg(reg_addr)` (R81). -/
def regWindow (s : State) (a : BitVec 4) : BitVec 32 :=
  match a.toNat with
  | 0x0 => statusReg s
  | 0x1 => packBytes s.lvDest s.lvSrc
  | 0x2 => s.lvMsgid.setWidth 32
  | 0x3 => s.lvLen.setWidth 32
  | 0x4 => packBytes s.lvChkA s.lvChkB
  | 0x5 => s.validPackets
  | 0x6 => s.parseErrors
  | 0x7 => s.overruns
  | 0x8 => s.unhandledPackets
  | 0x9 => packBytes s.pendDest s.pendSrc
  | 0xA => s.pendMsgid.setWidth 32
  | 0xB => s.pendLen.setWidth 32
  | 0xC => packBytes s.chkA s.chkB
  | 0xD => s.pendIndex.setWidth 32
  | _ => 0#32

/-- The message of R152: `(lv_dest, lv_src, lv_msgid, lv_len, BufRead(0, lv_len))`. -/
def snapshotMessage (s : State) : Message :=
  { dest := s.lvDest, src := s.lvSrc, msgId := s.lvMsgid, len := s.lvLen, payload := bufRead s 0 s.lvLen.toNat }

/-- The snapshot fields from the pending packet and the accumulators (R127). -/
def takeSnapshot (s : State) : State :=
  { s with lvDest := s.pendDest, lvSrc := s.pendSrc, lvMsgid := s.pendMsgid, lvLen := s.pendLen,
           lvChkA := s.chkA, lvChkB := s.chkB }

end Sys2Proof.Machine
end

