-- ==== Sys2Proof/Machine/Flags.lean ====
section
/-! DEFINITION. The flags `lv_valid` and `halted` (R29, R30), the ports that show them, and the test every byte step
makes before it writes. -/

namespace Sys2Proof.Machine

/-- `lv_valid <- 1` (R127). -/
def setValid (s : State) : State := { s with lvValid := true }

/-- `lv_valid <- 0` (R122, R152). -/
def clearValid (s : State) : State := { s with lvValid := false }

/-- The overrun test of the payload-start beat (R122): a snapshot still valid is invalidated and counted. -/
def overrunTest (s : State) : State :=
  if s.lvValid then emit .overrun (countOverrun (clearValid s)) else emit .noEvent s

/-- `in_ready = NOT halted AND NOT rst` (R75). -/
def inReady (s : State) (rst : Bool) : Bool := !s.halted && !rst

/-- `halted_o` (R75). -/
def haltedO (s : State) : Bool := s.halted

/-- `pkt_found` of the last step: `evt = PACKET_VALID` (R75). -/
def pktFound (s : State) : Bool := s.out.evt == .packetValid

/-- A byte step of row `i` in FSM state `st` writes `after`. It needs `halted = 0` (R110) and its row selected (R76). -/
def byteRow (st : ParserState) (i : Instr) (s after : State) : Result :=
  if s.halted then .fault .haltedNoBeat
  else if s.fsm = st ∧ condition i (rowRegs s) = true then .next after
  else .fault .rowNotSelected

end Sys2Proof.Machine
end

