-- ==== Sys2Proof/Machine/Checksum.lean ====
section
/-! DEFINITION. The checksum unit's micro-operations as operations of their own (spec/40_checksum.md), format C: "listed so
that the checksum unit can be modelled and tested as a unit of its own" (R80). "The user owns the accumulators" (D34), so
they act on the pair of the user who gives them, and not on the parser's pair, which only byte steps and RESET write
(R27, R81). The parser issues the same functions inside its byte steps, the encoder inside ENCODE. DESIGN CHOICE, log 9. -/

namespace Sys2Proof.Machine

/-- CHK_HOLD (R103): no change. -/
def execChkHold (s : State) : Result := .next (s.withUnit (chkHold (s.unitA, s.unitB)))

/-- CHK_CLEAR (R100): `A <- 0x00; B <- 0x00`. -/
def execChkClear (s : State) : Result := .next (s.withUnit (chkClear (s.unitA, s.unitB)))

/-- CHK_ACC (R101): `A <- A + b; B <- B + A'`, both mod 256. -/
def execChkAcc (b : Byte) (s : State) : Result := .next (s.withUnit (chkAcc (s.unitA, s.unitB) b))

end Sys2Proof.Machine
end

