-- ==== Sys2Proof/Machine/Encoder.lean ====
section
/-! DEFINITION. ENCODE (spec/43_encoder.md), format E: one atomic operation at the transaction level (R85). -/

namespace Sys2Proof.Machine

/-- The six header bytes `H` of R171 for a payload of length `len`. -/
def headerBytes (dest src : Byte) (msgId len : Half) : List Byte :=
  [dest, src, lowByte msgId, highByte msgId, lowByte len, highByte len]

/-- The sync pair and header, frame offsets 0 to 7 (R70). -/
def framePrefix (dest src : Byte) (msgId len : Half) : List Byte :=
  Config.sync0 :: Config.sync1 :: headerBytes dest src msgId len

/-- The two checksum bytes over header and payload (R73, R102, R172): the encoder's own accumulators start at 0. -/
def frameChecksum (dest src : Byte) (msgId len : Half) (payload : List Byte) : List Byte :=
  [(chkSeq (headerBytes dest src msgId len ++ payload)).1, (chkSeq (headerBytes dest src msgId len ++ payload)).2]

/-- `F` of R171: sync pair, header with the payload's actual length, payload in order, checksum A, checksum B. -/
def encodeFrame (dest src : Byte) (msgId : Half) (payload : List Byte) : List Byte :=
  framePrefix dest src msgId (BitVec.ofNat 16 payload.length) ++ payload ++
    frameChecksum dest src msgId (BitVec.ofNat 16 payload.length) payload

/-- Show an ENCODE's frame and count (R170, R173). -/
def showFrame (frame : List Byte) (s : State) : State :=
  { s with out := { s.out with frame := some frame, count := some (BitVec.ofNat 17 frame.length) } }

/-- ENCODE (R170 to R176): the frame and its 17-bit count. It reads only its operands and writes only its outputs. A
payload longer than the 16-bit length field can carry is no operand of ENCODE (R170; log 11). -/
def execEncodeMsg (dest src : Byte) (msgId : Half) (payload : List Byte) (s : State) : Result :=
  if payload.length ≤ Config.maxPayload then
    .next (showFrame (encodeFrame dest src msgId payload) s)
  else .refused (.rejected .payloadTooLong)

end Sys2Proof.Machine
end

