-- ==== Sys2Proof/Machine/HostOps.lean ====
section
/-! DEFINITION. Extraction, the other host commands and the port reads (spec/42_extractor_host.md), formats H and R. -/

namespace Sys2Proof.Machine

/-- Show an EXTRACT's status and message (R79, R152). -/
def showExtract (st : ExtStatus) (m : Option Message) (s : State) : State :=
  { s with out := { s.out with extStatus := st, msg := m } }

/-- Show a register on `reg_data` (R81). -/
def showReg (v : BitVec 32) (s : State) : State := { s with out := { s.out with regData := some v } }

/-- Show a byte on `buf_data` (R159). -/
def showBuf (v : Byte) (s : State) : State := { s with out := { s.out with bufData := some v } }

/-- NOP (R156). -/
def execNop (s : State) : Result := .next s

/-- RESUME (R155): `halted <- 0`. -/
def execResume (s : State) : Result := .next (unhalt s)

/-- EXTRACT (R150 to R153): nothing pending; the ceiling exceeded (strictly), shown or not as
`SURFACE_CEILING_ERR` says; or success, which clears `lv_valid` and nothing else. -/
def execExtract (s : State) : Result :=
  if s.lvValid then
    if s.lvLen.toNat ≤ s.params.msgCap.val then
      .next (clearValid (showExtract .ok (some (snapshotMessage s)) s))
    else .next (showExtract (if s.params.surfaceCeilingErr then .ceiling else .noPacket) none s)
  else .next (showExtract .noPacket none s)

/-- UNHANDLED_INC (R157). -/
def execUnhandledInc (s : State) : Result := .next (countUnhandled s)

/-- READ_REG (R158): no write; `reg_data = Reg(reg_addr)`. -/
def execReadReg (a : BitVec 4) (s : State) : Result :=
  .next (showReg (regWindow s a) s)

/-- READ_BUF (R159): no write; `buf_data = buf[buf_addr]`. -/
def execReadBuf (i : BufIndex) (s : State) : Result :=
  .next (showBuf (bufByte s i.toNat) s)

end Sys2Proof.Machine
end

