-- ==== Sys2Proof/Machine/Parser.lean ====
section
/-! DEFINITION. The eighteen byte steps of the parser (spec/41_parser.md, R111 to R128), format B. -/

namespace Sys2Proof.Machine

/-! ### Sync detection -/

/-- IDLE_SYNC0 (R111). -/
def execIdleSync0 (s : State) : Result :=
  byteRow .idle .idleSync0 s (emit .noEvent (goto .sawSync0 s))

/-- IDLE_SKIP (R112): the byte is ignored. -/
def execIdleSkip (b : Byte) (s : State) : Result :=
  byteRow .idle (.idleSkip b) s (emit .noEvent s)

/-- S0_SYNC1 (R113): the accumulators are cleared. -/
def execS0Sync1 (s : State) : Result :=
  byteRow .sawSync0 .s0Sync1 s (emit .noEvent (goto .sawSync1 (clearChk s)))

/-- S0_MISMATCH (R114): ERR_SYNC; the byte is not tested again as SYNC0. -/
def execS0Mismatch (b : Byte) (s : State) : Result :=
  byteRow .sawSync0 (.s0Mismatch b) s (recover .errSync s)

/-! ### Header reassembly -/

/-- HDR_DEST (R115). -/
def execHdrDest (b : Byte) (s : State) : Result :=
  byteRow .sawSync1 (.hdrDest b) s
    (emit .noEvent (goto .sawDestAddr (accumulate b { s with pendDest := b })))

/-- HDR_SRC (R116). -/
def execHdrSrc (b : Byte) (s : State) : Result :=
  byteRow .sawDestAddr (.hdrSrc b) s
    (emit .noEvent (goto .sawSrcAddr (accumulate b { s with pendSrc := b })))

/-- HDR_IDLO (R117): `pend_msgid[7:0] <- b`. -/
def execHdrIdLo (b : Byte) (s : State) : Result :=
  byteRow .sawSrcAddr (.hdrIdLo b) s
    (emit .noEvent (goto .sawMsgIdLo (accumulate b { s with pendMsgid := setLowByte s.pendMsgid b })))

/-- HDR_IDHI (R118): `pend_msgid[15:8] <- b`. -/
def execHdrIdHi (b : Byte) (s : State) : Result :=
  byteRow .sawMsgIdLo (.hdrIdHi b) s
    (emit .noEvent (goto .sawMsgIdHi (accumulate b { s with pendMsgid := setHighByte s.pendMsgid b })))

/-- HDR_LENLO (R119): `pend_len[7:0] <- b`. -/
def execHdrLenLo (b : Byte) (s : State) : Result :=
  byteRow .sawMsgIdHi (.hdrLenLo b) s
    (emit .noEvent (goto .sawLenLo (accumulate b { s with pendLen := setLowByte s.pendLen b })))

/-! ### The length branch -/

/-- What all three rows do first: `Acc(b); pend_len[15:8] <- b` (spec/41_parser.md section 4). -/
def takeLenHi (b : Byte) (s : State) : State := accumulate b { s with pendLen := setHighByte s.pendLen b }

/-- LEN_OVER (R120): ERR_LEN; `lv_valid`, the overrun counter, the index and the buffer are not touched. -/
def execLenOver (b : Byte) (s : State) : Result :=
  byteRow .sawLenLo (.lenOver b) s (recover .errLen (takeLenHi b s))

/-- LEN_ZERO (R121): no payload; `pend_index` and `lv_valid` are not touched. -/
def execLenZero (s : State) : Result :=
  byteRow .sawLenLo .lenZero s (emit .noEvent (goto .awaitChecksumA (takeLenHi 0x00#8 s)))

/-- LEN_START (R122): payload capture begins; a snapshot still valid is overrun. -/
def execLenStart (b : Byte) (s : State) : Result :=
  byteRow .sawLenLo (.lenStart b) s
    (overrunTest (goto .sawLenHi { takeLenHi b s with pendIndex := 0#10 }))

/-! ### Payload copy -/

/-- PAY_BYTE (R123). -/
def execPayByte (b : Byte) (s : State) : Result :=
  byteRow .sawLenHi (.payByte b) s (emit .noEvent (accumulate b (storePayload b s)))

/-- PAY_LAST (R124). -/
def execPayLast (b : Byte) (s : State) : Result :=
  byteRow .sawLenHi (.payLast b) s (emit .noEvent (goto .awaitChecksumA (accumulate b (storePayload b s))))

/-! ### Checksum validation -/

/-- CHKA_OK (R125). -/
def execChkaOk (b : Byte) (s : State) : Result :=
  byteRow .awaitChecksumA (.chkaOk b) s (emit .noEvent (goto .awaitChecksumB s))

/-- CHKA_BAD (R126): ERR_CHKA. -/
def execChkaBad (b : Byte) (s : State) : Result :=
  byteRow .awaitChecksumA (.chkaBad b) s (recover .errChkA s)

/-- CHKB_OK (R127): the pending packet becomes the snapshot, and the parser halts. -/
def execChkbOk (b : Byte) (s : State) : Result :=
  byteRow .awaitChecksumB (.chkbOk b) s (successHalt (countValid (setValid (takeSnapshot s))))

/-- CHKB_BAD (R128): ERR_CHKB. -/
def execChkbBad (b : Byte) (s : State) : Result :=
  byteRow .awaitChecksumB (.chkbBad b) s (recover .errChkB s)

end Sys2Proof.Machine
end

