-- ==== Sys2Proof/Machine/ResetOp.lean ====
section
/-! DEFINITION. RESET (spec/70_reset_and_hazards.md R230), format P. -/

namespace Sys2Proof.Machine

/-- RESET (R230): every state element takes its reset value (R37), the payload buffer becomes a new free draw, the
encoder abandons its frame. The parameters stay (R232); so do the model's own records of outputs and host (log 4) and the
pair of the checksum unit's own user, which is no element of the block (log 9). -/
def execReset (s : State) : Result :=
  .next { State.reset with params := s.params, draws := s.draws + 1, out := s.out, inputs := s.inputs,
                           unitA := s.unitA, unitB := s.unitB }

end Sys2Proof.Machine
end

