-- ==== Sys2Proof/Machine/Dispatch.lean ====
section
/-! DEFINITION. The meaning of every operation, one arm per constructor. -/

namespace Sys2Proof.Machine

def exec (i : Instr) (s : State) : Host.Outcome State Fault Refusal :=
  match i with
  | .idleSync0 => Sys2Proof.Machine.execIdleSync0 s
  | .idleSkip b => Sys2Proof.Machine.execIdleSkip b s
  | .s0Sync1 => Sys2Proof.Machine.execS0Sync1 s
  | .s0Mismatch b => Sys2Proof.Machine.execS0Mismatch b s
  | .hdrDest b => Sys2Proof.Machine.execHdrDest b s
  | .hdrSrc b => Sys2Proof.Machine.execHdrSrc b s
  | .hdrIdLo b => Sys2Proof.Machine.execHdrIdLo b s
  | .hdrIdHi b => Sys2Proof.Machine.execHdrIdHi b s
  | .hdrLenLo b => Sys2Proof.Machine.execHdrLenLo b s
  | .lenOver b => Sys2Proof.Machine.execLenOver b s
  | .lenZero => Sys2Proof.Machine.execLenZero s
  | .lenStart b => Sys2Proof.Machine.execLenStart b s
  | .payByte b => Sys2Proof.Machine.execPayByte b s
  | .payLast b => Sys2Proof.Machine.execPayLast b s
  | .chkaOk b => Sys2Proof.Machine.execChkaOk b s
  | .chkaBad b => Sys2Proof.Machine.execChkaBad b s
  | .chkbOk b => Sys2Proof.Machine.execChkbOk b s
  | .chkbBad b => Sys2Proof.Machine.execChkbBad b s
  | .nop => Sys2Proof.Machine.execNop s
  | .resume => Sys2Proof.Machine.execResume s
  | .extract => Sys2Proof.Machine.execExtract s
  | .unhandledInc => Sys2Proof.Machine.execUnhandledInc s
  | .readReg addr => Sys2Proof.Machine.execReadReg addr s
  | .readBuf index => Sys2Proof.Machine.execReadBuf index s
  | .reset => Sys2Proof.Machine.execReset s
  | .encodeMsg dest src msgId payload => Sys2Proof.Machine.execEncodeMsg dest src msgId payload s
  | .chkHold => Sys2Proof.Machine.execChkHold s
  | .chkClear => Sys2Proof.Machine.execChkClear s
  | .chkAcc b => Sys2Proof.Machine.execChkAcc b s

end Sys2Proof.Machine
end

