-- ==== Sys2Proof/Machine/Fetch.lean ====
section
/-! DEFINITION. From what the host does to an operation: forming the operation's word, decoding it under the current
registers and running it; and the byte step of R110. -/

namespace Sys2Proof.Machine

/-- The word of a transaction (R83's port encodings). A byte's key takes the FSM state in which the byte arrives
(R21, R76). A clock edge is no single word. -/
def fetchWord (s : State) : Input → Option OpWord
  | .byte b => some (.key (decodeKey s.fsm b))
  | .command c => some (.cmd c)
  | .readReg a => some (.regAddr a)
  | .readBuf i => some (.bufAddr i)
  | .reset => some (.rst 1#1)
  | .encode dest src msgId payload => some (.enc 1#1 dest src msgId payload)
  | .micro o b => some (.chk o b)
  | .edge _ => none

/-- Decode a word under the current registers and run the operation. -/
def runWord (w : OpWord) (s : State) : Result :=
  match decode (rowRegs s) w with
  | .op i => exec i s
  | .rejected e => .refused (.rejected e)

/-- `ByteStep(S, b)` (R110): the row that `{state, b}` and the conditions select. The event is in `out.evt`. -/
def byteStep (b : Byte) (s : State) : Result := runWord (.key (decodeKey s.fsm b)) s

end Sys2Proof.Machine
end

