-- ==== Sys2Proof/Machine/ParseCall.lean ====
section
/-! DEFINITION. The source's parse call and its loop over a stream (R130, R131). -/

namespace Sys2Proof.Machine

/-- What `ParseCall` returns: `(found, consumed, S')`. -/
structure ParseResult where
  found : Bool
  consumed : Nat
  st : State
  deriving DecidableEq, Repr

/-- The loop of R130 over the bytes that are left, `done` of them consumed before. -/
def parseBytes : List Byte → Nat → State → Host.Outcome ParseResult Fault Refusal
  | [], done, s => .next ⟨false, done, s⟩
  | b :: rest, done, s =>
      andThen (byteStep b s) fun t =>
        if t.out.evt = .packetValid then .next ⟨true, done + 1, t⟩ else parseBytes rest (done + 1) t

/-- `ParseCall(S, buf)` (R130): RESUME, then bytes until PACKET_VALID or the end of `buf`. -/
def parseCall (s : State) (bytes : List Byte) : Host.Outcome ParseResult Fault Refusal :=
  andThen (exec .resume s) fun t => parseBytes bytes 0 t

/-- EXTRACT after packet number `k` of a stream, if the host places one there (R131). -/
def placedExtract (place : Nat → Bool) (k : Nat) (s : State) : Result :=
  if place k then exec .extract s else .next s

/-- `ParseStream(S, s)` (R131): ParseCall on the remainder until the remainder is empty. `place k` says whether the host
EXTRACTs after packet number `k`, `k` packets having been found before. Answers how many packets have been found and
the final state. The first argument bounds the number of calls: each consumes a byte, so the stream's length is enough
(log 16). -/
def parseStream (place : Nat → Bool) : Nat → Nat → State → List Byte → Host.Outcome (Nat × State) Fault Refusal
  | 0, k, s, _ => .next (k, s)
  | _ + 1, k, s, [] => .next (k, s)
  | n + 1, k, s, b :: rest =>
      andThen (parseCall s (b :: rest)) fun r =>
        if r.found then
          andThen (placedExtract place k r.st) fun t =>
            parseStream place n (k + 1) t ((b :: rest).drop r.consumed)
        else .next (k, r.st)

/-- Feeding a stream in chunks, each by ParseStream, the packet count carried on (R131). -/
def feedChunks (place : Nat → Bool) : List (List Byte) → Nat → State → Host.Outcome (Nat × State) Fault Refusal
  | [], k, s => .next (k, s)
  | c :: rest, k, s => andThen (parseStream place c.length k s c) fun r => feedChunks place rest r.1 r.2

end Sys2Proof.Machine
end

