-- ==== Sys2Proof/Machine/Place.lean ====
section
/-! DEFINITION. How a step begins, and how an operation is placed so that the next step runs it (log 5, log 10). -/

namespace Sys2Proof.Machine

/-- The state in which a step's operation runs: the input taken off, nothing shown yet. -/
def opened (s : State) (rest : List Input) : State := { s with inputs := rest, out := Outputs.idle }

/-- Run a transaction: its word, decoded and executed. (A clock edge has no word; `step` runs it by `portEdge`.) -/
def runInput (i : Input) (s : State) : Result :=
  match fetchWord s i with
  | some w => runWord w s
  | none => .next s

/-- Put an input before the others. -/
def pushInput (i : Input) (s : State) : State := { s with inputs := i :: s.inputs }

/-- Give the registers that the rows of state `st` read the values `r`, and no others. -/
def setRowRegs (st : ParserState) (r : RowRegs) (s : State) : State :=
  match st with
  | .sawLenLo => { s with pendLen := r.pendLen }
  | .sawLenHi => { s with pendLen := r.pendLen, pendIndex := r.pendIndex }
  | .awaitChecksumA => { s with chkA := r.chkA }
  | .awaitChecksumB => { s with chkB := r.chkB }
  | .idle | .sawSync0 | .sawSync1 | .sawDestAddr | .sawSrcAddr | .sawMsgIdLo | .sawMsgIdHi => s

/-- Place a key: the byte is offered next, in the key's FSM state. A key whose state code is 11 to 15 is no key. -/
def placeKey (k : BitVec 12) (s : State) : State :=
  match stateOfCode (keyState k) with
  | some st => pushInput (.byte (keyByte k)) (setRowRegs st (tableRegs k) { s with fsm := st, halted := false })
  | none => s

/-- Place a word of the table (log 10). -/
def placeTableWord (s : State) (nbits w : Nat) : State :=
  match tableWord nbits w with
  | some (.key k) => placeKey k s
  | some (.cmd c) => pushInput (.command c) s
  | _ => s

end Sys2Proof.Machine
end

