-- ==== Sys2Proof/Machine/EncoderPort.lean ====
section
/-! DEFINITION. The encoder's ports (R85): a start takes the operands, payload bytes are taken on one stream, frame
bytes leave in order on another, and `enc_done` is raised for one edge after the last byte. What R85 leaves open of the
timing is a design choice (log 12). -/

namespace Sys2Proof.Machine

/-- The frame bytes whose inputs have been taken: offsets 0 to 7 at once, payload byte `i` as offset `8 + i` once it has
been taken, the checksum once all of the payload has (R85, R171). -/
def availableBytes (j : EncJob) : List Byte :=
  framePrefix j.dest j.src j.msgId j.len ++ j.taken ++
    (if j.taken.length = j.len.toNat then frameChecksum j.dest j.src j.msgId j.len j.taken else [])

/-- The frame's length `n + 10` (R70). -/
def jobCount (j : EncJob) : Nat := j.len.toNat + Config.overhead

/-- `enc_busy`: a frame is being emitted. -/
def encBusy (s : State) : Bool :=
  match s.encJob with
  | some j => j.sent < jobCount j
  | none => false

/-- `enc_done`: the last byte has left. -/
def encDone (s : State) : Bool :=
  match s.encJob with
  | some j => j.sent == jobCount j
  | none => false

/-- `enc_count[16:0]`. R85 gives it a value only with `enc_done` ("`enc_count` is then valid"); at any other time the
model gives it none (log 12). -/
def encCount (s : State) : Option (BitVec 17) :=
  match s.encJob with
  | some j => if j.sent = jobCount j then some (BitVec.ofNat 17 (jobCount j)) else none
  | none => none

/-- `enc_pin_ready`: a payload byte is still wanted. -/
def encPinReady (j : EncJob) : Bool := j.taken.length < j.len.toNat

/-- `enc_out_valid` and `enc_out_data`: the next frame byte, if it can be given. -/
def encOutData (j : EncJob) : Option Byte := (availableBytes j)[j.sent]?

/-- What one edge does to a frame being emitted: take a payload byte, give a frame byte, each if both sides agree. Both
read the values from before the edge (R9). -/
def encAdvance (pinValid : Bool) (pinData : Byte) (outReady : Bool) (j : EncJob) : EncJob × Option Byte :=
  let gone : Option Byte := if outReady then encOutData j else none
  ({ j with
      taken := if pinValid && encPinReady j then j.taken ++ [pinData] else j.taken
      sent := if gone.isSome then j.sent + 1 else j.sent },
    gone)

/-- The job an ENCODE start makes. -/
def encStartJob (p : PortIn) : EncJob :=
  { dest := p.encDest, src := p.encSrc, msgId := p.encMsgId, len := p.encLen, taken := [], sent := 0 }

/-- Put a job in the encoder. -/
def withJob (j : Option EncJob) (s : State) : State := { s with encJob := j }

/-- Show the frame byte that leaves at this edge (R85). -/
def showEncByte (b : Option Byte) (s : State) : State := { s with out := { s.out with encByte := b } }

/-- The encoder at one rising edge with `rst = 0`. It never stops an edge: it is independent of the rest of the block
(R176). While a frame is being emitted, the edge advances it and a start is not taken, since the table's condition for
ENCODE, `enc_busy = 0`, does not hold (log 12). Otherwise a start is taken, and a job whose `enc_done` has been shown for
its one edge is over. -/
def encoderEdge (p : PortIn) (s : State) : State :=
  match s.encJob with
  | some j =>
      if j.sent < jobCount j then
        showEncByte (encAdvance p.encPinValid p.encPinData p.encOutReady j).2
          (withJob (some (encAdvance p.encPinValid p.encPinData p.encOutReady j).1) s)
      else showEncByte none (withJob (if p.encStart then some (encStartJob p) else none) s)
  | none => showEncByte none (withJob (if p.encStart then some (encStartJob p) else none) s)

/-- What the edge of a transaction is for the encoder's ports: nothing is asked of them, so a frame in progress waits and
an `enc_done` that has been shown falls. DESIGN CHOICE, log 20. -/
def encoderIdle (s : State) : State := encoderEdge {} s

end Sys2Proof.Machine
end

