-- ==== Sys2Proof/Machine/PortEdge.lean ====
section
/-! DEFINITION. One rising clock edge with all its ports (R75, R160, R230). -/

namespace Sys2Proof.Machine

/-- The host command of an edge (R77). At the port level a reserved code acts as NOP (R82(b); log 8). -/
def commandEdge (c : BitVec 3) (s : State) : Result :=
  match decodeCmd c with
  | .op i => exec i s
  | .rejected _ => exec .nop s

/-- The beat of an edge: the offered byte is taken if `in_valid AND in_ready`, with `in_ready` from before the edge
(R75, R133, R160). -/
def beatEdge (p : PortIn) (ready : Bool) (s : State) : Result :=
  if p.inValid && ready then byteStep p.inData s else .next s

/-- One rising edge. The reads are combinational and show the state before the edge (R75; log 14). `rst` overrides the
command, the beat and the encoder (R230). Otherwise the command comes first and the beat second (R160); the encoder is
independent of both (R176). -/
def portEdge (p : PortIn) (s : State) : Result :=
  andThen (exec (.readReg p.regAddr) s) fun s1 =>
  andThen (exec (.readBuf p.bufAddr) s1) fun s2 =>
    if p.rst then exec .reset s2
    else
      andThen (commandEdge p.cmd s2) fun s3 =>
      andThen (beatEdge p (inReady s p.rst) s3) fun s4 =>
        .next (encoderEdge p s4)

end Sys2Proof.Machine
end

