-- ==== Sys2Proof/Machine/Step.lean ====
section
/-! DEFINITION. One step of the machine: the next thing the host does. -/

namespace Sys2Proof.Machine

/-- One step takes the oldest entry of `inputs`, clears the record of outputs, and runs the operation its word decodes
to, or the clock edge. With nothing to do it is an edge with `cmd = 000`, the NOP (log 5).

How the two levels of R5 mix in one list the spec leaves open. DESIGN CHOICE (log 20): a step that is no clock edge with
all its ports counts as one edge at which the encoder's ports are asked for nothing. -/
def step (s : State) : Host.Outcome State Fault Refusal :=
  match s.inputs with
  | [] => exec .nop (encoderIdle (opened s []))
  | .edge p :: rest => portEdge p (opened s rest)
  | i :: rest => runInput i (encoderIdle (opened s rest))

/-- The state in which the next step runs exactly the operation that `decodeTableWord nbits w` gives (log 10): the word
is put first among the host's inputs, and for a byte step the FSM state is the key's, the parser is not halted, and the
registers its condition reads are those the word was decoded under. -/
def State.withFetchWord (s : State) (nbits w : Nat) : State := placeTableWord s nbits w

end Sys2Proof.Machine
end

