-- ==== Sys2Proof/Safety.lean ====
section
/-! DEFINITION. The terms claims are stated in: the invariants of spec/10_state.md R36, what the host must respect for a
step to answer a next state, and the spec-level reading of a checksum accumulation. -/

namespace Sys2Proof.Safety

open Sys2Proof Sys2Proof.Machine

/-- The FSM state in which a byte-step row applies (R76); `none` for the other formats. -/
def rowState : Instr → Option ParserState
  | .idleSync0 | .idleSkip _ => some .idle
  | .s0Sync1 | .s0Mismatch _ => some .sawSync0
  | .hdrDest _ => some .sawSync1
  | .hdrSrc _ => some .sawDestAddr
  | .hdrIdLo _ => some .sawSrcAddr
  | .hdrIdHi _ => some .sawMsgIdLo
  | .hdrLenLo _ => some .sawMsgIdHi
  | .lenOver _ | .lenZero | .lenStart _ => some .sawLenLo
  | .payByte _ | .payLast _ => some .sawLenHi
  | .chkaOk _ | .chkaBad _ => some .awaitChecksumA
  | .chkbOk _ | .chkbBad _ => some .awaitChecksumB
  | .nop | .resume | .extract | .unhandledInc | .readReg _ | .readBuf _ | .reset | .encodeMsg ..
  | .chkHold | .chkClear | .chkAcc _ => none

/-- `Acc(b)` read on numbers (R101): A grows by `b`, B by the new A, both mod 256. -/
def Accumulated (b : Byte) (s t : State) : Prop :=
  t.chkA.toNat = (s.chkA.toNat + b.toNat) % 256 ∧ t.chkB.toNat = (s.chkB.toNat + t.chkA.toNat) % 256

/-- How many payload bytes of the pending packet stand in the buffer. -/
def capturedLen (s : State) : Nat :=
  match s.fsm with
  | .sawLenHi => s.pendIndex.toNat
  | .awaitChecksumA | .awaitChecksumB => s.pendLen.toNat
  | .idle | .sawSync0 | .sawSync1 | .sawDestAddr | .sawSrcAddr | .sawMsgIdLo | .sawMsgIdHi | .sawLenLo => 0

/-- Header bytes of the pending packet consumed so far (R115 to R122). -/
def headerSoFar (s : State) : List Byte :=
  match s.fsm with
  | .idle | .sawSync0 | .sawSync1 => []
  | .sawDestAddr => [s.pendDest]
  | .sawSrcAddr => [s.pendDest, s.pendSrc]
  | .sawMsgIdLo => [s.pendDest, s.pendSrc, lowByte s.pendMsgid]
  | .sawMsgIdHi => [s.pendDest, s.pendSrc, lowByte s.pendMsgid, highByte s.pendMsgid]
  | .sawLenLo => [s.pendDest, s.pendSrc, lowByte s.pendMsgid, highByte s.pendMsgid, lowByte s.pendLen]
  | .sawLenHi | .awaitChecksumA | .awaitChecksumB => headerBytes s.pendDest s.pendSrc s.pendMsgid s.pendLen

/-- Between SYNC1 and the end of the frame. -/
def midFrame (s : State) : Bool := s.fsm != .idle && s.fsm != .sawSync0

/-- The bytes the running checksum covers (R73, R102). -/
def coveredBytes (s : State) : List Byte := headerSoFar s ++ bufRead s 0 (capturedLen s)

/-- The invariants (a) to (d) of R36 that need no record of the past, with what carries them from step to step. (a) holds
by the type of `fsm`. -/
structure Legal (s : State) : Prop where
  /-- The buffer's list is canonical. -/
  bufCanonical : Memory.wf s.buf = true
  /-- R36(b). -/
  copyBounds : s.fsm = .sawLenHi →
    1 ≤ s.pendLen.toNat ∧ s.pendLen.toNat ≤ 1023 ∧ s.pendIndex.toNat < s.pendLen.toNat
  /-- A frame that reached its checksum has an accepted length (R120). -/
  acceptedLen : s.fsm = .awaitChecksumA ∨ s.fsm = .awaitChecksumB → s.pendLen.toNat ≤ 1023
  /-- R36(c), the bound. -/
  snapshotLen : s.lvValid = true → s.lvLen.toNat ≤ 1023
  /-- R36(d). -/
  haltedIdle : s.halted = true → s.fsm = .idle
  /-- R36(c), the reason: once payload capture has begun, no snapshot is valid. -/
  captureInvalidates :
    s.fsm = .sawLenHi ∨ ((s.fsm = .awaitChecksumA ∨ s.fsm = .awaitChecksumB) ∧ s.pendLen ≠ 0) → s.lvValid = false
  /-- The captured bytes have been written. -/
  capturedWritten : ∀ i, i < capturedLen s → (memRead i s.buf).isSome = true
  /-- R36(c), R37: the snapshot's payload has been written. -/
  snapshotWritten : s.lvValid = true → ∀ i, i < s.lvLen.toNat → (memRead i s.buf).isSome = true
  /-- The encoder at its ports has taken no more than the payload and given no more than it has (R85). -/
  encoderBounds : ∀ j, s.encJob = some j → j.taken.length ≤ j.len.toNat ∧ j.sent ≤ (availableBytes j).length

/-- R36(e), and what carries it: the running accumulators are the checksum of what has been consumed. -/
structure SumsAgree (s : State) : Prop where
  running : midFrame s = true → (s.chkA, s.chkB) = chkSeq (coveredBytes s)
  snapshot : s.lvValid = true → (s.lvChkA, s.lvChkB) =
    chkSeq (headerBytes s.lvDest s.lvSrc s.lvMsgid s.lvLen ++ bufRead s 0 s.lvLen.toNat)

/-- The next input asks for something that has an effect: no byte while halted at the transaction level (R83: "`halted`
must be 0"), no reserved code (R82, R161), no payload over 65535 bytes (R170). The stops are the model's choices of
logs 6, 8 and 11. -/
def hostObeys (s : State) : Bool :=
  match s.inputs with
  | .byte _ :: _ => !s.halted
  | .command c :: _ => c.toNat ≤ 3
  | .encode _ _ _ payload :: _ => payload.length ≤ 65535
  | .micro o _ :: _ => o.toNat ≤ 2
  | .edge _ :: _ | .readReg _ :: _ | .readBuf _ :: _ | .reset :: _ | [] => true

/-- Feed a list of encoder edges `(pin_valid, pin_data, out_ready)` to a frame being emitted; answer the job and the
bytes that left, in order. -/
def encRun (j : EncJob) : List (Bool × Byte × Bool) → EncJob × List Byte
  | [] => (j, [])
  | (v, d, r) :: rest =>
      ((encRun (encAdvance v d r j).1 rest).1,
       (encAdvance v d r j).2.toList ++ (encRun (encAdvance v d r j).1 rest).2)

end Sys2Proof.Safety
end

