-- ==== Sys2Proof/Certificates/Slice0/Obligations.lean ====
section
/-! DEFINITION. The statements for the provers, from the numbered rules of spec/. Where a statement says
`t = { s with f := t.f, … }`, every field not named is unchanged: that is the instruction's frame, all of the buffer
included; a named field's new value is said in the clauses beside it. -/

section
open Sys2Proof Sys2Proof.Machine Sys2Proof.Safety

/-! ### The checksum unit -/

/-- R101, and the pseudocode of R100 and R103: CHK_ACC, CHK_CLEAR and CHK_HOLD as operations of their own, by their
codes and by what they do to the pair of the user who gives them, in every state, nothing else changing. That this
pair is `unitA` and `unitB` and not the parser's is the model's choice (log 9). -/
def Obligations.ChecksumMicroOperations : Prop :=
  (∀ (r : RowRegs) (b : Byte), decode r (.chk 0b00#2 b) = .op .chkHold ∧ decode r (.chk 0b01#2 b) = .op .chkClear ∧
    decode r (.chk 0b10#2 b) = .op (.chkAcc b)) ∧
  ∀ s : State,
    exec .chkClear s = .next { s with unitA := 0x00#8, unitB := 0x00#8 } ∧
    exec .chkHold s = .next s ∧
    ∀ b : Byte, ∃ t, exec (.chkAcc b) s = .next t ∧ t = { s with unitA := t.unitA, unitB := t.unitB } ∧
      t.unitA.toNat = (s.unitA.toNat + b.toNat) % 256 ∧ t.unitB.toNat = (s.unitB.toNat + t.unitA.toNat) % 256

/-- R104 (the spec's own inference: "[derived: from rule R101 by induction on `m`, not stated in the source]"): the
closed form of both sums. Byte `i` of `m` bytes is weighted by `m - i` in B. -/
def Obligations.ChecksumClosedForm : Prop :=
  ∀ bytes : List Byte,
    (chkSeq bytes).1.toNat = (bytes.map (fun b => b.toNat)).sum % 256 ∧
    (chkSeq bytes).2.toNat = (bytes.mapIdx (fun i b => (bytes.length - i) * b.toNat)).sum % 256

/-- R106, first sentence (the spec's own inference: "[derived: from rule R104]"): changing exactly one byte by `d ≠ 0`
changes A by `d`, so A differs. -/
def Obligations.OneChangedByteChangesSumA : Prop :=
  ∀ (pre post : List Byte) (b d : Byte), d ≠ 0 →
    (chkSeq (pre ++ (b + d) :: post)).1 = (chkSeq (pre ++ b :: post)).1 + d ∧
    (chkSeq (pre ++ (b + d) :: post)).1 ≠ (chkSeq (pre ++ b :: post)).1

/-! ### The parser's byte steps

Each says what the row's operation does and that the byte step on `b` in that state is that operation (R76). -/

/-- R111, R112, R113: the sync rows. -/
def Obligations.SyncRows : Prop :=
  ∀ s : State, s.halted = false →
    (s.fsm = .idle →
      exec .idleSync0 s = .next { s with fsm := .sawSync0, out := { s.out with evt := .noEvent } } ∧
      byteStep 0x76#8 s = exec .idleSync0 s ∧
      ∀ b : Byte, b ≠ 0x76#8 →
        exec (.idleSkip b) s = .next { s with out := { s.out with evt := .noEvent } } ∧
        byteStep b s = exec (.idleSkip b) s) ∧
    (s.fsm = .sawSync0 →
      byteStep 0x63#8 s = exec .s0Sync1 s ∧
      exec .s0Sync1 s = .next
        { s with chkA := 0x00#8, chkB := 0x00#8, fsm := .sawSync1, out := { s.out with evt := .noEvent } })

/-- R114: a byte that is not SYNC1 is one ERR_SYNC and is not tested again: after `76 76 63` from Idle the parser is
in Idle with one more error. -/
def Obligations.SyncMismatchRow : Prop :=
  ∀ s : State, s.halted = false →
    (s.fsm = .sawSync0 → ∀ b : Byte, b ≠ 0x63#8 →
      ∃ t, exec (.s0Mismatch b) s = .next t ∧
        byteStep b s = .next t ∧ t.fsm = .idle ∧ t.out = { s.out with evt := .errSync } ∧
        t.parseErrors.toNat = (s.parseErrors.toNat + 1) % 2 ^ 32 ∧
        t = { s with fsm := t.fsm, parseErrors := t.parseErrors, out := t.out }) ∧
    (s.fsm = .idle →
      ∃ t, parseBytes [0x76#8, 0x76#8, 0x63#8] 0 s = .next ⟨false, 3, t⟩ ∧ t.fsm = .idle ∧
        t.parseErrors.toNat = (s.parseErrors.toNat + 1) % 2 ^ 32)

/-- R115, R116: the address bytes. -/
def Obligations.HeaderAddressRows : Prop :=
  ∀ (s : State) (b : Byte), s.halted = false →
    (s.fsm = .sawSync1 →
      ∃ t, exec (.hdrDest b) s = .next t ∧
        byteStep b s = .next t ∧ t.pendDest = b ∧ t.fsm = .sawDestAddr ∧ Accumulated b s t ∧
        t.out = { s.out with evt := .noEvent } ∧
        t = { s with pendDest := t.pendDest, fsm := t.fsm, chkA := t.chkA, chkB := t.chkB, out := t.out }) ∧
    (s.fsm = .sawDestAddr →
      ∃ t, exec (.hdrSrc b) s = .next t ∧
        byteStep b s = .next t ∧ t.pendSrc = b ∧ t.fsm = .sawSrcAddr ∧ Accumulated b s t ∧
        t.out = { s.out with evt := .noEvent } ∧
        t = { s with pendSrc := t.pendSrc, fsm := t.fsm, chkA := t.chkA, chkB := t.chkB, out := t.out })

/-- R117, R118: the message id, low byte first, each beat writing only its own half. -/
def Obligations.HeaderMessageIdRows : Prop :=
  ∀ (s : State) (b : Byte), s.halted = false →
    (s.fsm = .sawSrcAddr →
      ∃ t, exec (.hdrIdLo b) s = .next t ∧ byteStep b s = .next t ∧ t.fsm = .sawMsgIdLo ∧ Accumulated b s t ∧
        t.pendMsgid.toNat = 256 * (s.pendMsgid.toNat / 256) + b.toNat ∧
        t.out = { s.out with evt := .noEvent } ∧
        t = { s with pendMsgid := t.pendMsgid, fsm := t.fsm, chkA := t.chkA, chkB := t.chkB, out := t.out }) ∧
    (s.fsm = .sawMsgIdLo →
      ∃ t, exec (.hdrIdHi b) s = .next t ∧ byteStep b s = .next t ∧ t.fsm = .sawMsgIdHi ∧ Accumulated b s t ∧
        t.pendMsgid.toNat = 256 * b.toNat + s.pendMsgid.toNat % 256 ∧
        t.out = { s.out with evt := .noEvent } ∧
        t = { s with pendMsgid := t.pendMsgid, fsm := t.fsm, chkA := t.chkA, chkB := t.chkB, out := t.out })

/-- R119: the length's low byte. -/
def Obligations.HeaderLengthLowRow : Prop :=
  ∀ (s : State) (b : Byte), s.halted = false → s.fsm = .sawMsgIdHi →
    ∃ t, exec (.hdrLenLo b) s = .next t ∧ byteStep b s = .next t ∧ t.fsm = .sawLenLo ∧ Accumulated b s t ∧
      t.pendLen.toNat = 256 * (s.pendLen.toNat / 256) + b.toNat ∧
      t.out = { s.out with evt := .noEvent } ∧
      t = { s with pendLen := t.pendLen, fsm := t.fsm, chkA := t.chkA, chkB := t.chkB, out := t.out }

/-- R120: a declared length of 1024 or more (which is `b >= 4`) is one ERR_LEN; the snapshot, its validity, the
overrun counter, the index and the buffer are not touched. -/
def Obligations.OverLengthRow : Prop :=
  ∀ (s : State) (b : Byte),
    (1024 ≤ 256 * b.toNat + s.pendLen.toNat % 256 ↔ 4 ≤ b.toNat) ∧
    (s.halted = false → s.fsm = .sawLenLo → 1024 ≤ 256 * b.toNat + s.pendLen.toNat % 256 →
      ∃ t, exec (.lenOver b) s = .next t ∧ byteStep b s = .next t ∧ t.fsm = .idle ∧ Accumulated b s t ∧
        t.pendLen.toNat = 256 * b.toNat + s.pendLen.toNat % 256 ∧
        t.parseErrors.toNat = (s.parseErrors.toNat + 1) % 2 ^ 32 ∧
        t.out = { s.out with evt := .errLen } ∧
        t = { s with pendLen := t.pendLen, fsm := t.fsm, chkA := t.chkA, chkB := t.chkB,
                     parseErrors := t.parseErrors, out := t.out })

/-- R121: a zero length goes straight to the checksum; `pend_index`, `lv_valid` and `overruns` are not touched. -/
def Obligations.ZeroLengthRow : Prop :=
  ∀ s : State, s.halted = false → s.fsm = .sawLenLo → s.pendLen.toNat % 256 = 0 →
    ∃ t, exec .lenZero s = .next t ∧
      byteStep 0x00#8 s = .next t ∧ t.fsm = .awaitChecksumA ∧ t.pendLen = 0x0000#16 ∧ Accumulated 0x00#8 s t ∧
      t.out = { s.out with evt := .noEvent } ∧
      t = { s with pendLen := t.pendLen, fsm := t.fsm, chkA := t.chkA, chkB := t.chkB, out := t.out }

/-- R122: an accepted length starts payload capture; a snapshot still valid is invalidated and counted as an overrun,
its fields unchanged. -/
def Obligations.PayloadStartRow : Prop :=
  ∀ (s : State) (b : Byte), s.halted = false → s.fsm = .sawLenLo →
    1 ≤ 256 * b.toNat + s.pendLen.toNat % 256 → 256 * b.toNat + s.pendLen.toNat % 256 ≤ 1023 →
    ∃ t, exec (.lenStart b) s = .next t ∧
      byteStep b s = .next t ∧ t.fsm = .sawLenHi ∧ t.pendIndex = 0 ∧ t.lvValid = false ∧
      Accumulated b s t ∧
      t.pendLen.toNat = 256 * b.toNat + s.pendLen.toNat % 256 ∧
      (s.lvValid = true →
        t.overruns.toNat = (s.overruns.toNat + 1) % 2 ^ 32 ∧ t.out = { s.out with evt := .overrun }) ∧
      (s.lvValid = false → t.overruns = s.overruns ∧ t.out = { s.out with evt := .noEvent }) ∧
      t = { s with pendLen := t.pendLen, pendIndex := t.pendIndex, fsm := t.fsm, chkA := t.chkA, chkB := t.chkB,
                   lvValid := t.lvValid, overruns := t.overruns, out := t.out }

/-- R123, R124: a payload byte is stored at `pend_index` and nowhere else; the byte that completes the declared length
moves on to the checksum, with `pend_index = pend_len`. The premise is R36(b)'s, which StepKeepsLegal keeps. -/
def Obligations.PayloadRows : Prop :=
  ∀ (s : State) (b : Byte), s.halted = false → s.fsm = .sawLenHi → s.pendLen.toNat ≤ 1023 →
    (s.pendIndex.toNat + 1 < s.pendLen.toNat →
      ∃ t, exec (.payByte b) s = .next t ∧ byteStep b s = .next t ∧ t.fsm = .sawLenHi ∧ Accumulated b s t ∧
        t.pendIndex.toNat = s.pendIndex.toNat + 1 ∧
        bufByte t s.pendIndex.toNat = b ∧
        (∀ a, a ≠ s.pendIndex.toNat → bufByte t a = bufByte s a) ∧
        t.out = { s.out with evt := .noEvent } ∧
        t = { s with buf := t.buf, pendIndex := t.pendIndex, chkA := t.chkA, chkB := t.chkB, out := t.out }) ∧
    (s.pendIndex.toNat + 1 = s.pendLen.toNat →
      ∃ t, exec (.payLast b) s = .next t ∧ byteStep b s = .next t ∧ t.fsm = .awaitChecksumA ∧ Accumulated b s t ∧
        t.pendIndex.toNat = s.pendIndex.toNat + 1 ∧
        t.pendIndex.toNat = t.pendLen.toNat ∧
        bufByte t s.pendIndex.toNat = b ∧
        (∀ a, a ≠ s.pendIndex.toNat → bufByte t a = bufByte s a) ∧
        t.out = { s.out with evt := .noEvent } ∧
        t = { s with buf := t.buf, pendIndex := t.pendIndex, fsm := t.fsm, chkA := t.chkA, chkB := t.chkB,
                     out := t.out })

/-- R125, R126: the first checksum byte is compared with `chkA`; the accumulators are held. -/
def Obligations.ChecksumARows : Prop :=
  ∀ (s : State) (b : Byte), s.halted = false → s.fsm = .awaitChecksumA →
    (b = s.chkA →
      byteStep b s = exec (.chkaOk b) s ∧
      exec (.chkaOk b) s = .next { s with fsm := .awaitChecksumB, out := { s.out with evt := .noEvent } }) ∧
    (b ≠ s.chkA →
      ∃ t, exec (.chkaBad b) s = .next t ∧ byteStep b s = .next t ∧ t.fsm = .idle ∧
        t.parseErrors.toNat = (s.parseErrors.toNat + 1) % 2 ^ 32 ∧
        t.out = { s.out with evt := .errChkA } ∧
        t = { s with fsm := t.fsm, parseErrors := t.parseErrors, out := t.out })

/-- R127: the promotion. -/
def Obligations.PromotionRow : Prop :=
  ∀ (s : State) (b : Byte), s.halted = false → s.fsm = .awaitChecksumB → b = s.chkB →
    ∃ t, exec (.chkbOk b) s = .next t ∧ byteStep b s = .next t ∧
      t.lvDest = s.pendDest ∧ t.lvSrc = s.pendSrc ∧ t.lvMsgid = s.pendMsgid ∧ t.lvLen = s.pendLen ∧
      t.lvChkA = s.chkA ∧ t.lvChkB = s.chkB ∧ t.lvValid = true ∧ t.halted = true ∧ t.fsm = .idle ∧
      t.validPackets.toNat = (s.validPackets.toNat + 1) % 2 ^ 32 ∧
      t.out = { s.out with evt := .packetValid } ∧ pktFound t = true ∧
      t = { s with lvDest := t.lvDest, lvSrc := t.lvSrc, lvMsgid := t.lvMsgid, lvLen := t.lvLen,
                   lvChkA := t.lvChkA, lvChkB := t.lvChkB, lvValid := t.lvValid, halted := t.halted, fsm := t.fsm,
                   validPackets := t.validPackets, out := t.out }

/-- R128: a wrong second checksum byte is exactly one ERR_CHKB. -/
def Obligations.ChecksumBMismatchRow : Prop :=
  ∀ (s : State) (b : Byte), s.halted = false → s.fsm = .awaitChecksumB → b ≠ s.chkB →
    ∃ t, exec (.chkbBad b) s = .next t ∧ byteStep b s = .next t ∧ t.fsm = .idle ∧
      t.parseErrors.toNat = (s.parseErrors.toNat + 1) % 2 ^ 32 ∧
      t.out = { s.out with evt := .errChkB } ∧
      t = { s with fsm := t.fsm, parseErrors := t.parseErrors, out := t.out }

/-! ### Host commands and reads -/

/-- R150, R151, R152: the three cases of EXTRACT, the ceiling strict; success clears `lv_valid` and only that. -/
def Obligations.ExtractCases : Prop :=
  decodeCmd 0b010#3 = .op .extract ∧
  (extStatusCode .noPacket = 0 ∧ extStatusCode .ok = 1 ∧ extStatusCode .ceiling = 2) ∧
  ∀ s : State,
    (s.lvValid = false →
      exec .extract s = .next { s with out := { s.out with extStatus := .noPacket, msg := none } }) ∧
    (s.lvValid = true → s.params.msgCap.val < s.lvLen.toNat →
      exec .extract s = .next { s with out := { s.out with
        extStatus := if s.params.surfaceCeilingErr then .ceiling else .noPacket, msg := none } }) ∧
    (s.lvValid = true → s.lvLen.toNat ≤ s.params.msgCap.val →
      exec .extract s = .next { s with
        lvValid := false
        out := { s.out with
          extStatus := .ok
          msg := some ⟨s.lvDest, s.lvSrc, s.lvMsgid, s.lvLen,
            (List.range s.lvLen.toNat).map (fun i => bufByte s i)⟩ } })

/-- R55 (its last sentence is the spec's own inference: "[derived: from rule R152 and rule R150]"): register and
buffer reads are idempotent and change nothing but what was read out; EXTRACT is not: after a success a second one
answers that nothing is pending. -/
def Obligations.ReadsIdempotentExtractNot : Prop :=
  (∀ (s t : State) (a : BitVec 4), exec (.readReg a) s = .next t →
    exec (.readReg a) t = .next t ∧ t = { s with out := t.out }) ∧
  (∀ (s t : State) (i : BufIndex), exec (.readBuf i) s = .next t →
    exec (.readBuf i) t = .next t ∧ t = { s with out := t.out }) ∧
  (∀ s t : State, exec .extract s = .next t → t.out.extStatus = .ok →
    s.lvValid = true ∧ exec .extract t = .next { t with out := { t.out with extStatus := .noPacket, msg := none } })

/-- R155, R156, R157: RESUME, NOP and UNHANDLED_INC. After RESUME a byte can be taken at the next edge. No parser beat
changes the counter of UNHANDLED_INC. -/
def Obligations.ResumeNopUnhandled : Prop :=
  decodeCmd 0b001#3 = .op .resume ∧ decodeCmd 0b000#3 = .op .nop ∧ decodeCmd 0b011#3 = .op .unhandledInc ∧
  ∀ s : State,
    exec .resume s = .next { s with halted := false } ∧ inReady { s with halted := false } false = true ∧
    exec .nop s = .next s ∧
    (∀ (b : Byte) (u : State), byteStep b s = .next u → u.unhandledPackets = s.unhandledPackets) ∧
    ∃ t, exec .unhandledInc s = .next t ∧ t.unhandledPackets.toNat = (s.unhandledPackets.toNat + 1) % 2 ^ 32 ∧
      t = { s with unhandledPackets := t.unhandledPackets }

/-- R81, R158: every register of the window, as a number; reserved addresses read 0; reading changes nothing. -/
def Obligations.RegisterWindowRead : Prop :=
  ∀ (s : State) (a : BitVec 4),
    ∃ v : BitVec 32, exec (.readReg a) s = .next { s with out := { s.out with regData := some v } } ∧
      (a.toNat = 0x0 → v.toNat = (stateCode s.fsm).toNat + 16 * s.halted.toNat + 32 * s.lvValid.toNat) ∧
      (a.toNat = 0x1 → v.toNat = s.lvDest.toNat + 256 * s.lvSrc.toNat) ∧
      (a.toNat = 0x2 → v.toNat = s.lvMsgid.toNat) ∧
      (a.toNat = 0x3 → v.toNat = s.lvLen.toNat) ∧
      (a.toNat = 0x4 → v.toNat = s.lvChkA.toNat + 256 * s.lvChkB.toNat) ∧
      (a.toNat = 0x5 → v = s.validPackets) ∧
      (a.toNat = 0x6 → v = s.parseErrors) ∧
      (a.toNat = 0x7 → v = s.overruns) ∧
      (a.toNat = 0x8 → v = s.unhandledPackets) ∧
      (a.toNat = 0x9 → v.toNat = s.pendDest.toNat + 256 * s.pendSrc.toNat) ∧
      (a.toNat = 0xA → v.toNat = s.pendMsgid.toNat) ∧
      (a.toNat = 0xB → v.toNat = s.pendLen.toNat) ∧
      (a.toNat = 0xC → v.toNat = s.chkA.toNat + 256 * s.chkB.toNat) ∧
      (a.toNat = 0xD → v.toNat = s.pendIndex.toNat) ∧
      (a.toNat = 0xE ∨ a.toNat = 0xF → v = 0)

/-- R159, R37: a buffer read gives the byte a payload beat last wrote there, or this reset's free draw; it changes
nothing. The value of the draw is free (log 2). -/
def Obligations.BufferRead : Prop :=
  ∀ (s : State) (i : BufIndex),
    ∃ v : Byte, exec (.readBuf i) s = .next { s with out := { s.out with bufData := some v } } ∧
      (∀ w, memRead i.toNat s.buf = some w → v = w) ∧
      (memRead i.toNat s.buf = none → v = Config.bufferDraw s.draws i.toNat)

/-! ### The encoder -/

/-- R171, R173: the frame of ENCODE byte by byte, with both sums over header and payload, and `count = n + 10`; the
parser's state is untouched. -/
def Obligations.EncodeFrameAndCount : Prop :=
  ∀ (s : State) (dest src : Byte) (msgId : Half) (payload : List Byte), payload.length ≤ 65535 →
    ∃ (header : List Byte) (count : BitVec 17),
      header = [dest, src, BitVec.ofNat 8 (msgId.toNat % 256), BitVec.ofNat 8 (msgId.toNat / 256),
        BitVec.ofNat 8 (payload.length % 256), BitVec.ofNat 8 (payload.length / 256)] ∧
      count.toNat = payload.length + 10 ∧
      exec (.encodeMsg dest src msgId payload) s = .next { s with out := { s.out with
        frame := some ([0x76#8, 0x63#8] ++ header ++ payload ++
          [(chkSeq (header ++ payload)).1, (chkSeq (header ++ payload)).2]),
        count := some count } } ∧
      ([0x76#8, 0x63#8] ++ header ++ payload ++
          [(chkSeq (header ++ payload)).1, (chkSeq (header ++ payload)).2]).length = count.toNat

/-- R170, log 11 (the model's choice of a stop): a payload that the 16-bit length field cannot carry is refused. -/
def Obligations.EncodeRefusesOversizedPayload : Prop :=
  ∀ (s : State) (dest src : Byte) (msgId : Half) (payload : List Byte), 65535 < payload.length →
    exec (.encodeMsg dest src msgId payload) s = .refused (.rejected .payloadTooLong)

/-- R176: ENCODE and any other operation may be done in either order: the outcome, stops included, is the same; and
the frame depends on the operands alone. -/
def Obligations.EncodeIndependentOfParser : Prop :=
  (∀ (s : State) (dest src : Byte) (msgId : Half) (payload : List Byte) (i : Instr), payload.length ≤ 65535 →
    (∀ d r m p, i ≠ .encodeMsg d r m p) →
    andThen (exec (.encodeMsg dest src msgId payload) s) (exec i) =
      andThen (exec i s) (exec (.encodeMsg dest src msgId payload))) ∧
  (∀ (s s' t t' : State) (dest src : Byte) (msgId : Half) (payload : List Byte),
    exec (.encodeMsg dest src msgId payload) s = .next t → exec (.encodeMsg dest src msgId payload) s' = .next t' →
    t.out.frame = t'.out.frame ∧ t.out.count = t'.out.count)

/-- R85, R171: at its ports, whatever the two streams do (each edge carries `enc_pin_valid`, `enc_pin_data` and
`enc_out_ready`): the payload taken is the bytes offered, in order, until `enc_len` of them have been taken. The bytes
that have left are the first bytes of the frame of every payload that begins with those taken. At one more edge, a
byte leaves exactly if it is wanted and its inputs have been taken: offsets 0 to 7 at once, payload byte `i` once it
has been taken, the checksum once all of the payload has. When all `n + 10` have left they are exactly the frame,
`enc_done` is raised and `enc_count` is right; and a consumer that keeps ready gets the whole frame. That `enc_busy`
has fallen then, and that a byte taken can leave from the next edge on, is the model's choice (log 12). -/
def Obligations.EncoderStreamEmitsFrame : Prop :=
  ∀ (dest src : Byte) (msgId len : Half) (start : EncJob),
    start = { dest := dest, src := src, msgId := msgId, len := len, taken := [], sent := 0 } →
    (∀ (ins : List (Bool × Byte × Bool)) (j : EncJob) (gone : List Byte), encRun start ins = (j, gone) →
      j.taken = ((ins.filter (fun e => e.1)).map (fun e => e.2.1)).take len.toNat ∧
      gone.length = j.sent ∧ j.sent ≤ len.toNat + 10 ∧
      (∀ rest : List Byte, j.taken.length + rest.length = len.toNat →
        gone = (encodeFrame dest src msgId (j.taken ++ rest)).take j.sent) ∧
      (∀ (v : Bool) (d : Byte),
        (encRun start (ins ++ [(v, d, false)])).2 = gone ∧
        (encRun start (ins ++ [(v, d, true)])).2.length =
          (if j.sent < 8 + j.taken.length ∨ (j.taken.length = len.toNat ∧ j.sent < len.toNat + 10)
            then gone.length + 1 else gone.length)) ∧
      (j.sent = len.toNat + 10 → gone = encodeFrame dest src msgId j.taken ∧
        ∀ s : State, s.encJob = some j →
          encDone s = true ∧ encBusy s = false ∧ ∃ c, encCount s = some c ∧ c.toNat = len.toNat + 10)) ∧
    ∀ payload : List Byte, payload.length = len.toNat →
      (encRun start (payload.map (fun d => (true, d, false)) ++
        List.replicate (len.toNat + 10) (false, 0x00#8, true))).2 = encodeFrame dest src msgId payload

/-- R85 at one edge, log 12 (the model's choice where R85 is silent), whatever else the edge carries. `rst` abandons
the frame (R230). At any other edge that answers: an encoder that is not busy takes a start with its operands, and
otherwise holds no frame (one whose `enc_done` has been shown is over). A busy one takes no start; it takes the
payload byte offered if it wants one (`enc_pin_ready`); it gives the next frame byte if the consumer is ready and the
byte's inputs have been taken (`enc_out_valid`, `enc_out_data`), and otherwise none. -/
def Obligations.EncoderPortsAtEdge : Prop :=
  ∀ (p : PortIn) (s : State),
    (p.rst = true → ∃ t, portEdge p s = .next t ∧ t.encJob = none) ∧
    (p.rst = false → (p.inValid = true → s.halted = false → ∃ v, byteStep p.inData s = .next v) →
      ∃ t, portEdge p s = .next t ∧
        (encBusy s = false → t.out.encByte = none ∧
          t.encJob = if p.encStart then some
            { dest := p.encDest, src := p.encSrc, msgId := p.encMsgId, len := p.encLen, taken := [], sent := 0 }
            else none) ∧
        (∀ j, s.encJob = some j → encBusy s = true → j.taken.length ≤ j.len.toNat →
          ∃ k, t.encJob = some k ∧ k = { j with taken := k.taken, sent := k.sent } ∧
            k.taken = (if p.encPinValid = true ∧ j.taken.length < j.len.toNat
              then j.taken ++ [p.encPinData] else j.taken) ∧
            (p.encOutReady = true → j.sent < 8 + j.taken.length ∨ j.taken.length = j.len.toNat →
              k.sent = j.sent + 1 ∧ ∃ b, t.out.encByte = some b ∧
                ∀ rest, j.taken.length + rest.length = j.len.toNat →
                  (encodeFrame j.dest j.src j.msgId (j.taken ++ rest))[j.sent]? = some b) ∧
            (p.encOutReady = false ∨ (8 + j.taken.length ≤ j.sent ∧ j.taken.length < j.len.toNat) →
              k.sent = j.sent ∧ t.out.encByte = none)))

/-! ### Reset -/

/-- R37, R231: the state right after reset. The parameters, `draws`, `out` and `inputs` are the model's own (log 1, 2,
4) and not stated here. -/
def Obligations.ResetStateValues : Prop :=
  State.reset.fsm = .idle ∧ State.reset.pendDest = 0 ∧ State.reset.pendSrc = 0 ∧ State.reset.pendMsgid = 0 ∧
  State.reset.pendLen = 0 ∧ State.reset.pendIndex = 0 ∧ State.reset.chkA = 0 ∧ State.reset.chkB = 0 ∧
  State.reset.lvDest = 0 ∧ State.reset.lvSrc = 0 ∧ State.reset.lvMsgid = 0 ∧ State.reset.lvLen = 0 ∧
  State.reset.lvChkA = 0 ∧ State.reset.lvChkB = 0 ∧ State.reset.lvValid = false ∧ State.reset.halted = false ∧
  State.reset.validPackets = 0 ∧ State.reset.parseErrors = 0 ∧ State.reset.overruns = 0 ∧
  State.reset.unhandledPackets = 0 ∧ State.reset.encJob = none ∧
  ∀ i, bufByte State.reset i = Config.bufferDraw State.reset.draws i

/-- R230: from every state RESET gives the values of R37, each buffer byte a new free draw, the encoder's frame
abandoned, STATUS 0; at an edge `in_ready = 0` and the command, the beat and the ENCODE start are ignored. The model's
choices: that a new draw is the next number (log 2), that `params`, `out`, `inputs` and the checksum user's pair stay
(log 1, log 4, log 9), and that the reads of an edge with `rst` show the state before it, and nothing else is shown
(log 14). -/
def Obligations.ResetOperation : Prop :=
  ∀ s : State,
    (∃ t, exec .reset s = .next t ∧
      t = { State.reset with params := s.params, draws := s.draws + 1, out := s.out, inputs := s.inputs,
                             unitA := s.unitA, unitB := s.unitB } ∧
      (∀ i, bufByte t i = Config.bufferDraw (s.draws + 1) i) ∧ regWindow t 0x0#4 = 0) ∧
    inReady s true = false ∧
    ∀ p : PortIn, p.rst = true →
      ∃ t, portEdge p s = .next t ∧
        t = { State.reset with params := s.params, draws := s.draws + 1, inputs := s.inputs, out := t.out,
                               unitA := s.unitA, unitB := s.unitB } ∧
        t.out = { s.out with regData := some (regWindow s p.regAddr), bufData := some (bufByte s p.bufAddr.toNat) }

/-! ### Decoding and the step -/

/-- R76 and the tables of R77, R84: words written out from the spec's encodings decode to the operations they stand
for. -/
def Obligations.SpecWordsDecode : Prop :=
  decode ⟨0, 0, 0, 0⟩ (.key 0x076#12) = .op .idleSync0 ∧
  decode ⟨0, 0, 0, 0⟩ (.key 0x163#12) = .op .s0Sync1 ∧
  decode ⟨0, 0, 0, 0⟩ (.key 0x2A5#12) = .op (.hdrDest 0xA5#8) ∧
  decode ⟨0x0001#16, 0, 0, 0⟩ (.key 0x704#12) = .op (.lenOver 0x04#8) ∧
  decode ⟨0x0003#16, 2#10, 0, 0⟩ (.key 0x830#12) = .op (.payLast 0x30#8) ∧
  decode ⟨0, 0, 0x02#8, 0x0A#8⟩ (.key 0xA0A#12) = .op (.chkbOk 0x0A#8) ∧
  decode ⟨0, 0, 0, 0⟩ (.key 0xB00#12) = .rejected .noRow ∧
  decode ⟨0, 0, 0, 0⟩ (.cmd 0b010#3) = .op .extract ∧
  decode ⟨0, 0, 0, 0⟩ (.cmd 0b100#3) = .rejected .reservedCommand ∧
  decode ⟨0, 0, 0, 0⟩ (.chk 0b10#2 0xFF#8) = .op (.chkAcc 0xFF#8) ∧
  decode ⟨0, 0, 0, 0⟩ (.chk 0b11#2 0x00#8) = .rejected .reservedMicroOp

/-- R76's claim that the rows cover every key and never overlap (the spec's own inference: "[derived: from the
conditions, each group of which is a partition]"): in every state of the FSM, for every byte, exactly one row matches
(in payload copy, as long as the index is below the length, R36(b)). -/
def Obligations.ExactlyOneRowMatches : Prop :=
  ∀ (st : ParserState) (b : Byte) (r : RowRegs),
    (st = .sawLenHi → r.pendIndex.toNat < r.pendLen.toNat) →
    (keyRows.filter (rowMatches r (decodeKey st b))).length = 1

/-- For every well-formed operation whose row's condition holds, decoding its encoding gives it back, every operand at
every value. -/
def Obligations.DecodeOfEncode : Prop :=
  ∀ (i : Instr) (r : RowRegs), i.wf = true → condition i r = true → decode r (encode i) = .op i

/-- Every word has one meaning: a word that decodes is the encoding of what it decodes to, which is well formed and
whose condition holds. (`chk_in` is not read by CHK_HOLD and CHK_CLEAR, so those words have it 0 here.) -/
def Obligations.EncodeOfDecode : Prop :=
  ∀ (r : RowRegs) (w : OpWord) (i : Instr),
    (∀ o b, w = .chk o b → o = 0b10#2 ∨ b = 0x00#8) →
    decode r w = .op i → encode i = w ∧ i.wf = true ∧ condition i r = true

/-- A step takes the host's next input and runs the operation its word decodes to, in the state with that input taken
off and nothing shown yet; a word that is no operation is refused; a clock edge is `portEdge`; with no input the state
stays (NOP). Log 5 (the model's `inputs`). A step that is no clock edge counts as one at which the encoder's ports are
asked for nothing: only a frame whose `enc_done` has been shown goes (log 20). -/
def Obligations.StepRunsDecodedOperation : Prop :=
  ∀ (s : State),
    (s.inputs = [] → step s = .next { s with out := Outputs.idle, encJob := if encBusy s then s.encJob else none }) ∧
    (∀ (x : Input) (rest : List Input), s.inputs = x :: rest →
      (∀ p, x = .edge p → step s = portEdge p { s with inputs := rest, out := Outputs.idle }) ∧
      (∀ w i, fetchWord s x = some w → decode (rowRegs s) w = .op i →
        step s = exec i { s with inputs := rest, out := Outputs.idle, encJob := if encBusy s then s.encJob else none }) ∧
      (∀ w e, fetchWord s x = some w → decode (rowRegs s) w = .rejected e → step s = .refused (.rejected e)))

/-- Placing a word of the table and stepping runs the operation the table word decodes to, whatever the state before.
Log 10 (the model's reading of table words), log 20 (the step as an edge of the encoder's ports). -/
def Obligations.PlacedTableWordRuns : Prop :=
  ∀ (s : State) (nbits w : Nat) (i : Instr), decodeTableWord nbits w = some i →
    ∃ t, t = { s.withFetchWord nbits w with inputs := s.inputs, out := Outputs.idle,
                                                encJob := if encBusy s then s.encJob else none } ∧
      step (s.withFetchWord nbits w) = exec i t ∧ ∃ u, exec i t = .next u

/-- R133: a byte offered at an edge while halted has no effect at all, and no edge but one with RESUME or `rst` ends
the halt. -/
def Obligations.HaltedTakesNoByte : Prop :=
  ∀ s : State,
    (∀ rst, inReady s rst = (!s.halted && !rst)) ∧
    (s.halted = true →
      (∀ p : PortIn, portEdge p s = portEdge { p with inValid := false } s) ∧
      (∀ (p : PortIn) (t : State), portEdge p s = .next t → p.rst = false → p.cmd ≠ 0b001#3 → t.halted = true))

/-- R110, R76, log 7 (the model's stops): a byte step answers a next state exactly when the parser is not halted and
its row is selected; while it is halted every byte that has a row faults (log 6). -/
def Obligations.ByteStepNeedsItsRow : Prop :=
  (∀ (i : Instr) (st : ParserState) (s : State), rowState i = some st →
    ((∃ t, exec i s = .next t) ↔ (s.halted = false ∧ s.fsm = st ∧ condition i (rowRegs s) = true))) ∧
  (∀ (b : Byte) (s : State) (i : Instr), s.halted = true → decode (rowRegs s) (.key (decodeKey s.fsm b)) = .op i →
    byteStep b s = .fault .haltedNoBeat)

/-- R161, R82(b): a program that issues a reserved command is refused; at the port level the code acts as NOP. -/
def Obligations.ReservedCodes : Prop :=
  ∀ (s : State) (rest : List Input),
    (∀ c : BitVec 3, 4 ≤ c.toNat → s.inputs = .command c :: rest → step s = .refused (.rejected .reservedCommand)) ∧
    (∀ p : PortIn, 4 ≤ p.cmd.toNat → portEdge p s = portEdge { p with cmd := 0b000#3 } s)

/-- R160: at one edge the command is done on the state before it, and the beat, if the byte is offered and the parser
was not halted before the edge, on what the command leaves. So an EXTRACT at the edge of a beat that would overrun
succeeds and the beat counts no overrun; a byte offered at the edge of the RESUME that ends a halt is not taken; and
an UNHANDLED_INC counts beside a beat. The model's choices: the reads show the state before the edge (log 14), and the
encoder's ports come last (log 12), which no other part of the edge can tell (R176). -/
def Obligations.CommandBeforeBeat : Prop :=
  ∀ (p : PortIn) (s : State), p.rst = false →
    (∀ i u, decodeCmd p.cmd = .op i → exec i { s with out := { s.out with
        regData := some (regWindow s p.regAddr), bufData := some (bufByte s p.bufAddr.toNat) } } = .next u →
      (p.inValid = true → s.halted = false →
        portEdge p s = andThen (byteStep p.inData u) fun v => .next (encoderEdge p v)) ∧
      (p.inValid = false ∨ s.halted = true → portEdge p s = .next (encoderEdge p u))) ∧
    (p.cmd = 0b010#3 → p.inValid = true → s.halted = false → s.fsm = .sawLenLo → s.lvValid = true →
      s.lvLen.toNat ≤ s.params.msgCap.val →
      1 ≤ 256 * p.inData.toNat + s.pendLen.toNat % 256 → 256 * p.inData.toNat + s.pendLen.toNat % 256 ≤ 1023 →
      ∃ t, portEdge p s = .next t ∧ t.out.extStatus = .ok ∧ t.out.evt = .noEvent ∧ t.fsm = .sawLenHi ∧
        t.lvValid = false ∧ t.overruns = s.overruns) ∧
    (p.cmd = 0b001#3 → p.inValid = true → s.halted = true →
      ∃ t, portEdge p s = .next t ∧ t.halted = false ∧ t.fsm = s.fsm ∧ t.out.evt = s.out.evt) ∧
    (p.cmd = 0b011#3 → (p.inValid = true → s.halted = false → ∃ v, byteStep p.inData s = .next v) →
      ∃ t, portEdge p s = .next t ∧ t.unhandledPackets = s.unhandledPackets + 1)

/-! ### What every operation keeps, and whole-machine rules -/

/-- R36 (the spec's own inference: "[derived: from rules R111 to R128, R150 to R157 and R230]"): the state right after
reset meets the invariants. -/
def Obligations.ResetMeetsInvariants : Prop :=
  Legal State.reset ∧ SumsAgree State.reset

/-- The state part of R36(a) to (d), the spec's own inference: every step keeps `Legal`, whatever the host does. What
(c) and (d) say of the past is not in it: that the buffer holds the payload of the packet last promoted is
ValidSnapshotIsStable with PayloadRows, and that the beat that set `halted` also set `lv_valid` is PromotionRow. -/
def Obligations.StepKeepsLegal : Prop :=
  ∀ s t : State, Legal s → step s = .next t → Legal t

/-- R36(e), the spec's own inference, and R102: every step keeps the agreement of the running and the promoted
checksums with the bytes they cover, whatever the host does. -/
def Obligations.StepKeepsSumsAgree : Prop :=
  ∀ s t : State, Legal s → SumsAgree s → step s = .next t → SumsAgree t

/-- R200: nothing in the block aborts: from a legal state a step answers a next state exactly when the host's next
input asks for something that has an effect. What `hostObeys` leaves out are the stops the model chose: a byte while
halted (log 6), a reserved code given as a transaction (log 8), a payload over 65535 bytes (log 11). -/
def Obligations.LegalStepAnswersNext : Prop :=
  ∀ s : State, Legal s → ((∃ t, step s = .next t) ↔ hostObeys s = true)

/-- R232: no step changes the parameters. -/
def Obligations.StepKeepsParameters : Prop :=
  ∀ s t : State, step s = .next t → t.params = s.params

/-- R154 (the spec's own inference: "[derived: from `10_state.md` rule R29 and the rules named]"): `lv_valid` is set
only by the promotion, and cleared only by a payload start, which counts an overrun, by a successful EXTRACT, or by
RESET. -/
def Obligations.ValidFlagTransitions : Prop :=
  ∀ (i : Instr) (s t : State), exec i s = .next t →
    (s.lvValid = false → t.lvValid = true → ∃ b, i = .chkbOk b) ∧
    (s.lvValid = true → t.lvValid = false →
      (∃ b, i = .lenStart b ∧ t.overruns = s.overruns + 1) ∨ (i = .extract ∧ t.out.extStatus = .ok) ∨ i = .reset)

/-- R31, R32, R33: which operation increments which counter; no other operation but RESET changes one; the registers
they are read at. -/
def Obligations.CountersChangeOnlyByTheirRules : Prop :=
  (∀ s : State, regWindow s 0x5#4 = s.validPackets ∧ regWindow s 0x6#4 = s.parseErrors ∧
    regWindow s 0x7#4 = s.overruns ∧ regWindow s 0x8#4 = s.unhandledPackets) ∧
  ∀ (i : Instr) (s t : State), exec i s = .next t → i ≠ .reset →
    (t.validPackets ≠ s.validPackets → (∃ b, i = .chkbOk b) ∧ t.validPackets = s.validPackets + 1) ∧
    (t.parseErrors ≠ s.parseErrors →
      (∃ b, i = .s0Mismatch b ∨ i = .lenOver b ∨ i = .chkaBad b ∨ i = .chkbBad b) ∧
        t.parseErrors = s.parseErrors + 1) ∧
    (t.overruns ≠ s.overruns → (∃ b, i = .lenStart b) ∧ s.lvValid = true ∧ t.overruns = s.overruns + 1) ∧
    (t.unhandledPackets ≠ s.unhandledPackets →
      i = .unhandledInc ∧ t.unhandledPackets = s.unhandledPackets + 1)

/-- R129 (the spec's own inference: "[derived: from rules R111 to R128]") and the table of R201: the codes of the
events (R78); a byte step raises one event, and it changes the one counter that belongs to the event, by 1, and no
other. -/
def Obligations.EventNamesTheCounter : Prop :=
  (eventCode .noEvent = 0 ∧ eventCode .packetValid = 1 ∧ eventCode .errSync = 2 ∧ eventCode .errLen = 3 ∧
    eventCode .errChkA = 4 ∧ eventCode .errChkB = 5 ∧ eventCode .overrun = 6) ∧
  ∀ (b : Byte) (s t : State), byteStep b s = .next t →
    t.unhandledPackets = s.unhandledPackets ∧
    match t.out.evt with
    | .noEvent => t.validPackets = s.validPackets ∧ t.parseErrors = s.parseErrors ∧ t.overruns = s.overruns
    | .packetValid => t.validPackets = s.validPackets + 1 ∧ t.parseErrors = s.parseErrors ∧ t.overruns = s.overruns
    | .errSync | .errLen | .errChkA | .errChkB =>
        t.validPackets = s.validPackets ∧ t.parseErrors = s.parseErrors + 1 ∧ t.overruns = s.overruns
    | .overrun => t.validPackets = s.validPackets ∧ t.parseErrors = s.parseErrors ∧ t.overruns = s.overruns + 1

/-- R202 (the spec's own inference: "[derived: from rules R114, R120, R122, R126 and R128]"): after an error event the
parser is in Idle, and nothing else has changed but the error counter, the accumulators and `pend_len`; an overrun
leaves the parser on its path into payload copy. -/
def Obligations.ErrorRecovery : Prop :=
  ∀ (b : Byte) (s t : State), byteStep b s = .next t →
    (t.out.evt = .errSync ∨ t.out.evt = .errLen ∨ t.out.evt = .errChkA ∨ t.out.evt = .errChkB →
      t = { s with fsm := .idle, parseErrors := s.parseErrors + 1, chkA := t.chkA, chkB := t.chkB,
                   pendLen := t.pendLen, out := t.out } ∧
      (t.out.evt ≠ .errLen → t.chkA = s.chkA ∧ t.chkB = s.chkB ∧ t.pendLen = s.pendLen)) ∧
    (t.out.evt = .overrun → t.fsm = .sawLenHi)

/-- R36(c), the spec's own inference, and R153: while a snapshot stays valid and no new packet is promoted, the
message it stands for does not change, payload included. -/
def Obligations.ValidSnapshotIsStable : Prop :=
  ∀ s t : State, Legal s → step s = .next t → s.lvValid = true → t.lvValid = true →
    t.validPackets = s.validPackets → snapshotMessage t = snapshotMessage s

/-- R176, R85: neither what the encoder's ports are given nor the frame it is emitting changes anything of the rest of
the block, nor whether the edge answers. -/
def Obligations.EncoderPortsDoNotTouchParser : Prop :=
  ∀ (p q : PortIn) (s s' t : State),
    q = { p with encStart := q.encStart, encDest := q.encDest, encSrc := q.encSrc, encMsgId := q.encMsgId,
                 encLen := q.encLen, encPinValid := q.encPinValid, encPinData := q.encPinData,
                 encOutReady := q.encOutReady } →
    s' = { s with encJob := s'.encJob } →
    portEdge p s = .next t →
    ∃ u, portEdge q s' = .next u ∧ u = { t with encJob := u.encJob, out := { t.out with encByte := u.out.encByte } }

/-! ### The parse call and the stream -/

/-- R130: what a parse call returns. Success stops it, with one packet counted and the parser halted; otherwise all
bytes are consumed and no packet is counted. -/
def Obligations.ParseCallContract : Prop :=
  (∀ s : State, parseCall s [] = .next ⟨false, 0, { s with halted := false }⟩) ∧
  ∀ (s : State) (bytes : List Byte) (r : ParseResult), parseCall s bytes = .next r →
    r.consumed ≤ bytes.length ∧
    (r.found = true → 1 ≤ r.consumed ∧ r.st.halted = true ∧ r.st.out.evt = .packetValid ∧
      r.st.validPackets = s.validPackets + 1) ∧
    (r.found = false → r.consumed = bytes.length ∧ r.st.halted = false ∧ r.st.validPackets = s.validPackets)

/-- R112 over a stream (source item 3): bytes that are not SYNC0 are consumed in Idle without any change. -/
def Obligations.GarbageIsSkipped : Prop :=
  ∀ (s : State) (bytes : List Byte), s.fsm = .idle → (∀ b ∈ bytes, b ≠ 0x76#8) →
    ∃ t, parseCall s bytes = .next ⟨false, bytes.length, t⟩ ∧
      t = { s with halted := false, out := { s.out with evt := t.out.evt } }

/-- R131: chunk-size invariance (the spec's own inference: "[derived: from rule R34 of `10_state.md` and rule R110
...]"). Feeding a stream in any chunks gives the same packet count, the same final state and the same stop, if any, as
feeding it whole, for every placement of EXTRACT after packets. The placement by packet number and the bounded loop
are the model's way to write R131 (log 16). -/
def Obligations.ChunkingInvariance : Prop :=
  ∀ (place : Nat → Bool) (chunks : List (List Byte)) (k : Nat) (s : State),
    feedChunks place chunks k s = parseStream place chunks.flatten.length k s chunks.flatten

/-- R132: the round trip (the spec's own inference: "[derived: from rules R111 to R127, `43_encoder.md` rule R171 and
`42_extractor_host.md` rule R152]"). From Idle, parsing the frame ENCODE makes of any message with a payload of at
most 1023 bytes finds exactly that packet, with the frame's length consumed and its checksum in the snapshot; a
snapshot that was valid is an overrun if the payload is not empty, and a following EXTRACT returns the fields if the
payload is not over MSG_CAP. -/
def Obligations.RoundTrip : Prop :=
  ∀ (s : State) (dest src : Byte) (msgId : Half) (payload : List Byte), s.fsm = .idle → payload.length ≤ 1023 →
    ∃ t, parseCall s (encodeFrame dest src msgId payload) = .next ⟨true, payload.length + 10, t⟩ ∧
      t.lvValid = true ∧ t.lvDest = dest ∧ t.lvSrc = src ∧ t.lvMsgid = msgId ∧ t.lvLen.toNat = payload.length ∧
      [t.lvChkA, t.lvChkB] = (encodeFrame dest src msgId payload).drop (payload.length + 8) ∧
      bufRead t 0 payload.length = payload ∧ t.fsm = .idle ∧ t.halted = true ∧ t.params = s.params ∧
      t.validPackets = s.validPackets + 1 ∧ t.parseErrors = s.parseErrors ∧
      t.overruns = (if s.lvValid = true ∧ payload ≠ [] then s.overruns + 1 else s.overruns) ∧
      (payload.length ≤ s.params.msgCap.val →
        ∃ u, exec .extract t = .next u ∧ u.out.extStatus = .ok ∧ u.lvValid = false ∧
          u.out.msg = some { dest := dest, src := src, msgId := msgId, len := t.lvLen, payload := payload })

/-- R175: ENCODE makes a frame for 1024 to 65535 payload bytes; the parser rejects it at its length field, with
nothing read as payload data, and scans the rest from Idle. -/
def Obligations.OversizedFrameRejected : Prop :=
  ∀ (s : State) (dest src : Byte) (msgId : Half) (payload : List Byte), s.fsm = .idle → s.halted = false →
    1024 ≤ payload.length → payload.length ≤ 65535 →
    (∃ u, exec (.encodeMsg dest src msgId payload) s = .next u ∧
      u.out.frame = some (encodeFrame dest src msgId payload)) ∧
    ∃ t, parseBytes ((encodeFrame dest src msgId payload).take 8) 0 s = .next ⟨false, 8, t⟩ ∧ t.fsm = .idle ∧
      t.out.evt = .errLen ∧ t.parseErrors = s.parseErrors + 1 ∧ t.validPackets = s.validPackets ∧
      t.lvValid = s.lvValid ∧ t.overruns = s.overruns ∧ t.buf = s.buf ∧
      parseBytes (encodeFrame dest src msgId payload) 0 s = parseBytes ((encodeFrame dest src msgId payload).drop 8) 8 t

/-- R106, second sentence, the spec's own inference (source item 4, as 90_conflicts.md C6 limits it): a frame with
exactly one destination, source, message-id or payload byte changed yields no packet and exactly one error. -/
def Obligations.CorruptedByteRejected : Prop :=
  ∀ (s : State) (dest src : Byte) (msgId : Half) (payload : List Byte) (k : Nat) (b : Byte), s.fsm = .idle →
    payload.length ≤ 1023 → (2 ≤ k ∧ k ≤ 5) ∨ (8 ≤ k ∧ k < 8 + payload.length) →
    (encodeFrame dest src msgId payload)[k]? ≠ some b →
    ∃ t, parseCall s ((encodeFrame dest src msgId payload).set k b) = .next ⟨false, payload.length + 10, t⟩ ∧
      t.parseErrors = s.parseErrors + 1 ∧ t.validPackets = s.validPackets

/-! ### Beside the above -/

/-- Entry 10 of spec/93_implementation_defined.md ("It would be refused"), log 8: checksum code 11, which R82(e)
reserves, is refused when the unit's own user gives it (log 9). -/
def Obligations.ReservedMicroOperationRefused : Prop :=
  ∀ (s : State) (rest : List Input) (b : Byte), s.inputs = .micro 0b11#2 b :: rest →
    step s = .refused (.rejected .reservedMicroOp)

/-- R81, its last sentence: only byte steps, host commands and RESET change the block's state. Every other operation
changes what is shown alone, and the micro-operations the pair of the checksum unit's own user (log 9). -/
def Obligations.OnlyTheseChangeState : Prop :=
  ∀ (i : Instr) (s t : State), rowState i = none → i ≠ .resume → i ≠ .extract → i ≠ .unhandledInc → i ≠ .reset →
    exec i s = .next t → t = { s with out := t.out, unitA := t.unitA, unitB := t.unitB }

end
end

