-- ==== Sys2Proof/Laws/State.lean ====
section
/-! SUPPORT. One lemma per field per update of State, true by rfl, so that no later proof unfolds a record update. -/

namespace Sys2Proof.Machine

variable (s : State)

/-! ### the accumulator pair -/

@[simp] theorem withChk_params (ab : Byte × Byte) : (s.withChk ab).params = s.params := rfl
@[simp] theorem withChk_fsm (ab : Byte × Byte) : (s.withChk ab).fsm = s.fsm := rfl
@[simp] theorem withChk_pendDest (ab : Byte × Byte) : (s.withChk ab).pendDest = s.pendDest := rfl
@[simp] theorem withChk_pendSrc (ab : Byte × Byte) : (s.withChk ab).pendSrc = s.pendSrc := rfl
@[simp] theorem withChk_pendMsgid (ab : Byte × Byte) : (s.withChk ab).pendMsgid = s.pendMsgid := rfl
@[simp] theorem withChk_pendLen (ab : Byte × Byte) : (s.withChk ab).pendLen = s.pendLen := rfl
@[simp] theorem withChk_pendIndex (ab : Byte × Byte) : (s.withChk ab).pendIndex = s.pendIndex := rfl
@[simp] theorem withChk_chkA (ab : Byte × Byte) : (s.withChk ab).chkA = ab.1 := rfl
@[simp] theorem withChk_chkB (ab : Byte × Byte) : (s.withChk ab).chkB = ab.2 := rfl
@[simp] theorem withChk_lvDest (ab : Byte × Byte) : (s.withChk ab).lvDest = s.lvDest := rfl
@[simp] theorem withChk_lvSrc (ab : Byte × Byte) : (s.withChk ab).lvSrc = s.lvSrc := rfl
@[simp] theorem withChk_lvMsgid (ab : Byte × Byte) : (s.withChk ab).lvMsgid = s.lvMsgid := rfl
@[simp] theorem withChk_lvLen (ab : Byte × Byte) : (s.withChk ab).lvLen = s.lvLen := rfl
@[simp] theorem withChk_lvChkA (ab : Byte × Byte) : (s.withChk ab).lvChkA = s.lvChkA := rfl
@[simp] theorem withChk_lvChkB (ab : Byte × Byte) : (s.withChk ab).lvChkB = s.lvChkB := rfl
@[simp] theorem withChk_lvValid (ab : Byte × Byte) : (s.withChk ab).lvValid = s.lvValid := rfl
@[simp] theorem withChk_halted (ab : Byte × Byte) : (s.withChk ab).halted = s.halted := rfl
@[simp] theorem withChk_validPackets (ab : Byte × Byte) : (s.withChk ab).validPackets = s.validPackets := rfl
@[simp] theorem withChk_parseErrors (ab : Byte × Byte) : (s.withChk ab).parseErrors = s.parseErrors := rfl
@[simp] theorem withChk_overruns (ab : Byte × Byte) : (s.withChk ab).overruns = s.overruns := rfl
@[simp] theorem withChk_unhandledPackets (ab : Byte × Byte) : (s.withChk ab).unhandledPackets = s.unhandledPackets := rfl
@[simp] theorem withChk_buf (ab : Byte × Byte) : (s.withChk ab).buf = s.buf := rfl
@[simp] theorem withChk_draws (ab : Byte × Byte) : (s.withChk ab).draws = s.draws := rfl
@[simp] theorem withChk_encJob (ab : Byte × Byte) : (s.withChk ab).encJob = s.encJob := rfl
@[simp] theorem withChk_unitA (ab : Byte × Byte) : (s.withChk ab).unitA = s.unitA := rfl
@[simp] theorem withChk_unitB (ab : Byte × Byte) : (s.withChk ab).unitB = s.unitB := rfl
@[simp] theorem withChk_out (ab : Byte × Byte) : (s.withChk ab).out = s.out := rfl
@[simp] theorem withChk_inputs (ab : Byte × Byte) : (s.withChk ab).inputs = s.inputs := rfl

/-! ### the pair of the checksum unit's own user -/

@[simp] theorem withUnit_params (ab : Byte × Byte) : (s.withUnit ab).params = s.params := rfl
@[simp] theorem withUnit_fsm (ab : Byte × Byte) : (s.withUnit ab).fsm = s.fsm := rfl
@[simp] theorem withUnit_pendDest (ab : Byte × Byte) : (s.withUnit ab).pendDest = s.pendDest := rfl
@[simp] theorem withUnit_pendSrc (ab : Byte × Byte) : (s.withUnit ab).pendSrc = s.pendSrc := rfl
@[simp] theorem withUnit_pendMsgid (ab : Byte × Byte) : (s.withUnit ab).pendMsgid = s.pendMsgid := rfl
@[simp] theorem withUnit_pendLen (ab : Byte × Byte) : (s.withUnit ab).pendLen = s.pendLen := rfl
@[simp] theorem withUnit_pendIndex (ab : Byte × Byte) : (s.withUnit ab).pendIndex = s.pendIndex := rfl
@[simp] theorem withUnit_chkA (ab : Byte × Byte) : (s.withUnit ab).chkA = s.chkA := rfl
@[simp] theorem withUnit_chkB (ab : Byte × Byte) : (s.withUnit ab).chkB = s.chkB := rfl
@[simp] theorem withUnit_lvDest (ab : Byte × Byte) : (s.withUnit ab).lvDest = s.lvDest := rfl
@[simp] theorem withUnit_lvSrc (ab : Byte × Byte) : (s.withUnit ab).lvSrc = s.lvSrc := rfl
@[simp] theorem withUnit_lvMsgid (ab : Byte × Byte) : (s.withUnit ab).lvMsgid = s.lvMsgid := rfl
@[simp] theorem withUnit_lvLen (ab : Byte × Byte) : (s.withUnit ab).lvLen = s.lvLen := rfl
@[simp] theorem withUnit_lvChkA (ab : Byte × Byte) : (s.withUnit ab).lvChkA = s.lvChkA := rfl
@[simp] theorem withUnit_lvChkB (ab : Byte × Byte) : (s.withUnit ab).lvChkB = s.lvChkB := rfl
@[simp] theorem withUnit_lvValid (ab : Byte × Byte) : (s.withUnit ab).lvValid = s.lvValid := rfl
@[simp] theorem withUnit_halted (ab : Byte × Byte) : (s.withUnit ab).halted = s.halted := rfl
@[simp] theorem withUnit_validPackets (ab : Byte × Byte) : (s.withUnit ab).validPackets = s.validPackets := rfl
@[simp] theorem withUnit_parseErrors (ab : Byte × Byte) : (s.withUnit ab).parseErrors = s.parseErrors := rfl
@[simp] theorem withUnit_overruns (ab : Byte × Byte) : (s.withUnit ab).overruns = s.overruns := rfl
@[simp] theorem withUnit_unhandledPackets (ab : Byte × Byte) : (s.withUnit ab).unhandledPackets = s.unhandledPackets := rfl
@[simp] theorem withUnit_buf (ab : Byte × Byte) : (s.withUnit ab).buf = s.buf := rfl
@[simp] theorem withUnit_draws (ab : Byte × Byte) : (s.withUnit ab).draws = s.draws := rfl
@[simp] theorem withUnit_encJob (ab : Byte × Byte) : (s.withUnit ab).encJob = s.encJob := rfl
@[simp] theorem withUnit_unitA (ab : Byte × Byte) : (s.withUnit ab).unitA = ab.1 := rfl
@[simp] theorem withUnit_unitB (ab : Byte × Byte) : (s.withUnit ab).unitB = ab.2 := rfl
@[simp] theorem withUnit_out (ab : Byte × Byte) : (s.withUnit ab).out = s.out := rfl
@[simp] theorem withUnit_inputs (ab : Byte × Byte) : (s.withUnit ab).inputs = s.inputs := rfl

/-! ### `Acc(b)` (R101) -/

@[simp] theorem accumulate_params (b : Byte) : (accumulate b s).params = s.params := rfl
@[simp] theorem accumulate_fsm (b : Byte) : (accumulate b s).fsm = s.fsm := rfl
@[simp] theorem accumulate_pendDest (b : Byte) : (accumulate b s).pendDest = s.pendDest := rfl
@[simp] theorem accumulate_pendSrc (b : Byte) : (accumulate b s).pendSrc = s.pendSrc := rfl
@[simp] theorem accumulate_pendMsgid (b : Byte) : (accumulate b s).pendMsgid = s.pendMsgid := rfl
@[simp] theorem accumulate_pendLen (b : Byte) : (accumulate b s).pendLen = s.pendLen := rfl
@[simp] theorem accumulate_pendIndex (b : Byte) : (accumulate b s).pendIndex = s.pendIndex := rfl
@[simp] theorem accumulate_chkA (b : Byte) : (accumulate b s).chkA = s.chkA + b := rfl
@[simp] theorem accumulate_chkB (b : Byte) : (accumulate b s).chkB = s.chkB + (s.chkA + b) := rfl
@[simp] theorem accumulate_lvDest (b : Byte) : (accumulate b s).lvDest = s.lvDest := rfl
@[simp] theorem accumulate_lvSrc (b : Byte) : (accumulate b s).lvSrc = s.lvSrc := rfl
@[simp] theorem accumulate_lvMsgid (b : Byte) : (accumulate b s).lvMsgid = s.lvMsgid := rfl
@[simp] theorem accumulate_lvLen (b : Byte) : (accumulate b s).lvLen = s.lvLen := rfl
@[simp] theorem accumulate_lvChkA (b : Byte) : (accumulate b s).lvChkA = s.lvChkA := rfl
@[simp] theorem accumulate_lvChkB (b : Byte) : (accumulate b s).lvChkB = s.lvChkB := rfl
@[simp] theorem accumulate_lvValid (b : Byte) : (accumulate b s).lvValid = s.lvValid := rfl
@[simp] theorem accumulate_halted (b : Byte) : (accumulate b s).halted = s.halted := rfl
@[simp] theorem accumulate_validPackets (b : Byte) : (accumulate b s).validPackets = s.validPackets := rfl
@[simp] theorem accumulate_parseErrors (b : Byte) : (accumulate b s).parseErrors = s.parseErrors := rfl
@[simp] theorem accumulate_overruns (b : Byte) : (accumulate b s).overruns = s.overruns := rfl
@[simp] theorem accumulate_unhandledPackets (b : Byte) : (accumulate b s).unhandledPackets = s.unhandledPackets := rfl
@[simp] theorem accumulate_buf (b : Byte) : (accumulate b s).buf = s.buf := rfl
@[simp] theorem accumulate_draws (b : Byte) : (accumulate b s).draws = s.draws := rfl
@[simp] theorem accumulate_encJob (b : Byte) : (accumulate b s).encJob = s.encJob := rfl
@[simp] theorem accumulate_unitA (b : Byte) : (accumulate b s).unitA = s.unitA := rfl
@[simp] theorem accumulate_unitB (b : Byte) : (accumulate b s).unitB = s.unitB := rfl
@[simp] theorem accumulate_out (b : Byte) : (accumulate b s).out = s.out := rfl
@[simp] theorem accumulate_inputs (b : Byte) : (accumulate b s).inputs = s.inputs := rfl

/-! ### CHK_CLEAR (R100) -/

@[simp] theorem clearChk_params : (clearChk s).params = s.params := rfl
@[simp] theorem clearChk_fsm : (clearChk s).fsm = s.fsm := rfl
@[simp] theorem clearChk_pendDest : (clearChk s).pendDest = s.pendDest := rfl
@[simp] theorem clearChk_pendSrc : (clearChk s).pendSrc = s.pendSrc := rfl
@[simp] theorem clearChk_pendMsgid : (clearChk s).pendMsgid = s.pendMsgid := rfl
@[simp] theorem clearChk_pendLen : (clearChk s).pendLen = s.pendLen := rfl
@[simp] theorem clearChk_pendIndex : (clearChk s).pendIndex = s.pendIndex := rfl
@[simp] theorem clearChk_chkA : (clearChk s).chkA = 0x00#8 := rfl
@[simp] theorem clearChk_chkB : (clearChk s).chkB = 0x00#8 := rfl
@[simp] theorem clearChk_lvDest : (clearChk s).lvDest = s.lvDest := rfl
@[simp] theorem clearChk_lvSrc : (clearChk s).lvSrc = s.lvSrc := rfl
@[simp] theorem clearChk_lvMsgid : (clearChk s).lvMsgid = s.lvMsgid := rfl
@[simp] theorem clearChk_lvLen : (clearChk s).lvLen = s.lvLen := rfl
@[simp] theorem clearChk_lvChkA : (clearChk s).lvChkA = s.lvChkA := rfl
@[simp] theorem clearChk_lvChkB : (clearChk s).lvChkB = s.lvChkB := rfl
@[simp] theorem clearChk_lvValid : (clearChk s).lvValid = s.lvValid := rfl
@[simp] theorem clearChk_halted : (clearChk s).halted = s.halted := rfl
@[simp] theorem clearChk_validPackets : (clearChk s).validPackets = s.validPackets := rfl
@[simp] theorem clearChk_parseErrors : (clearChk s).parseErrors = s.parseErrors := rfl
@[simp] theorem clearChk_overruns : (clearChk s).overruns = s.overruns := rfl
@[simp] theorem clearChk_unhandledPackets : (clearChk s).unhandledPackets = s.unhandledPackets := rfl
@[simp] theorem clearChk_buf : (clearChk s).buf = s.buf := rfl
@[simp] theorem clearChk_draws : (clearChk s).draws = s.draws := rfl
@[simp] theorem clearChk_encJob : (clearChk s).encJob = s.encJob := rfl
@[simp] theorem clearChk_unitA : (clearChk s).unitA = s.unitA := rfl
@[simp] theorem clearChk_unitB : (clearChk s).unitB = s.unitB := rfl
@[simp] theorem clearChk_out : (clearChk s).out = s.out := rfl
@[simp] theorem clearChk_inputs : (clearChk s).inputs = s.inputs := rfl

/-! ### `state <- st` -/

@[simp] theorem goto_params (st : ParserState) : (goto st s).params = s.params := rfl
@[simp] theorem goto_fsm (st : ParserState) : (goto st s).fsm = st := rfl
@[simp] theorem goto_pendDest (st : ParserState) : (goto st s).pendDest = s.pendDest := rfl
@[simp] theorem goto_pendSrc (st : ParserState) : (goto st s).pendSrc = s.pendSrc := rfl
@[simp] theorem goto_pendMsgid (st : ParserState) : (goto st s).pendMsgid = s.pendMsgid := rfl
@[simp] theorem goto_pendLen (st : ParserState) : (goto st s).pendLen = s.pendLen := rfl
@[simp] theorem goto_pendIndex (st : ParserState) : (goto st s).pendIndex = s.pendIndex := rfl
@[simp] theorem goto_chkA (st : ParserState) : (goto st s).chkA = s.chkA := rfl
@[simp] theorem goto_chkB (st : ParserState) : (goto st s).chkB = s.chkB := rfl
@[simp] theorem goto_lvDest (st : ParserState) : (goto st s).lvDest = s.lvDest := rfl
@[simp] theorem goto_lvSrc (st : ParserState) : (goto st s).lvSrc = s.lvSrc := rfl
@[simp] theorem goto_lvMsgid (st : ParserState) : (goto st s).lvMsgid = s.lvMsgid := rfl
@[simp] theorem goto_lvLen (st : ParserState) : (goto st s).lvLen = s.lvLen := rfl
@[simp] theorem goto_lvChkA (st : ParserState) : (goto st s).lvChkA = s.lvChkA := rfl
@[simp] theorem goto_lvChkB (st : ParserState) : (goto st s).lvChkB = s.lvChkB := rfl
@[simp] theorem goto_lvValid (st : ParserState) : (goto st s).lvValid = s.lvValid := rfl
@[simp] theorem goto_halted (st : ParserState) : (goto st s).halted = s.halted := rfl
@[simp] theorem goto_validPackets (st : ParserState) : (goto st s).validPackets = s.validPackets := rfl
@[simp] theorem goto_parseErrors (st : ParserState) : (goto st s).parseErrors = s.parseErrors := rfl
@[simp] theorem goto_overruns (st : ParserState) : (goto st s).overruns = s.overruns := rfl
@[simp] theorem goto_unhandledPackets (st : ParserState) : (goto st s).unhandledPackets = s.unhandledPackets := rfl
@[simp] theorem goto_buf (st : ParserState) : (goto st s).buf = s.buf := rfl
@[simp] theorem goto_draws (st : ParserState) : (goto st s).draws = s.draws := rfl
@[simp] theorem goto_encJob (st : ParserState) : (goto st s).encJob = s.encJob := rfl
@[simp] theorem goto_unitA (st : ParserState) : (goto st s).unitA = s.unitA := rfl
@[simp] theorem goto_unitB (st : ParserState) : (goto st s).unitB = s.unitB := rfl
@[simp] theorem goto_out (st : ParserState) : (goto st s).out = s.out := rfl
@[simp] theorem goto_inputs (st : ParserState) : (goto st s).inputs = s.inputs := rfl

/-! ### a payload store (R123) -/

@[simp] theorem storePayload_params (b : Byte) : (storePayload b s).params = s.params := rfl
@[simp] theorem storePayload_fsm (b : Byte) : (storePayload b s).fsm = s.fsm := rfl
@[simp] theorem storePayload_pendDest (b : Byte) : (storePayload b s).pendDest = s.pendDest := rfl
@[simp] theorem storePayload_pendSrc (b : Byte) : (storePayload b s).pendSrc = s.pendSrc := rfl
@[simp] theorem storePayload_pendMsgid (b : Byte) : (storePayload b s).pendMsgid = s.pendMsgid := rfl
@[simp] theorem storePayload_pendLen (b : Byte) : (storePayload b s).pendLen = s.pendLen := rfl
@[simp] theorem storePayload_pendIndex (b : Byte) : (storePayload b s).pendIndex = s.pendIndex + 1 := rfl
@[simp] theorem storePayload_chkA (b : Byte) : (storePayload b s).chkA = s.chkA := rfl
@[simp] theorem storePayload_chkB (b : Byte) : (storePayload b s).chkB = s.chkB := rfl
@[simp] theorem storePayload_lvDest (b : Byte) : (storePayload b s).lvDest = s.lvDest := rfl
@[simp] theorem storePayload_lvSrc (b : Byte) : (storePayload b s).lvSrc = s.lvSrc := rfl
@[simp] theorem storePayload_lvMsgid (b : Byte) : (storePayload b s).lvMsgid = s.lvMsgid := rfl
@[simp] theorem storePayload_lvLen (b : Byte) : (storePayload b s).lvLen = s.lvLen := rfl
@[simp] theorem storePayload_lvChkA (b : Byte) : (storePayload b s).lvChkA = s.lvChkA := rfl
@[simp] theorem storePayload_lvChkB (b : Byte) : (storePayload b s).lvChkB = s.lvChkB := rfl
@[simp] theorem storePayload_lvValid (b : Byte) : (storePayload b s).lvValid = s.lvValid := rfl
@[simp] theorem storePayload_halted (b : Byte) : (storePayload b s).halted = s.halted := rfl
@[simp] theorem storePayload_validPackets (b : Byte) : (storePayload b s).validPackets = s.validPackets := rfl
@[simp] theorem storePayload_parseErrors (b : Byte) : (storePayload b s).parseErrors = s.parseErrors := rfl
@[simp] theorem storePayload_overruns (b : Byte) : (storePayload b s).overruns = s.overruns := rfl
@[simp] theorem storePayload_unhandledPackets (b : Byte) : (storePayload b s).unhandledPackets = s.unhandledPackets := rfl
@[simp] theorem storePayload_buf (b : Byte) : (storePayload b s).buf = memWrite s.pendIndex.toNat b s.buf := rfl
@[simp] theorem storePayload_draws (b : Byte) : (storePayload b s).draws = s.draws := rfl
@[simp] theorem storePayload_encJob (b : Byte) : (storePayload b s).encJob = s.encJob := rfl
@[simp] theorem storePayload_unitA (b : Byte) : (storePayload b s).unitA = s.unitA := rfl
@[simp] theorem storePayload_unitB (b : Byte) : (storePayload b s).unitB = s.unitB := rfl
@[simp] theorem storePayload_out (b : Byte) : (storePayload b s).out = s.out := rfl
@[simp] theorem storePayload_inputs (b : Byte) : (storePayload b s).inputs = s.inputs := rfl

/-! ### valid_packets + 1 -/

@[simp] theorem countValid_params : (countValid s).params = s.params := rfl
@[simp] theorem countValid_fsm : (countValid s).fsm = s.fsm := rfl
@[simp] theorem countValid_pendDest : (countValid s).pendDest = s.pendDest := rfl
@[simp] theorem countValid_pendSrc : (countValid s).pendSrc = s.pendSrc := rfl
@[simp] theorem countValid_pendMsgid : (countValid s).pendMsgid = s.pendMsgid := rfl
@[simp] theorem countValid_pendLen : (countValid s).pendLen = s.pendLen := rfl
@[simp] theorem countValid_pendIndex : (countValid s).pendIndex = s.pendIndex := rfl
@[simp] theorem countValid_chkA : (countValid s).chkA = s.chkA := rfl
@[simp] theorem countValid_chkB : (countValid s).chkB = s.chkB := rfl
@[simp] theorem countValid_lvDest : (countValid s).lvDest = s.lvDest := rfl
@[simp] theorem countValid_lvSrc : (countValid s).lvSrc = s.lvSrc := rfl
@[simp] theorem countValid_lvMsgid : (countValid s).lvMsgid = s.lvMsgid := rfl
@[simp] theorem countValid_lvLen : (countValid s).lvLen = s.lvLen := rfl
@[simp] theorem countValid_lvChkA : (countValid s).lvChkA = s.lvChkA := rfl
@[simp] theorem countValid_lvChkB : (countValid s).lvChkB = s.lvChkB := rfl
@[simp] theorem countValid_lvValid : (countValid s).lvValid = s.lvValid := rfl
@[simp] theorem countValid_halted : (countValid s).halted = s.halted := rfl
@[simp] theorem countValid_validPackets : (countValid s).validPackets = bump s.validPackets := rfl
@[simp] theorem countValid_parseErrors : (countValid s).parseErrors = s.parseErrors := rfl
@[simp] theorem countValid_overruns : (countValid s).overruns = s.overruns := rfl
@[simp] theorem countValid_unhandledPackets : (countValid s).unhandledPackets = s.unhandledPackets := rfl
@[simp] theorem countValid_buf : (countValid s).buf = s.buf := rfl
@[simp] theorem countValid_draws : (countValid s).draws = s.draws := rfl
@[simp] theorem countValid_encJob : (countValid s).encJob = s.encJob := rfl
@[simp] theorem countValid_unitA : (countValid s).unitA = s.unitA := rfl
@[simp] theorem countValid_unitB : (countValid s).unitB = s.unitB := rfl
@[simp] theorem countValid_out : (countValid s).out = s.out := rfl
@[simp] theorem countValid_inputs : (countValid s).inputs = s.inputs := rfl

/-! ### parse_errors + 1 -/

@[simp] theorem countError_params : (countError s).params = s.params := rfl
@[simp] theorem countError_fsm : (countError s).fsm = s.fsm := rfl
@[simp] theorem countError_pendDest : (countError s).pendDest = s.pendDest := rfl
@[simp] theorem countError_pendSrc : (countError s).pendSrc = s.pendSrc := rfl
@[simp] theorem countError_pendMsgid : (countError s).pendMsgid = s.pendMsgid := rfl
@[simp] theorem countError_pendLen : (countError s).pendLen = s.pendLen := rfl
@[simp] theorem countError_pendIndex : (countError s).pendIndex = s.pendIndex := rfl
@[simp] theorem countError_chkA : (countError s).chkA = s.chkA := rfl
@[simp] theorem countError_chkB : (countError s).chkB = s.chkB := rfl
@[simp] theorem countError_lvDest : (countError s).lvDest = s.lvDest := rfl
@[simp] theorem countError_lvSrc : (countError s).lvSrc = s.lvSrc := rfl
@[simp] theorem countError_lvMsgid : (countError s).lvMsgid = s.lvMsgid := rfl
@[simp] theorem countError_lvLen : (countError s).lvLen = s.lvLen := rfl
@[simp] theorem countError_lvChkA : (countError s).lvChkA = s.lvChkA := rfl
@[simp] theorem countError_lvChkB : (countError s).lvChkB = s.lvChkB := rfl
@[simp] theorem countError_lvValid : (countError s).lvValid = s.lvValid := rfl
@[simp] theorem countError_halted : (countError s).halted = s.halted := rfl
@[simp] theorem countError_validPackets : (countError s).validPackets = s.validPackets := rfl
@[simp] theorem countError_parseErrors : (countError s).parseErrors = bump s.parseErrors := rfl
@[simp] theorem countError_overruns : (countError s).overruns = s.overruns := rfl
@[simp] theorem countError_unhandledPackets : (countError s).unhandledPackets = s.unhandledPackets := rfl
@[simp] theorem countError_buf : (countError s).buf = s.buf := rfl
@[simp] theorem countError_draws : (countError s).draws = s.draws := rfl
@[simp] theorem countError_encJob : (countError s).encJob = s.encJob := rfl
@[simp] theorem countError_unitA : (countError s).unitA = s.unitA := rfl
@[simp] theorem countError_unitB : (countError s).unitB = s.unitB := rfl
@[simp] theorem countError_out : (countError s).out = s.out := rfl
@[simp] theorem countError_inputs : (countError s).inputs = s.inputs := rfl

/-! ### overruns + 1 -/

@[simp] theorem countOverrun_params : (countOverrun s).params = s.params := rfl
@[simp] theorem countOverrun_fsm : (countOverrun s).fsm = s.fsm := rfl
@[simp] theorem countOverrun_pendDest : (countOverrun s).pendDest = s.pendDest := rfl
@[simp] theorem countOverrun_pendSrc : (countOverrun s).pendSrc = s.pendSrc := rfl
@[simp] theorem countOverrun_pendMsgid : (countOverrun s).pendMsgid = s.pendMsgid := rfl
@[simp] theorem countOverrun_pendLen : (countOverrun s).pendLen = s.pendLen := rfl
@[simp] theorem countOverrun_pendIndex : (countOverrun s).pendIndex = s.pendIndex := rfl
@[simp] theorem countOverrun_chkA : (countOverrun s).chkA = s.chkA := rfl
@[simp] theorem countOverrun_chkB : (countOverrun s).chkB = s.chkB := rfl
@[simp] theorem countOverrun_lvDest : (countOverrun s).lvDest = s.lvDest := rfl
@[simp] theorem countOverrun_lvSrc : (countOverrun s).lvSrc = s.lvSrc := rfl
@[simp] theorem countOverrun_lvMsgid : (countOverrun s).lvMsgid = s.lvMsgid := rfl
@[simp] theorem countOverrun_lvLen : (countOverrun s).lvLen = s.lvLen := rfl
@[simp] theorem countOverrun_lvChkA : (countOverrun s).lvChkA = s.lvChkA := rfl
@[simp] theorem countOverrun_lvChkB : (countOverrun s).lvChkB = s.lvChkB := rfl
@[simp] theorem countOverrun_lvValid : (countOverrun s).lvValid = s.lvValid := rfl
@[simp] theorem countOverrun_halted : (countOverrun s).halted = s.halted := rfl
@[simp] theorem countOverrun_validPackets : (countOverrun s).validPackets = s.validPackets := rfl
@[simp] theorem countOverrun_parseErrors : (countOverrun s).parseErrors = s.parseErrors := rfl
@[simp] theorem countOverrun_overruns : (countOverrun s).overruns = bump s.overruns := rfl
@[simp] theorem countOverrun_unhandledPackets : (countOverrun s).unhandledPackets = s.unhandledPackets := rfl
@[simp] theorem countOverrun_buf : (countOverrun s).buf = s.buf := rfl
@[simp] theorem countOverrun_draws : (countOverrun s).draws = s.draws := rfl
@[simp] theorem countOverrun_encJob : (countOverrun s).encJob = s.encJob := rfl
@[simp] theorem countOverrun_unitA : (countOverrun s).unitA = s.unitA := rfl
@[simp] theorem countOverrun_unitB : (countOverrun s).unitB = s.unitB := rfl
@[simp] theorem countOverrun_out : (countOverrun s).out = s.out := rfl
@[simp] theorem countOverrun_inputs : (countOverrun s).inputs = s.inputs := rfl

/-! ### unhandled_packets + 1 -/

@[simp] theorem countUnhandled_params : (countUnhandled s).params = s.params := rfl
@[simp] theorem countUnhandled_fsm : (countUnhandled s).fsm = s.fsm := rfl
@[simp] theorem countUnhandled_pendDest : (countUnhandled s).pendDest = s.pendDest := rfl
@[simp] theorem countUnhandled_pendSrc : (countUnhandled s).pendSrc = s.pendSrc := rfl
@[simp] theorem countUnhandled_pendMsgid : (countUnhandled s).pendMsgid = s.pendMsgid := rfl
@[simp] theorem countUnhandled_pendLen : (countUnhandled s).pendLen = s.pendLen := rfl
@[simp] theorem countUnhandled_pendIndex : (countUnhandled s).pendIndex = s.pendIndex := rfl
@[simp] theorem countUnhandled_chkA : (countUnhandled s).chkA = s.chkA := rfl
@[simp] theorem countUnhandled_chkB : (countUnhandled s).chkB = s.chkB := rfl
@[simp] theorem countUnhandled_lvDest : (countUnhandled s).lvDest = s.lvDest := rfl
@[simp] theorem countUnhandled_lvSrc : (countUnhandled s).lvSrc = s.lvSrc := rfl
@[simp] theorem countUnhandled_lvMsgid : (countUnhandled s).lvMsgid = s.lvMsgid := rfl
@[simp] theorem countUnhandled_lvLen : (countUnhandled s).lvLen = s.lvLen := rfl
@[simp] theorem countUnhandled_lvChkA : (countUnhandled s).lvChkA = s.lvChkA := rfl
@[simp] theorem countUnhandled_lvChkB : (countUnhandled s).lvChkB = s.lvChkB := rfl
@[simp] theorem countUnhandled_lvValid : (countUnhandled s).lvValid = s.lvValid := rfl
@[simp] theorem countUnhandled_halted : (countUnhandled s).halted = s.halted := rfl
@[simp] theorem countUnhandled_validPackets : (countUnhandled s).validPackets = s.validPackets := rfl
@[simp] theorem countUnhandled_parseErrors : (countUnhandled s).parseErrors = s.parseErrors := rfl
@[simp] theorem countUnhandled_overruns : (countUnhandled s).overruns = s.overruns := rfl
@[simp] theorem countUnhandled_unhandledPackets : (countUnhandled s).unhandledPackets = bump s.unhandledPackets := rfl
@[simp] theorem countUnhandled_buf : (countUnhandled s).buf = s.buf := rfl
@[simp] theorem countUnhandled_draws : (countUnhandled s).draws = s.draws := rfl
@[simp] theorem countUnhandled_encJob : (countUnhandled s).encJob = s.encJob := rfl
@[simp] theorem countUnhandled_unitA : (countUnhandled s).unitA = s.unitA := rfl
@[simp] theorem countUnhandled_unitB : (countUnhandled s).unitB = s.unitB := rfl
@[simp] theorem countUnhandled_out : (countUnhandled s).out = s.out := rfl
@[simp] theorem countUnhandled_inputs : (countUnhandled s).inputs = s.inputs := rfl

/-! ### `emit E` -/

@[simp] theorem emit_params (e : Event) : (emit e s).params = s.params := rfl
@[simp] theorem emit_fsm (e : Event) : (emit e s).fsm = s.fsm := rfl
@[simp] theorem emit_pendDest (e : Event) : (emit e s).pendDest = s.pendDest := rfl
@[simp] theorem emit_pendSrc (e : Event) : (emit e s).pendSrc = s.pendSrc := rfl
@[simp] theorem emit_pendMsgid (e : Event) : (emit e s).pendMsgid = s.pendMsgid := rfl
@[simp] theorem emit_pendLen (e : Event) : (emit e s).pendLen = s.pendLen := rfl
@[simp] theorem emit_pendIndex (e : Event) : (emit e s).pendIndex = s.pendIndex := rfl
@[simp] theorem emit_chkA (e : Event) : (emit e s).chkA = s.chkA := rfl
@[simp] theorem emit_chkB (e : Event) : (emit e s).chkB = s.chkB := rfl
@[simp] theorem emit_lvDest (e : Event) : (emit e s).lvDest = s.lvDest := rfl
@[simp] theorem emit_lvSrc (e : Event) : (emit e s).lvSrc = s.lvSrc := rfl
@[simp] theorem emit_lvMsgid (e : Event) : (emit e s).lvMsgid = s.lvMsgid := rfl
@[simp] theorem emit_lvLen (e : Event) : (emit e s).lvLen = s.lvLen := rfl
@[simp] theorem emit_lvChkA (e : Event) : (emit e s).lvChkA = s.lvChkA := rfl
@[simp] theorem emit_lvChkB (e : Event) : (emit e s).lvChkB = s.lvChkB := rfl
@[simp] theorem emit_lvValid (e : Event) : (emit e s).lvValid = s.lvValid := rfl
@[simp] theorem emit_halted (e : Event) : (emit e s).halted = s.halted := rfl
@[simp] theorem emit_validPackets (e : Event) : (emit e s).validPackets = s.validPackets := rfl
@[simp] theorem emit_parseErrors (e : Event) : (emit e s).parseErrors = s.parseErrors := rfl
@[simp] theorem emit_overruns (e : Event) : (emit e s).overruns = s.overruns := rfl
@[simp] theorem emit_unhandledPackets (e : Event) : (emit e s).unhandledPackets = s.unhandledPackets := rfl
@[simp] theorem emit_buf (e : Event) : (emit e s).buf = s.buf := rfl
@[simp] theorem emit_draws (e : Event) : (emit e s).draws = s.draws := rfl
@[simp] theorem emit_encJob (e : Event) : (emit e s).encJob = s.encJob := rfl
@[simp] theorem emit_unitA (e : Event) : (emit e s).unitA = s.unitA := rfl
@[simp] theorem emit_unitB (e : Event) : (emit e s).unitB = s.unitB := rfl
@[simp] theorem emit_out (e : Event) : (emit e s).out = { s.out with evt := e } := rfl
@[simp] theorem emit_inputs (e : Event) : (emit e s).inputs = s.inputs := rfl

/-! ### error recovery (R202) -/

@[simp] theorem recover_params (e : Event) : (recover e s).params = s.params := rfl
@[simp] theorem recover_fsm (e : Event) : (recover e s).fsm = .idle := rfl
@[simp] theorem recover_pendDest (e : Event) : (recover e s).pendDest = s.pendDest := rfl
@[simp] theorem recover_pendSrc (e : Event) : (recover e s).pendSrc = s.pendSrc := rfl
@[simp] theorem recover_pendMsgid (e : Event) : (recover e s).pendMsgid = s.pendMsgid := rfl
@[simp] theorem recover_pendLen (e : Event) : (recover e s).pendLen = s.pendLen := rfl
@[simp] theorem recover_pendIndex (e : Event) : (recover e s).pendIndex = s.pendIndex := rfl
@[simp] theorem recover_chkA (e : Event) : (recover e s).chkA = s.chkA := rfl
@[simp] theorem recover_chkB (e : Event) : (recover e s).chkB = s.chkB := rfl
@[simp] theorem recover_lvDest (e : Event) : (recover e s).lvDest = s.lvDest := rfl
@[simp] theorem recover_lvSrc (e : Event) : (recover e s).lvSrc = s.lvSrc := rfl
@[simp] theorem recover_lvMsgid (e : Event) : (recover e s).lvMsgid = s.lvMsgid := rfl
@[simp] theorem recover_lvLen (e : Event) : (recover e s).lvLen = s.lvLen := rfl
@[simp] theorem recover_lvChkA (e : Event) : (recover e s).lvChkA = s.lvChkA := rfl
@[simp] theorem recover_lvChkB (e : Event) : (recover e s).lvChkB = s.lvChkB := rfl
@[simp] theorem recover_lvValid (e : Event) : (recover e s).lvValid = s.lvValid := rfl
@[simp] theorem recover_halted (e : Event) : (recover e s).halted = s.halted := rfl
@[simp] theorem recover_validPackets (e : Event) : (recover e s).validPackets = s.validPackets := rfl
@[simp] theorem recover_parseErrors (e : Event) : (recover e s).parseErrors = bump s.parseErrors := rfl
@[simp] theorem recover_overruns (e : Event) : (recover e s).overruns = s.overruns := rfl
@[simp] theorem recover_unhandledPackets (e : Event) : (recover e s).unhandledPackets = s.unhandledPackets := rfl
@[simp] theorem recover_buf (e : Event) : (recover e s).buf = s.buf := rfl
@[simp] theorem recover_draws (e : Event) : (recover e s).draws = s.draws := rfl
@[simp] theorem recover_encJob (e : Event) : (recover e s).encJob = s.encJob := rfl
@[simp] theorem recover_unitA (e : Event) : (recover e s).unitA = s.unitA := rfl
@[simp] theorem recover_unitB (e : Event) : (recover e s).unitB = s.unitB := rfl
@[simp] theorem recover_out (e : Event) : (recover e s).out = { s.out with evt := e } := rfl
@[simp] theorem recover_inputs (e : Event) : (recover e s).inputs = s.inputs := rfl

/-! ### the success halt (R127) -/

@[simp] theorem successHalt_params : (successHalt s).params = s.params := rfl
@[simp] theorem successHalt_fsm : (successHalt s).fsm = .idle := rfl
@[simp] theorem successHalt_pendDest : (successHalt s).pendDest = s.pendDest := rfl
@[simp] theorem successHalt_pendSrc : (successHalt s).pendSrc = s.pendSrc := rfl
@[simp] theorem successHalt_pendMsgid : (successHalt s).pendMsgid = s.pendMsgid := rfl
@[simp] theorem successHalt_pendLen : (successHalt s).pendLen = s.pendLen := rfl
@[simp] theorem successHalt_pendIndex : (successHalt s).pendIndex = s.pendIndex := rfl
@[simp] theorem successHalt_chkA : (successHalt s).chkA = s.chkA := rfl
@[simp] theorem successHalt_chkB : (successHalt s).chkB = s.chkB := rfl
@[simp] theorem successHalt_lvDest : (successHalt s).lvDest = s.lvDest := rfl
@[simp] theorem successHalt_lvSrc : (successHalt s).lvSrc = s.lvSrc := rfl
@[simp] theorem successHalt_lvMsgid : (successHalt s).lvMsgid = s.lvMsgid := rfl
@[simp] theorem successHalt_lvLen : (successHalt s).lvLen = s.lvLen := rfl
@[simp] theorem successHalt_lvChkA : (successHalt s).lvChkA = s.lvChkA := rfl
@[simp] theorem successHalt_lvChkB : (successHalt s).lvChkB = s.lvChkB := rfl
@[simp] theorem successHalt_lvValid : (successHalt s).lvValid = s.lvValid := rfl
@[simp] theorem successHalt_halted : (successHalt s).halted = true := rfl
@[simp] theorem successHalt_validPackets : (successHalt s).validPackets = s.validPackets := rfl
@[simp] theorem successHalt_parseErrors : (successHalt s).parseErrors = s.parseErrors := rfl
@[simp] theorem successHalt_overruns : (successHalt s).overruns = s.overruns := rfl
@[simp] theorem successHalt_unhandledPackets : (successHalt s).unhandledPackets = s.unhandledPackets := rfl
@[simp] theorem successHalt_buf : (successHalt s).buf = s.buf := rfl
@[simp] theorem successHalt_draws : (successHalt s).draws = s.draws := rfl
@[simp] theorem successHalt_encJob : (successHalt s).encJob = s.encJob := rfl
@[simp] theorem successHalt_unitA : (successHalt s).unitA = s.unitA := rfl
@[simp] theorem successHalt_unitB : (successHalt s).unitB = s.unitB := rfl
@[simp] theorem successHalt_out : (successHalt s).out = { s.out with evt := .packetValid } := rfl
@[simp] theorem successHalt_inputs : (successHalt s).inputs = s.inputs := rfl

/-! ### RESUME (R155) -/

@[simp] theorem unhalt_params : (unhalt s).params = s.params := rfl
@[simp] theorem unhalt_fsm : (unhalt s).fsm = s.fsm := rfl
@[simp] theorem unhalt_pendDest : (unhalt s).pendDest = s.pendDest := rfl
@[simp] theorem unhalt_pendSrc : (unhalt s).pendSrc = s.pendSrc := rfl
@[simp] theorem unhalt_pendMsgid : (unhalt s).pendMsgid = s.pendMsgid := rfl
@[simp] theorem unhalt_pendLen : (unhalt s).pendLen = s.pendLen := rfl
@[simp] theorem unhalt_pendIndex : (unhalt s).pendIndex = s.pendIndex := rfl
@[simp] theorem unhalt_chkA : (unhalt s).chkA = s.chkA := rfl
@[simp] theorem unhalt_chkB : (unhalt s).chkB = s.chkB := rfl
@[simp] theorem unhalt_lvDest : (unhalt s).lvDest = s.lvDest := rfl
@[simp] theorem unhalt_lvSrc : (unhalt s).lvSrc = s.lvSrc := rfl
@[simp] theorem unhalt_lvMsgid : (unhalt s).lvMsgid = s.lvMsgid := rfl
@[simp] theorem unhalt_lvLen : (unhalt s).lvLen = s.lvLen := rfl
@[simp] theorem unhalt_lvChkA : (unhalt s).lvChkA = s.lvChkA := rfl
@[simp] theorem unhalt_lvChkB : (unhalt s).lvChkB = s.lvChkB := rfl
@[simp] theorem unhalt_lvValid : (unhalt s).lvValid = s.lvValid := rfl
@[simp] theorem unhalt_halted : (unhalt s).halted = false := rfl
@[simp] theorem unhalt_validPackets : (unhalt s).validPackets = s.validPackets := rfl
@[simp] theorem unhalt_parseErrors : (unhalt s).parseErrors = s.parseErrors := rfl
@[simp] theorem unhalt_overruns : (unhalt s).overruns = s.overruns := rfl
@[simp] theorem unhalt_unhandledPackets : (unhalt s).unhandledPackets = s.unhandledPackets := rfl
@[simp] theorem unhalt_buf : (unhalt s).buf = s.buf := rfl
@[simp] theorem unhalt_draws : (unhalt s).draws = s.draws := rfl
@[simp] theorem unhalt_encJob : (unhalt s).encJob = s.encJob := rfl
@[simp] theorem unhalt_unitA : (unhalt s).unitA = s.unitA := rfl
@[simp] theorem unhalt_unitB : (unhalt s).unitB = s.unitB := rfl
@[simp] theorem unhalt_out : (unhalt s).out = s.out := rfl
@[simp] theorem unhalt_inputs : (unhalt s).inputs = s.inputs := rfl

/-! ### `lv_valid <- 1` -/

@[simp] theorem setValid_params : (setValid s).params = s.params := rfl
@[simp] theorem setValid_fsm : (setValid s).fsm = s.fsm := rfl
@[simp] theorem setValid_pendDest : (setValid s).pendDest = s.pendDest := rfl
@[simp] theorem setValid_pendSrc : (setValid s).pendSrc = s.pendSrc := rfl
@[simp] theorem setValid_pendMsgid : (setValid s).pendMsgid = s.pendMsgid := rfl
@[simp] theorem setValid_pendLen : (setValid s).pendLen = s.pendLen := rfl
@[simp] theorem setValid_pendIndex : (setValid s).pendIndex = s.pendIndex := rfl
@[simp] theorem setValid_chkA : (setValid s).chkA = s.chkA := rfl
@[simp] theorem setValid_chkB : (setValid s).chkB = s.chkB := rfl
@[simp] theorem setValid_lvDest : (setValid s).lvDest = s.lvDest := rfl
@[simp] theorem setValid_lvSrc : (setValid s).lvSrc = s.lvSrc := rfl
@[simp] theorem setValid_lvMsgid : (setValid s).lvMsgid = s.lvMsgid := rfl
@[simp] theorem setValid_lvLen : (setValid s).lvLen = s.lvLen := rfl
@[simp] theorem setValid_lvChkA : (setValid s).lvChkA = s.lvChkA := rfl
@[simp] theorem setValid_lvChkB : (setValid s).lvChkB = s.lvChkB := rfl
@[simp] theorem setValid_lvValid : (setValid s).lvValid = true := rfl
@[simp] theorem setValid_halted : (setValid s).halted = s.halted := rfl
@[simp] theorem setValid_validPackets : (setValid s).validPackets = s.validPackets := rfl
@[simp] theorem setValid_parseErrors : (setValid s).parseErrors = s.parseErrors := rfl
@[simp] theorem setValid_overruns : (setValid s).overruns = s.overruns := rfl
@[simp] theorem setValid_unhandledPackets : (setValid s).unhandledPackets = s.unhandledPackets := rfl
@[simp] theorem setValid_buf : (setValid s).buf = s.buf := rfl
@[simp] theorem setValid_draws : (setValid s).draws = s.draws := rfl
@[simp] theorem setValid_encJob : (setValid s).encJob = s.encJob := rfl
@[simp] theorem setValid_unitA : (setValid s).unitA = s.unitA := rfl
@[simp] theorem setValid_unitB : (setValid s).unitB = s.unitB := rfl
@[simp] theorem setValid_out : (setValid s).out = s.out := rfl
@[simp] theorem setValid_inputs : (setValid s).inputs = s.inputs := rfl

/-! ### `lv_valid <- 0` -/

@[simp] theorem clearValid_params : (clearValid s).params = s.params := rfl
@[simp] theorem clearValid_fsm : (clearValid s).fsm = s.fsm := rfl
@[simp] theorem clearValid_pendDest : (clearValid s).pendDest = s.pendDest := rfl
@[simp] theorem clearValid_pendSrc : (clearValid s).pendSrc = s.pendSrc := rfl
@[simp] theorem clearValid_pendMsgid : (clearValid s).pendMsgid = s.pendMsgid := rfl
@[simp] theorem clearValid_pendLen : (clearValid s).pendLen = s.pendLen := rfl
@[simp] theorem clearValid_pendIndex : (clearValid s).pendIndex = s.pendIndex := rfl
@[simp] theorem clearValid_chkA : (clearValid s).chkA = s.chkA := rfl
@[simp] theorem clearValid_chkB : (clearValid s).chkB = s.chkB := rfl
@[simp] theorem clearValid_lvDest : (clearValid s).lvDest = s.lvDest := rfl
@[simp] theorem clearValid_lvSrc : (clearValid s).lvSrc = s.lvSrc := rfl
@[simp] theorem clearValid_lvMsgid : (clearValid s).lvMsgid = s.lvMsgid := rfl
@[simp] theorem clearValid_lvLen : (clearValid s).lvLen = s.lvLen := rfl
@[simp] theorem clearValid_lvChkA : (clearValid s).lvChkA = s.lvChkA := rfl
@[simp] theorem clearValid_lvChkB : (clearValid s).lvChkB = s.lvChkB := rfl
@[simp] theorem clearValid_lvValid : (clearValid s).lvValid = false := rfl
@[simp] theorem clearValid_halted : (clearValid s).halted = s.halted := rfl
@[simp] theorem clearValid_validPackets : (clearValid s).validPackets = s.validPackets := rfl
@[simp] theorem clearValid_parseErrors : (clearValid s).parseErrors = s.parseErrors := rfl
@[simp] theorem clearValid_overruns : (clearValid s).overruns = s.overruns := rfl
@[simp] theorem clearValid_unhandledPackets : (clearValid s).unhandledPackets = s.unhandledPackets := rfl
@[simp] theorem clearValid_buf : (clearValid s).buf = s.buf := rfl
@[simp] theorem clearValid_draws : (clearValid s).draws = s.draws := rfl
@[simp] theorem clearValid_encJob : (clearValid s).encJob = s.encJob := rfl
@[simp] theorem clearValid_unitA : (clearValid s).unitA = s.unitA := rfl
@[simp] theorem clearValid_unitB : (clearValid s).unitB = s.unitB := rfl
@[simp] theorem clearValid_out : (clearValid s).out = s.out := rfl
@[simp] theorem clearValid_inputs : (clearValid s).inputs = s.inputs := rfl

/-! ### the snapshot (R127) -/

@[simp] theorem takeSnapshot_params : (takeSnapshot s).params = s.params := rfl
@[simp] theorem takeSnapshot_fsm : (takeSnapshot s).fsm = s.fsm := rfl
@[simp] theorem takeSnapshot_pendDest : (takeSnapshot s).pendDest = s.pendDest := rfl
@[simp] theorem takeSnapshot_pendSrc : (takeSnapshot s).pendSrc = s.pendSrc := rfl
@[simp] theorem takeSnapshot_pendMsgid : (takeSnapshot s).pendMsgid = s.pendMsgid := rfl
@[simp] theorem takeSnapshot_pendLen : (takeSnapshot s).pendLen = s.pendLen := rfl
@[simp] theorem takeSnapshot_pendIndex : (takeSnapshot s).pendIndex = s.pendIndex := rfl
@[simp] theorem takeSnapshot_chkA : (takeSnapshot s).chkA = s.chkA := rfl
@[simp] theorem takeSnapshot_chkB : (takeSnapshot s).chkB = s.chkB := rfl
@[simp] theorem takeSnapshot_lvDest : (takeSnapshot s).lvDest = s.pendDest := rfl
@[simp] theorem takeSnapshot_lvSrc : (takeSnapshot s).lvSrc = s.pendSrc := rfl
@[simp] theorem takeSnapshot_lvMsgid : (takeSnapshot s).lvMsgid = s.pendMsgid := rfl
@[simp] theorem takeSnapshot_lvLen : (takeSnapshot s).lvLen = s.pendLen := rfl
@[simp] theorem takeSnapshot_lvChkA : (takeSnapshot s).lvChkA = s.chkA := rfl
@[simp] theorem takeSnapshot_lvChkB : (takeSnapshot s).lvChkB = s.chkB := rfl
@[simp] theorem takeSnapshot_lvValid : (takeSnapshot s).lvValid = s.lvValid := rfl
@[simp] theorem takeSnapshot_halted : (takeSnapshot s).halted = s.halted := rfl
@[simp] theorem takeSnapshot_validPackets : (takeSnapshot s).validPackets = s.validPackets := rfl
@[simp] theorem takeSnapshot_parseErrors : (takeSnapshot s).parseErrors = s.parseErrors := rfl
@[simp] theorem takeSnapshot_overruns : (takeSnapshot s).overruns = s.overruns := rfl
@[simp] theorem takeSnapshot_unhandledPackets : (takeSnapshot s).unhandledPackets = s.unhandledPackets := rfl
@[simp] theorem takeSnapshot_buf : (takeSnapshot s).buf = s.buf := rfl
@[simp] theorem takeSnapshot_draws : (takeSnapshot s).draws = s.draws := rfl
@[simp] theorem takeSnapshot_encJob : (takeSnapshot s).encJob = s.encJob := rfl
@[simp] theorem takeSnapshot_unitA : (takeSnapshot s).unitA = s.unitA := rfl
@[simp] theorem takeSnapshot_unitB : (takeSnapshot s).unitB = s.unitB := rfl
@[simp] theorem takeSnapshot_out : (takeSnapshot s).out = s.out := rfl
@[simp] theorem takeSnapshot_inputs : (takeSnapshot s).inputs = s.inputs := rfl

/-! ### the lenHi beat's common part -/

@[simp] theorem takeLenHi_params (b : Byte) : (takeLenHi b s).params = s.params := rfl
@[simp] theorem takeLenHi_fsm (b : Byte) : (takeLenHi b s).fsm = s.fsm := rfl
@[simp] theorem takeLenHi_pendDest (b : Byte) : (takeLenHi b s).pendDest = s.pendDest := rfl
@[simp] theorem takeLenHi_pendSrc (b : Byte) : (takeLenHi b s).pendSrc = s.pendSrc := rfl
@[simp] theorem takeLenHi_pendMsgid (b : Byte) : (takeLenHi b s).pendMsgid = s.pendMsgid := rfl
@[simp] theorem takeLenHi_pendLen (b : Byte) : (takeLenHi b s).pendLen = setHighByte s.pendLen b := rfl
@[simp] theorem takeLenHi_pendIndex (b : Byte) : (takeLenHi b s).pendIndex = s.pendIndex := rfl
@[simp] theorem takeLenHi_chkA (b : Byte) : (takeLenHi b s).chkA = s.chkA + b := rfl
@[simp] theorem takeLenHi_chkB (b : Byte) : (takeLenHi b s).chkB = s.chkB + (s.chkA + b) := rfl
@[simp] theorem takeLenHi_lvDest (b : Byte) : (takeLenHi b s).lvDest = s.lvDest := rfl
@[simp] theorem takeLenHi_lvSrc (b : Byte) : (takeLenHi b s).lvSrc = s.lvSrc := rfl
@[simp] theorem takeLenHi_lvMsgid (b : Byte) : (takeLenHi b s).lvMsgid = s.lvMsgid := rfl
@[simp] theorem takeLenHi_lvLen (b : Byte) : (takeLenHi b s).lvLen = s.lvLen := rfl
@[simp] theorem takeLenHi_lvChkA (b : Byte) : (takeLenHi b s).lvChkA = s.lvChkA := rfl
@[simp] theorem takeLenHi_lvChkB (b : Byte) : (takeLenHi b s).lvChkB = s.lvChkB := rfl
@[simp] theorem takeLenHi_lvValid (b : Byte) : (takeLenHi b s).lvValid = s.lvValid := rfl
@[simp] theorem takeLenHi_halted (b : Byte) : (takeLenHi b s).halted = s.halted := rfl
@[simp] theorem takeLenHi_validPackets (b : Byte) : (takeLenHi b s).validPackets = s.validPackets := rfl
@[simp] theorem takeLenHi_parseErrors (b : Byte) : (takeLenHi b s).parseErrors = s.parseErrors := rfl
@[simp] theorem takeLenHi_overruns (b : Byte) : (takeLenHi b s).overruns = s.overruns := rfl
@[simp] theorem takeLenHi_unhandledPackets (b : Byte) : (takeLenHi b s).unhandledPackets = s.unhandledPackets := rfl
@[simp] theorem takeLenHi_buf (b : Byte) : (takeLenHi b s).buf = s.buf := rfl
@[simp] theorem takeLenHi_draws (b : Byte) : (takeLenHi b s).draws = s.draws := rfl
@[simp] theorem takeLenHi_encJob (b : Byte) : (takeLenHi b s).encJob = s.encJob := rfl
@[simp] theorem takeLenHi_unitA (b : Byte) : (takeLenHi b s).unitA = s.unitA := rfl
@[simp] theorem takeLenHi_unitB (b : Byte) : (takeLenHi b s).unitB = s.unitB := rfl
@[simp] theorem takeLenHi_out (b : Byte) : (takeLenHi b s).out = s.out := rfl
@[simp] theorem takeLenHi_inputs (b : Byte) : (takeLenHi b s).inputs = s.inputs := rfl

/-! ### an EXTRACT's outputs -/

@[simp] theorem showExtract_params (e : ExtStatus) (m : Option Message) : (showExtract e m s).params = s.params := rfl
@[simp] theorem showExtract_fsm (e : ExtStatus) (m : Option Message) : (showExtract e m s).fsm = s.fsm := rfl
@[simp] theorem showExtract_pendDest (e : ExtStatus) (m : Option Message) : (showExtract e m s).pendDest = s.pendDest := rfl
@[simp] theorem showExtract_pendSrc (e : ExtStatus) (m : Option Message) : (showExtract e m s).pendSrc = s.pendSrc := rfl
@[simp] theorem showExtract_pendMsgid (e : ExtStatus) (m : Option Message) : (showExtract e m s).pendMsgid = s.pendMsgid := rfl
@[simp] theorem showExtract_pendLen (e : ExtStatus) (m : Option Message) : (showExtract e m s).pendLen = s.pendLen := rfl
@[simp] theorem showExtract_pendIndex (e : ExtStatus) (m : Option Message) : (showExtract e m s).pendIndex = s.pendIndex := rfl
@[simp] theorem showExtract_chkA (e : ExtStatus) (m : Option Message) : (showExtract e m s).chkA = s.chkA := rfl
@[simp] theorem showExtract_chkB (e : ExtStatus) (m : Option Message) : (showExtract e m s).chkB = s.chkB := rfl
@[simp] theorem showExtract_lvDest (e : ExtStatus) (m : Option Message) : (showExtract e m s).lvDest = s.lvDest := rfl
@[simp] theorem showExtract_lvSrc (e : ExtStatus) (m : Option Message) : (showExtract e m s).lvSrc = s.lvSrc := rfl
@[simp] theorem showExtract_lvMsgid (e : ExtStatus) (m : Option Message) : (showExtract e m s).lvMsgid = s.lvMsgid := rfl
@[simp] theorem showExtract_lvLen (e : ExtStatus) (m : Option Message) : (showExtract e m s).lvLen = s.lvLen := rfl
@[simp] theorem showExtract_lvChkA (e : ExtStatus) (m : Option Message) : (showExtract e m s).lvChkA = s.lvChkA := rfl
@[simp] theorem showExtract_lvChkB (e : ExtStatus) (m : Option Message) : (showExtract e m s).lvChkB = s.lvChkB := rfl
@[simp] theorem showExtract_lvValid (e : ExtStatus) (m : Option Message) : (showExtract e m s).lvValid = s.lvValid := rfl
@[simp] theorem showExtract_halted (e : ExtStatus) (m : Option Message) : (showExtract e m s).halted = s.halted := rfl
@[simp] theorem showExtract_validPackets (e : ExtStatus) (m : Option Message) : (showExtract e m s).validPackets = s.validPackets := rfl
@[simp] theorem showExtract_parseErrors (e : ExtStatus) (m : Option Message) : (showExtract e m s).parseErrors = s.parseErrors := rfl
@[simp] theorem showExtract_overruns (e : ExtStatus) (m : Option Message) : (showExtract e m s).overruns = s.overruns := rfl
@[simp] theorem showExtract_unhandledPackets (e : ExtStatus) (m : Option Message) : (showExtract e m s).unhandledPackets = s.unhandledPackets := rfl
@[simp] theorem showExtract_buf (e : ExtStatus) (m : Option Message) : (showExtract e m s).buf = s.buf := rfl
@[simp] theorem showExtract_draws (e : ExtStatus) (m : Option Message) : (showExtract e m s).draws = s.draws := rfl
@[simp] theorem showExtract_encJob (e : ExtStatus) (m : Option Message) : (showExtract e m s).encJob = s.encJob := rfl
@[simp] theorem showExtract_unitA (e : ExtStatus) (m : Option Message) : (showExtract e m s).unitA = s.unitA := rfl
@[simp] theorem showExtract_unitB (e : ExtStatus) (m : Option Message) : (showExtract e m s).unitB = s.unitB := rfl
@[simp] theorem showExtract_out (e : ExtStatus) (m : Option Message) : (showExtract e m s).out = { s.out with extStatus := e, msg := m } := rfl
@[simp] theorem showExtract_inputs (e : ExtStatus) (m : Option Message) : (showExtract e m s).inputs = s.inputs := rfl

/-! ### a register read -/

@[simp] theorem showReg_params (v : BitVec 32) : (showReg v s).params = s.params := rfl
@[simp] theorem showReg_fsm (v : BitVec 32) : (showReg v s).fsm = s.fsm := rfl
@[simp] theorem showReg_pendDest (v : BitVec 32) : (showReg v s).pendDest = s.pendDest := rfl
@[simp] theorem showReg_pendSrc (v : BitVec 32) : (showReg v s).pendSrc = s.pendSrc := rfl
@[simp] theorem showReg_pendMsgid (v : BitVec 32) : (showReg v s).pendMsgid = s.pendMsgid := rfl
@[simp] theorem showReg_pendLen (v : BitVec 32) : (showReg v s).pendLen = s.pendLen := rfl
@[simp] theorem showReg_pendIndex (v : BitVec 32) : (showReg v s).pendIndex = s.pendIndex := rfl
@[simp] theorem showReg_chkA (v : BitVec 32) : (showReg v s).chkA = s.chkA := rfl
@[simp] theorem showReg_chkB (v : BitVec 32) : (showReg v s).chkB = s.chkB := rfl
@[simp] theorem showReg_lvDest (v : BitVec 32) : (showReg v s).lvDest = s.lvDest := rfl
@[simp] theorem showReg_lvSrc (v : BitVec 32) : (showReg v s).lvSrc = s.lvSrc := rfl
@[simp] theorem showReg_lvMsgid (v : BitVec 32) : (showReg v s).lvMsgid = s.lvMsgid := rfl
@[simp] theorem showReg_lvLen (v : BitVec 32) : (showReg v s).lvLen = s.lvLen := rfl
@[simp] theorem showReg_lvChkA (v : BitVec 32) : (showReg v s).lvChkA = s.lvChkA := rfl
@[simp] theorem showReg_lvChkB (v : BitVec 32) : (showReg v s).lvChkB = s.lvChkB := rfl
@[simp] theorem showReg_lvValid (v : BitVec 32) : (showReg v s).lvValid = s.lvValid := rfl
@[simp] theorem showReg_halted (v : BitVec 32) : (showReg v s).halted = s.halted := rfl
@[simp] theorem showReg_validPackets (v : BitVec 32) : (showReg v s).validPackets = s.validPackets := rfl
@[simp] theorem showReg_parseErrors (v : BitVec 32) : (showReg v s).parseErrors = s.parseErrors := rfl
@[simp] theorem showReg_overruns (v : BitVec 32) : (showReg v s).overruns = s.overruns := rfl
@[simp] theorem showReg_unhandledPackets (v : BitVec 32) : (showReg v s).unhandledPackets = s.unhandledPackets := rfl
@[simp] theorem showReg_buf (v : BitVec 32) : (showReg v s).buf = s.buf := rfl
@[simp] theorem showReg_draws (v : BitVec 32) : (showReg v s).draws = s.draws := rfl
@[simp] theorem showReg_encJob (v : BitVec 32) : (showReg v s).encJob = s.encJob := rfl
@[simp] theorem showReg_unitA (v : BitVec 32) : (showReg v s).unitA = s.unitA := rfl
@[simp] theorem showReg_unitB (v : BitVec 32) : (showReg v s).unitB = s.unitB := rfl
@[simp] theorem showReg_out (v : BitVec 32) : (showReg v s).out = { s.out with regData := some v } := rfl
@[simp] theorem showReg_inputs (v : BitVec 32) : (showReg v s).inputs = s.inputs := rfl

/-! ### a buffer read -/

@[simp] theorem showBuf_params (v : Byte) : (showBuf v s).params = s.params := rfl
@[simp] theorem showBuf_fsm (v : Byte) : (showBuf v s).fsm = s.fsm := rfl
@[simp] theorem showBuf_pendDest (v : Byte) : (showBuf v s).pendDest = s.pendDest := rfl
@[simp] theorem showBuf_pendSrc (v : Byte) : (showBuf v s).pendSrc = s.pendSrc := rfl
@[simp] theorem showBuf_pendMsgid (v : Byte) : (showBuf v s).pendMsgid = s.pendMsgid := rfl
@[simp] theorem showBuf_pendLen (v : Byte) : (showBuf v s).pendLen = s.pendLen := rfl
@[simp] theorem showBuf_pendIndex (v : Byte) : (showBuf v s).pendIndex = s.pendIndex := rfl
@[simp] theorem showBuf_chkA (v : Byte) : (showBuf v s).chkA = s.chkA := rfl
@[simp] theorem showBuf_chkB (v : Byte) : (showBuf v s).chkB = s.chkB := rfl
@[simp] theorem showBuf_lvDest (v : Byte) : (showBuf v s).lvDest = s.lvDest := rfl
@[simp] theorem showBuf_lvSrc (v : Byte) : (showBuf v s).lvSrc = s.lvSrc := rfl
@[simp] theorem showBuf_lvMsgid (v : Byte) : (showBuf v s).lvMsgid = s.lvMsgid := rfl
@[simp] theorem showBuf_lvLen (v : Byte) : (showBuf v s).lvLen = s.lvLen := rfl
@[simp] theorem showBuf_lvChkA (v : Byte) : (showBuf v s).lvChkA = s.lvChkA := rfl
@[simp] theorem showBuf_lvChkB (v : Byte) : (showBuf v s).lvChkB = s.lvChkB := rfl
@[simp] theorem showBuf_lvValid (v : Byte) : (showBuf v s).lvValid = s.lvValid := rfl
@[simp] theorem showBuf_halted (v : Byte) : (showBuf v s).halted = s.halted := rfl
@[simp] theorem showBuf_validPackets (v : Byte) : (showBuf v s).validPackets = s.validPackets := rfl
@[simp] theorem showBuf_parseErrors (v : Byte) : (showBuf v s).parseErrors = s.parseErrors := rfl
@[simp] theorem showBuf_overruns (v : Byte) : (showBuf v s).overruns = s.overruns := rfl
@[simp] theorem showBuf_unhandledPackets (v : Byte) : (showBuf v s).unhandledPackets = s.unhandledPackets := rfl
@[simp] theorem showBuf_buf (v : Byte) : (showBuf v s).buf = s.buf := rfl
@[simp] theorem showBuf_draws (v : Byte) : (showBuf v s).draws = s.draws := rfl
@[simp] theorem showBuf_encJob (v : Byte) : (showBuf v s).encJob = s.encJob := rfl
@[simp] theorem showBuf_unitA (v : Byte) : (showBuf v s).unitA = s.unitA := rfl
@[simp] theorem showBuf_unitB (v : Byte) : (showBuf v s).unitB = s.unitB := rfl
@[simp] theorem showBuf_out (v : Byte) : (showBuf v s).out = { s.out with bufData := some v } := rfl
@[simp] theorem showBuf_inputs (v : Byte) : (showBuf v s).inputs = s.inputs := rfl

/-! ### an ENCODE's outputs -/

@[simp] theorem showFrame_params (f : List Byte) : (showFrame f s).params = s.params := rfl
@[simp] theorem showFrame_fsm (f : List Byte) : (showFrame f s).fsm = s.fsm := rfl
@[simp] theorem showFrame_pendDest (f : List Byte) : (showFrame f s).pendDest = s.pendDest := rfl
@[simp] theorem showFrame_pendSrc (f : List Byte) : (showFrame f s).pendSrc = s.pendSrc := rfl
@[simp] theorem showFrame_pendMsgid (f : List Byte) : (showFrame f s).pendMsgid = s.pendMsgid := rfl
@[simp] theorem showFrame_pendLen (f : List Byte) : (showFrame f s).pendLen = s.pendLen := rfl
@[simp] theorem showFrame_pendIndex (f : List Byte) : (showFrame f s).pendIndex = s.pendIndex := rfl
@[simp] theorem showFrame_chkA (f : List Byte) : (showFrame f s).chkA = s.chkA := rfl
@[simp] theorem showFrame_chkB (f : List Byte) : (showFrame f s).chkB = s.chkB := rfl
@[simp] theorem showFrame_lvDest (f : List Byte) : (showFrame f s).lvDest = s.lvDest := rfl
@[simp] theorem showFrame_lvSrc (f : List Byte) : (showFrame f s).lvSrc = s.lvSrc := rfl
@[simp] theorem showFrame_lvMsgid (f : List Byte) : (showFrame f s).lvMsgid = s.lvMsgid := rfl
@[simp] theorem showFrame_lvLen (f : List Byte) : (showFrame f s).lvLen = s.lvLen := rfl
@[simp] theorem showFrame_lvChkA (f : List Byte) : (showFrame f s).lvChkA = s.lvChkA := rfl
@[simp] theorem showFrame_lvChkB (f : List Byte) : (showFrame f s).lvChkB = s.lvChkB := rfl
@[simp] theorem showFrame_lvValid (f : List Byte) : (showFrame f s).lvValid = s.lvValid := rfl
@[simp] theorem showFrame_halted (f : List Byte) : (showFrame f s).halted = s.halted := rfl
@[simp] theorem showFrame_validPackets (f : List Byte) : (showFrame f s).validPackets = s.validPackets := rfl
@[simp] theorem showFrame_parseErrors (f : List Byte) : (showFrame f s).parseErrors = s.parseErrors := rfl
@[simp] theorem showFrame_overruns (f : List Byte) : (showFrame f s).overruns = s.overruns := rfl
@[simp] theorem showFrame_unhandledPackets (f : List Byte) : (showFrame f s).unhandledPackets = s.unhandledPackets := rfl
@[simp] theorem showFrame_buf (f : List Byte) : (showFrame f s).buf = s.buf := rfl
@[simp] theorem showFrame_draws (f : List Byte) : (showFrame f s).draws = s.draws := rfl
@[simp] theorem showFrame_encJob (f : List Byte) : (showFrame f s).encJob = s.encJob := rfl
@[simp] theorem showFrame_unitA (f : List Byte) : (showFrame f s).unitA = s.unitA := rfl
@[simp] theorem showFrame_unitB (f : List Byte) : (showFrame f s).unitB = s.unitB := rfl
@[simp] theorem showFrame_out (f : List Byte) : (showFrame f s).out = { s.out with frame := some f, count := some (BitVec.ofNat 17 f.length) } := rfl
@[simp] theorem showFrame_inputs (f : List Byte) : (showFrame f s).inputs = s.inputs := rfl

/-! ### the encoder's job -/

@[simp] theorem withJob_params (j : Option EncJob) : (withJob j s).params = s.params := rfl
@[simp] theorem withJob_fsm (j : Option EncJob) : (withJob j s).fsm = s.fsm := rfl
@[simp] theorem withJob_pendDest (j : Option EncJob) : (withJob j s).pendDest = s.pendDest := rfl
@[simp] theorem withJob_pendSrc (j : Option EncJob) : (withJob j s).pendSrc = s.pendSrc := rfl
@[simp] theorem withJob_pendMsgid (j : Option EncJob) : (withJob j s).pendMsgid = s.pendMsgid := rfl
@[simp] theorem withJob_pendLen (j : Option EncJob) : (withJob j s).pendLen = s.pendLen := rfl
@[simp] theorem withJob_pendIndex (j : Option EncJob) : (withJob j s).pendIndex = s.pendIndex := rfl
@[simp] theorem withJob_chkA (j : Option EncJob) : (withJob j s).chkA = s.chkA := rfl
@[simp] theorem withJob_chkB (j : Option EncJob) : (withJob j s).chkB = s.chkB := rfl
@[simp] theorem withJob_lvDest (j : Option EncJob) : (withJob j s).lvDest = s.lvDest := rfl
@[simp] theorem withJob_lvSrc (j : Option EncJob) : (withJob j s).lvSrc = s.lvSrc := rfl
@[simp] theorem withJob_lvMsgid (j : Option EncJob) : (withJob j s).lvMsgid = s.lvMsgid := rfl
@[simp] theorem withJob_lvLen (j : Option EncJob) : (withJob j s).lvLen = s.lvLen := rfl
@[simp] theorem withJob_lvChkA (j : Option EncJob) : (withJob j s).lvChkA = s.lvChkA := rfl
@[simp] theorem withJob_lvChkB (j : Option EncJob) : (withJob j s).lvChkB = s.lvChkB := rfl
@[simp] theorem withJob_lvValid (j : Option EncJob) : (withJob j s).lvValid = s.lvValid := rfl
@[simp] theorem withJob_halted (j : Option EncJob) : (withJob j s).halted = s.halted := rfl
@[simp] theorem withJob_validPackets (j : Option EncJob) : (withJob j s).validPackets = s.validPackets := rfl
@[simp] theorem withJob_parseErrors (j : Option EncJob) : (withJob j s).parseErrors = s.parseErrors := rfl
@[simp] theorem withJob_overruns (j : Option EncJob) : (withJob j s).overruns = s.overruns := rfl
@[simp] theorem withJob_unhandledPackets (j : Option EncJob) : (withJob j s).unhandledPackets = s.unhandledPackets := rfl
@[simp] theorem withJob_buf (j : Option EncJob) : (withJob j s).buf = s.buf := rfl
@[simp] theorem withJob_draws (j : Option EncJob) : (withJob j s).draws = s.draws := rfl
@[simp] theorem withJob_encJob (j : Option EncJob) : (withJob j s).encJob = j := rfl
@[simp] theorem withJob_unitA (j : Option EncJob) : (withJob j s).unitA = s.unitA := rfl
@[simp] theorem withJob_unitB (j : Option EncJob) : (withJob j s).unitB = s.unitB := rfl
@[simp] theorem withJob_out (j : Option EncJob) : (withJob j s).out = s.out := rfl
@[simp] theorem withJob_inputs (j : Option EncJob) : (withJob j s).inputs = s.inputs := rfl

/-! ### a frame byte leaving -/

@[simp] theorem showEncByte_params (b : Option Byte) : (showEncByte b s).params = s.params := rfl
@[simp] theorem showEncByte_fsm (b : Option Byte) : (showEncByte b s).fsm = s.fsm := rfl
@[simp] theorem showEncByte_pendDest (b : Option Byte) : (showEncByte b s).pendDest = s.pendDest := rfl
@[simp] theorem showEncByte_pendSrc (b : Option Byte) : (showEncByte b s).pendSrc = s.pendSrc := rfl
@[simp] theorem showEncByte_pendMsgid (b : Option Byte) : (showEncByte b s).pendMsgid = s.pendMsgid := rfl
@[simp] theorem showEncByte_pendLen (b : Option Byte) : (showEncByte b s).pendLen = s.pendLen := rfl
@[simp] theorem showEncByte_pendIndex (b : Option Byte) : (showEncByte b s).pendIndex = s.pendIndex := rfl
@[simp] theorem showEncByte_chkA (b : Option Byte) : (showEncByte b s).chkA = s.chkA := rfl
@[simp] theorem showEncByte_chkB (b : Option Byte) : (showEncByte b s).chkB = s.chkB := rfl
@[simp] theorem showEncByte_lvDest (b : Option Byte) : (showEncByte b s).lvDest = s.lvDest := rfl
@[simp] theorem showEncByte_lvSrc (b : Option Byte) : (showEncByte b s).lvSrc = s.lvSrc := rfl
@[simp] theorem showEncByte_lvMsgid (b : Option Byte) : (showEncByte b s).lvMsgid = s.lvMsgid := rfl
@[simp] theorem showEncByte_lvLen (b : Option Byte) : (showEncByte b s).lvLen = s.lvLen := rfl
@[simp] theorem showEncByte_lvChkA (b : Option Byte) : (showEncByte b s).lvChkA = s.lvChkA := rfl
@[simp] theorem showEncByte_lvChkB (b : Option Byte) : (showEncByte b s).lvChkB = s.lvChkB := rfl
@[simp] theorem showEncByte_lvValid (b : Option Byte) : (showEncByte b s).lvValid = s.lvValid := rfl
@[simp] theorem showEncByte_halted (b : Option Byte) : (showEncByte b s).halted = s.halted := rfl
@[simp] theorem showEncByte_validPackets (b : Option Byte) : (showEncByte b s).validPackets = s.validPackets := rfl
@[simp] theorem showEncByte_parseErrors (b : Option Byte) : (showEncByte b s).parseErrors = s.parseErrors := rfl
@[simp] theorem showEncByte_overruns (b : Option Byte) : (showEncByte b s).overruns = s.overruns := rfl
@[simp] theorem showEncByte_unhandledPackets (b : Option Byte) : (showEncByte b s).unhandledPackets = s.unhandledPackets := rfl
@[simp] theorem showEncByte_buf (b : Option Byte) : (showEncByte b s).buf = s.buf := rfl
@[simp] theorem showEncByte_draws (b : Option Byte) : (showEncByte b s).draws = s.draws := rfl
@[simp] theorem showEncByte_encJob (b : Option Byte) : (showEncByte b s).encJob = s.encJob := rfl
@[simp] theorem showEncByte_unitA (b : Option Byte) : (showEncByte b s).unitA = s.unitA := rfl
@[simp] theorem showEncByte_unitB (b : Option Byte) : (showEncByte b s).unitB = s.unitB := rfl
@[simp] theorem showEncByte_out (b : Option Byte) : (showEncByte b s).out = { s.out with encByte := b } := rfl
@[simp] theorem showEncByte_inputs (b : Option Byte) : (showEncByte b s).inputs = s.inputs := rfl

/-! ### the start of a step -/

@[simp] theorem opened_params (rest : List Input) : (opened s rest).params = s.params := rfl
@[simp] theorem opened_fsm (rest : List Input) : (opened s rest).fsm = s.fsm := rfl
@[simp] theorem opened_pendDest (rest : List Input) : (opened s rest).pendDest = s.pendDest := rfl
@[simp] theorem opened_pendSrc (rest : List Input) : (opened s rest).pendSrc = s.pendSrc := rfl
@[simp] theorem opened_pendMsgid (rest : List Input) : (opened s rest).pendMsgid = s.pendMsgid := rfl
@[simp] theorem opened_pendLen (rest : List Input) : (opened s rest).pendLen = s.pendLen := rfl
@[simp] theorem opened_pendIndex (rest : List Input) : (opened s rest).pendIndex = s.pendIndex := rfl
@[simp] theorem opened_chkA (rest : List Input) : (opened s rest).chkA = s.chkA := rfl
@[simp] theorem opened_chkB (rest : List Input) : (opened s rest).chkB = s.chkB := rfl
@[simp] theorem opened_lvDest (rest : List Input) : (opened s rest).lvDest = s.lvDest := rfl
@[simp] theorem opened_lvSrc (rest : List Input) : (opened s rest).lvSrc = s.lvSrc := rfl
@[simp] theorem opened_lvMsgid (rest : List Input) : (opened s rest).lvMsgid = s.lvMsgid := rfl
@[simp] theorem opened_lvLen (rest : List Input) : (opened s rest).lvLen = s.lvLen := rfl
@[simp] theorem opened_lvChkA (rest : List Input) : (opened s rest).lvChkA = s.lvChkA := rfl
@[simp] theorem opened_lvChkB (rest : List Input) : (opened s rest).lvChkB = s.lvChkB := rfl
@[simp] theorem opened_lvValid (rest : List Input) : (opened s rest).lvValid = s.lvValid := rfl
@[simp] theorem opened_halted (rest : List Input) : (opened s rest).halted = s.halted := rfl
@[simp] theorem opened_validPackets (rest : List Input) : (opened s rest).validPackets = s.validPackets := rfl
@[simp] theorem opened_parseErrors (rest : List Input) : (opened s rest).parseErrors = s.parseErrors := rfl
@[simp] theorem opened_overruns (rest : List Input) : (opened s rest).overruns = s.overruns := rfl
@[simp] theorem opened_unhandledPackets (rest : List Input) : (opened s rest).unhandledPackets = s.unhandledPackets := rfl
@[simp] theorem opened_buf (rest : List Input) : (opened s rest).buf = s.buf := rfl
@[simp] theorem opened_draws (rest : List Input) : (opened s rest).draws = s.draws := rfl
@[simp] theorem opened_encJob (rest : List Input) : (opened s rest).encJob = s.encJob := rfl
@[simp] theorem opened_unitA (rest : List Input) : (opened s rest).unitA = s.unitA := rfl
@[simp] theorem opened_unitB (rest : List Input) : (opened s rest).unitB = s.unitB := rfl
@[simp] theorem opened_out (rest : List Input) : (opened s rest).out = Outputs.idle := rfl
@[simp] theorem opened_inputs (rest : List Input) : (opened s rest).inputs = rest := rfl

/-! ### an input placed first -/

@[simp] theorem pushInput_params (i : Input) : (pushInput i s).params = s.params := rfl
@[simp] theorem pushInput_fsm (i : Input) : (pushInput i s).fsm = s.fsm := rfl
@[simp] theorem pushInput_pendDest (i : Input) : (pushInput i s).pendDest = s.pendDest := rfl
@[simp] theorem pushInput_pendSrc (i : Input) : (pushInput i s).pendSrc = s.pendSrc := rfl
@[simp] theorem pushInput_pendMsgid (i : Input) : (pushInput i s).pendMsgid = s.pendMsgid := rfl
@[simp] theorem pushInput_pendLen (i : Input) : (pushInput i s).pendLen = s.pendLen := rfl
@[simp] theorem pushInput_pendIndex (i : Input) : (pushInput i s).pendIndex = s.pendIndex := rfl
@[simp] theorem pushInput_chkA (i : Input) : (pushInput i s).chkA = s.chkA := rfl
@[simp] theorem pushInput_chkB (i : Input) : (pushInput i s).chkB = s.chkB := rfl
@[simp] theorem pushInput_lvDest (i : Input) : (pushInput i s).lvDest = s.lvDest := rfl
@[simp] theorem pushInput_lvSrc (i : Input) : (pushInput i s).lvSrc = s.lvSrc := rfl
@[simp] theorem pushInput_lvMsgid (i : Input) : (pushInput i s).lvMsgid = s.lvMsgid := rfl
@[simp] theorem pushInput_lvLen (i : Input) : (pushInput i s).lvLen = s.lvLen := rfl
@[simp] theorem pushInput_lvChkA (i : Input) : (pushInput i s).lvChkA = s.lvChkA := rfl
@[simp] theorem pushInput_lvChkB (i : Input) : (pushInput i s).lvChkB = s.lvChkB := rfl
@[simp] theorem pushInput_lvValid (i : Input) : (pushInput i s).lvValid = s.lvValid := rfl
@[simp] theorem pushInput_halted (i : Input) : (pushInput i s).halted = s.halted := rfl
@[simp] theorem pushInput_validPackets (i : Input) : (pushInput i s).validPackets = s.validPackets := rfl
@[simp] theorem pushInput_parseErrors (i : Input) : (pushInput i s).parseErrors = s.parseErrors := rfl
@[simp] theorem pushInput_overruns (i : Input) : (pushInput i s).overruns = s.overruns := rfl
@[simp] theorem pushInput_unhandledPackets (i : Input) : (pushInput i s).unhandledPackets = s.unhandledPackets := rfl
@[simp] theorem pushInput_buf (i : Input) : (pushInput i s).buf = s.buf := rfl
@[simp] theorem pushInput_draws (i : Input) : (pushInput i s).draws = s.draws := rfl
@[simp] theorem pushInput_encJob (i : Input) : (pushInput i s).encJob = s.encJob := rfl
@[simp] theorem pushInput_unitA (i : Input) : (pushInput i s).unitA = s.unitA := rfl
@[simp] theorem pushInput_unitB (i : Input) : (pushInput i s).unitB = s.unitB := rfl
@[simp] theorem pushInput_out (i : Input) : (pushInput i s).out = s.out := rfl
@[simp] theorem pushInput_inputs (i : Input) : (pushInput i s).inputs = i :: s.inputs := rfl

end Sys2Proof.Machine
end

