-- ==== Sys2Proof/Laws/Checksum.lean ====
section
/-! SUPPORT. The checksum recurrence (R101, R102): one byte more at the end, and the recurrence as numbers. -/

namespace Sys2Proof.Machine

@[simp] theorem chkSeq_nil : chkSeq [] = (0x00#8, 0x00#8) := rfl

/-- One more byte is one more CHK_ACC. -/
@[simp] theorem chkSeq_append_one (l : List Byte) (b : Byte) : chkSeq (l ++ [b]) = chkAcc (chkSeq l) b := by
  simp [chkSeq]

/-- A checksum continues over the rest of the bytes. -/
theorem chkSeq_append (l m : List Byte) : chkSeq (l ++ m) = m.foldl chkAcc (chkSeq l) := by
  simp [chkSeq]

theorem chkAcc_fst_toNat (ab : Byte × Byte) (b : Byte) : (chkAcc ab b).1.toNat = (ab.1.toNat + b.toNat) % 256 := by
  simp [chkAcc, BitVec.toNat_add]

theorem chkAcc_snd_toNat (ab : Byte × Byte) (b : Byte) :
    (chkAcc ab b).2.toNat = (ab.2.toNat + (chkAcc ab b).1.toNat) % 256 := by
  simp [chkAcc, BitVec.toNat_add]

/-- The accumulators of a state after `Acc(b)`, as a pair. -/
theorem accumulate_pair (b : Byte) (s : State) :
    ((accumulate b s).chkA, (accumulate b s).chkB) = chkAcc (s.chkA, s.chkB) b := rfl

/-- `Acc(b)` is the accumulation of R101 on numbers, whatever else a step writes. -/
theorem accumulated_of_eq {b : Byte} {s t : State} (hA : t.chkA = s.chkA + b) (hB : t.chkB = s.chkB + (s.chkA + b)) :
    Safety.Accumulated b s t := by
  simp [Safety.Accumulated, hA, hB, BitVec.toNat_add]

end Sys2Proof.Machine
end

