-- ==== Sys2Proof/Laws/Decode.lean ====
section
/-! SUPPORT. Bit fields as numbers, the parts of a decode key, and what the table of R76 selects in each FSM state. -/

namespace Sys2Proof

/-! ### Bit fields (R7, R72) -/

theorem lowByte_toNat (v : Half) : (lowByte v).toNat = v.toNat % 256 := by
  simp [lowByte, BitVec.extractLsb'_toNat]

theorem highByte_toNat (v : Half) : (highByte v).toNat = v.toNat / 256 := by
  have := v.isLt
  simp only [highByte, BitVec.extractLsb'_toNat, Nat.shiftRight_eq_div_pow]
  omega

theorem joinBytes_toNat (hi lo : Byte) : (joinBytes hi lo).toNat = 256 * hi.toNat + lo.toNat := by
  have := lo.isLt
  simp only [joinBytes, BitVec.toNat_append]
  rw [← Nat.shiftLeft_add_eq_or_of_lt this, Nat.shiftLeft_eq]
  omega

/-- Writing the low byte leaves the high half (D18). -/
theorem setLowByte_toNat (v : Half) (b : Byte) : (setLowByte v b).toNat = 256 * (v.toNat / 256) + b.toNat := by
  rw [setLowByte, joinBytes_toNat, highByte_toNat]

/-- Writing the high byte leaves the low half (D18). -/
theorem setHighByte_toNat (v : Half) (b : Byte) : (setHighByte v b).toNat = 256 * b.toNat + v.toNat % 256 := by
  rw [setHighByte, joinBytes_toNat, lowByte_toNat]

theorem declaredLen_eq (b : Byte) (v : Half) : declaredLen b v = 256 * b.toNat + v.toNat % 256 :=
  setHighByte_toNat v b

@[simp] theorem lowByte_joinBytes (hi lo : Byte) : lowByte (joinBytes hi lo) = lo := by
  apply BitVec.eq_of_toNat_eq
  have := lo.isLt
  rw [lowByte_toNat, joinBytes_toNat]; omega

@[simp] theorem highByte_joinBytes (hi lo : Byte) : highByte (joinBytes hi lo) = hi := by
  apply BitVec.eq_of_toNat_eq
  have := lo.isLt
  rw [highByte_toNat, joinBytes_toNat]; omega

@[simp] theorem joinBytes_parts (v : Half) : joinBytes (highByte v) (lowByte v) = v := by
  apply BitVec.eq_of_toNat_eq
  rw [joinBytes_toNat, lowByte_toNat, highByte_toNat]; omega

@[simp] theorem lowByte_setLowByte (v : Half) (b : Byte) : lowByte (setLowByte v b) = b := by simp [setLowByte]
@[simp] theorem highByte_setLowByte (v : Half) (b : Byte) : highByte (setLowByte v b) = highByte v := by
  simp [setLowByte]
@[simp] theorem lowByte_setHighByte (v : Half) (b : Byte) : lowByte (setHighByte v b) = lowByte v := by
  simp [setHighByte]
@[simp] theorem highByte_setHighByte (v : Half) (b : Byte) : highByte (setHighByte v b) = b := by
  simp [setHighByte]

/-! ### Keys (R74, R76) -/

@[simp] theorem stateOfCode_stateCode (st : ParserState) : stateOfCode (stateCode st) = some st := by
  cases st <;> rfl

@[simp] theorem keyByte_append (c : BitVec 4) (b : Byte) : keyByte (c ++ b) = b := by
  apply BitVec.eq_of_toNat_eq
  have := b.isLt
  simp only [keyByte, BitVec.extractLsb'_toNat, BitVec.toNat_append]
  rw [← Nat.shiftLeft_add_eq_or_of_lt this, Nat.shiftLeft_eq, Nat.shiftRight_zero]
  omega

@[simp] theorem keyState_append (c : BitVec 4) (b : Byte) : keyState (c ++ b) = c := by
  apply BitVec.eq_of_toNat_eq
  have := b.isLt
  have := c.isLt
  simp only [keyState, BitVec.extractLsb'_toNat, BitVec.toNat_append]
  rw [← Nat.shiftLeft_add_eq_or_of_lt ‹b.toNat < 2 ^ 8›, Nat.shiftLeft_eq, Nat.shiftRight_eq_div_pow]
  omega

@[simp] theorem keyByte_decodeKey (st : ParserState) (b : Byte) : keyByte (decodeKey st b) = b := keyByte_append _ b

@[simp] theorem keyState_decodeKey (st : ParserState) (b : Byte) : keyState (decodeKey st b) = stateCode st :=
  keyState_append _ b

/-- A key is its two parts. -/
theorem key_parts (k : BitVec 12) : keyState k ++ keyByte k = k := by
  apply BitVec.eq_of_toNat_eq
  have h1 := k.isLt
  have h2 := (keyByte k).isLt
  simp only [BitVec.toNat_append]
  rw [← Nat.shiftLeft_add_eq_or_of_lt h2, Nat.shiftLeft_eq]
  simp only [keyByte, keyState, BitVec.extractLsb'_toNat, Nat.shiftRight_eq_div_pow]
  omega

/-- Under the mask `0xF00` a key shows its state alone. -/
theorem key_and_state (c : BitVec 4) (b : Byte) : (c ++ b) &&& 0xF00#12 = c ++ 0x00#8 := by
  revert c b; decide +revert

/-- The mask `0xFFF` shows the whole key. -/
theorem key_and_all (k : BitVec 12) : k &&& 0xFFF#12 = k := BitVec.and_allOnes

/-- A key equals a word exactly if both parts do. -/
theorem append_eq_key (c : BitVec 4) (b : Byte) (k : BitVec 12) : c ++ b = k ↔ c = keyState k ∧ b = keyByte k := by
  constructor
  · rintro rfl; simp
  · rintro ⟨rfl, rfl⟩; exact key_parts k

/-- Does a row of R76 select a key? Said on the key's two parts. -/
theorem rowMatches_key (r : RowRegs) (c : BitVec 4) (b : Byte) (pat : BitVec 12) (x : Option Byte) (op : Byte → Instr) :
    rowMatches r (c ++ b) ⟨pat, 0xF00#12, x, op⟩ =
      (decide (c = keyState pat ∧ 0x00#8 = keyByte pat) && (x.isNone || x == some b) && condition (op b) r) := by
  simp only [rowMatches, key_and_state, keyByte_append]
  congr 2
  rw [beq_eq_decide]
  simp only [append_eq_key]

/-- The same for a row whose mask is the whole key. -/
theorem rowMatches_wholeKey (r : RowRegs) (c : BitVec 4) (b : Byte) (pat : BitVec 12) (x : Option Byte)
    (op : Byte → Instr) :
    rowMatches r (c ++ b) ⟨pat, 0xFFF#12, x, op⟩ =
      (decide (c = keyState pat ∧ b = keyByte pat) && (x.isNone || x == some b) && condition (op b) r) := by
  simp only [rowMatches, key_and_all, keyByte_append]
  congr 2
  rw [beq_eq_decide]
  simp only [append_eq_key]

/-! ### What the table selects in each state (R76)

`decodeRow_<state>` says which operation a byte selects. -/

/-- The search of the table, row by row, on the two parts of a key. -/
theorem decodeRow_parts (r : RowRegs) (c : BitVec 4) (b : Byte) :
    decodeRow r (c ++ b) =
      match c.toNat with
      | 0 => if b = 0x76#8 then .op .idleSync0 else .op (.idleSkip b)
      | 1 => if b = 0x63#8 then .op .s0Sync1 else .op (.s0Mismatch b)
      | 2 => .op (.hdrDest b)
      | 3 => .op (.hdrSrc b)
      | 4 => .op (.hdrIdLo b)
      | 5 => .op (.hdrIdHi b)
      | 6 => .op (.hdrLenLo b)
      | 7 => if condition (.lenOver b) r = true then .op (.lenOver b)
             else if b = 0x00#8 ∧ condition .lenZero r = true then .op .lenZero
             else if condition (.lenStart b) r = true then .op (.lenStart b) else .rejected .noRow
      | 8 => if condition (.payByte b) r = true then .op (.payByte b)
             else if condition (.payLast b) r = true then .op (.payLast b) else .rejected .noRow
      | 9 => if b = r.chkA then .op (.chkaOk b) else .op (.chkaBad b)
      | 10 => if b = r.chkB then .op (.chkbOk b) else .op (.chkbBad b)
      | _ => .rejected .noRow := by
  have hc : c = 0#4 ∨ c = 1#4 ∨ c = 2#4 ∨ c = 3#4 ∨ c = 4#4 ∨ c = 5#4 ∨ c = 6#4 ∨ c = 7#4 ∨ c = 8#4 ∨ c = 9#4 ∨
      c = 10#4 ∨ c = 11#4 ∨ c = 12#4 ∨ c = 13#4 ∨ c = 14#4 ∨ c = 15#4 := by
    revert c; decide
  simp only [decodeRow, keyRows, List.cons_append, List.nil_append, List.find?, rowMatches_key, rowMatches_wholeKey,
    keyByte_append]
  generalize hA : condition (.lenOver b) r = cA
  generalize hB : condition (.lenStart b) r = cB
  generalize hC : condition .lenZero r = cC
  generalize hD : condition (.payByte b) r = cD
  generalize hE : condition (.payLast b) r = cE
  rcases hc with rfl | rfl | rfl | rfl | rfl | rfl | rfl | rfl | rfl | rfl | rfl | rfl | rfl | rfl | rfl | rfl
  · by_cases h : b = 0x76#8
    · simp [keyState, keyByte, condition, h]
    · have hn : (b != 0x76#8) = true := by simpa using h
      simp [keyState, keyByte, condition, Config.sync0, h, hn]
  · by_cases h : b = 0x63#8
    · simp [keyState, keyByte, condition, h]
    · have hn : (b != 0x63#8) = true := by simpa using h
      simp [keyState, keyByte, condition, Config.sync1, h, hn]
  iterate 5 simp [keyState, keyByte, condition]
  · by_cases h : b = 0x00#8
    · subst h
      cases cA <;> cases cB <;> cases cC <;> simp [keyState, keyByte]
    · have hn : (0x00#8 == b) = false := by simpa using Ne.symm h
      cases cA <;> cases cB <;> cases cC <;> simp [keyState, keyByte, h, hn]
  · cases cD <;> cases cE <;> simp [keyState, keyByte]
  · by_cases h : b = r.chkA
    · simp [keyState, keyByte, condition, h]
    · have hb : (b == r.chkA) = false := by simpa using h
      have hn : (b != r.chkA) = true := by simpa using h
      simp [keyState, keyByte, condition, h, hb, hn]
  · by_cases h : b = r.chkB
    · simp [keyState, keyByte, condition, h]
    · have hb : (b == r.chkB) = false := by simpa using h
      have hn : (b != r.chkB) = true := by simpa using h
      simp [keyState, keyByte, condition, h, hb, hn]
  all_goals simp [keyState, keyByte]

end Sys2Proof
end

