-- ==== Sys2Proof/Laws/Encoder.lean ====
section
/-! SUPPORT. The encoder's ports (R85): what one edge does to a frame being emitted, and what a run of edges does. -/

namespace Sys2Proof.Machine

open Sys2Proof.Safety

/-- An edge keeps the operands. -/
theorem encAdvance_frame (v : Bool) (d : Byte) (r : Bool) (j : EncJob) :
    (encAdvance v d r j).1 =
      { j with taken := (encAdvance v d r j).1.taken, sent := (encAdvance v d r j).1.sent } := rfl

/-- An edge takes the payload byte offered exactly if one is still wanted. -/
theorem encAdvance_taken (v : Bool) (d : Byte) (r : Bool) (j : EncJob) :
    (encAdvance v d r j).1.taken = if v = true ∧ j.taken.length < j.len.toNat then j.taken ++ [d] else j.taken := by
  simp [encAdvance, encPinReady]

/-- An edge counts the byte that left, if one did. -/
theorem encAdvance_sent (v : Bool) (d : Byte) (r : Bool) (j : EncJob) :
    (encAdvance v d r j).1.sent = j.sent + (encAdvance v d r j).2.toList.length := by
  simp only [encAdvance]
  cases r with
  | false => simp
  | true => cases encOutData j <;> simp

/-- The byte that leaves at an edge. -/
@[simp] theorem encAdvance_ready (v : Bool) (d : Byte) (j : EncJob) : (encAdvance v d true j).2 = encOutData j := rfl
@[simp] theorem encAdvance_notReady (v : Bool) (d : Byte) (j : EncJob) : (encAdvance v d false j).2 = none := rfl

@[simp] theorem framePrefix_length (dest src : Byte) (msgId len : Half) :
    (framePrefix dest src msgId len).length = 8 := rfl

/-- How many bytes can have left: the sync pair and header, the payload taken, and the checksum after all of it. -/
theorem availableBytes_length (j : EncJob) :
    (availableBytes j).length = 8 + j.taken.length + if j.taken.length = j.len.toNat then 2 else 0 := by
  unfold availableBytes
  split <;> simp [frameChecksum, *, Nat.add_assoc]

/-- A byte can leave exactly while fewer have left than are available. -/
theorem encOutData_isSome (j : EncJob) : (encOutData j).isSome = decide (j.sent < (availableBytes j).length) := by
  unfold encOutData
  by_cases h : j.sent < (availableBytes j).length <;> simp [h]

/-- A run of edges continues where the edges before it left the frame. -/
theorem encRun_append (j : EncJob) (ins more : List (Bool × Byte × Bool)) :
    encRun j (ins ++ more) =
      ((encRun (encRun j ins).1 more).1, (encRun j ins).2 ++ (encRun (encRun j ins).1 more).2) := by
  induction ins generalizing j with
  | nil => simp [encRun]
  | cons e rest ih =>
    obtain ⟨v, d, r⟩ := e
    simp [encRun, ih, List.append_assoc]

end Sys2Proof.Machine
end

