-- ==== Sys2Proof/Laws/Memory.lean ====
section
/-! SUPPORT. The payload buffer: a read after a write, and that a write keeps the canonical form (R50, R56). -/

namespace Sys2Proof.Machine

/-- A read at the written index gives the written byte. -/
@[simp] theorem memRead_memWrite_same (a : Nat) (v : Byte) (m : Memory) : memRead a (memWrite a v m) = some v := by
  induction m with
  | nil => simp [memWrite, memRead]
  | cons c m ih =>
    obtain ⟨x, w⟩ := c
    simp only [memWrite]
    split
    · simp [memRead]
    · split
      · simp [memRead]
      · simp [memRead, *]

/-- A write leaves every other index alone. -/
theorem memRead_memWrite_other {a b : Nat} (h : b ≠ a) (v : Byte) (m : Memory) :
    memRead b (memWrite a v m) = memRead b m := by
  induction m with
  | nil => simp [memWrite, memRead, h]
  | cons c m ih =>
    obtain ⟨x, w⟩ := c
    simp only [memWrite]
    split
    · simp [memRead, h]
    · split
      · next hx => subst hx; simp [memRead, h]
      · simp [memRead, ih]

/-- A write anywhere keeps a written index written. -/
theorem memRead_isSome_memWrite {a b : Nat} (v : Byte) {m : Memory} (h : (memRead b m).isSome = true) :
    (memRead b (memWrite a v m)).isSome = true := by
  by_cases hb : b = a
  · simp [hb]
  · rwa [memRead_memWrite_other hb]

theorem memWfAbove_memWrite {a x : Nat} (v : Byte) {m : Memory} (ha : x < a) (hb : a < Config.bufSize)
    (h : memWfAbove x m = true) : memWfAbove x (memWrite a v m) = true := by
  induction m generalizing x with
  | nil => simp [memWrite, memWfAbove, ha, hb]
  | cons c m ih =>
    obtain ⟨y, w⟩ := c
    simp only [memWfAbove, Bool.and_eq_true, decide_eq_true_eq] at h
    simp only [memWrite]
    split
    · simp [memWfAbove, *]
    · split
      · next hy => subst hy; simp [memWfAbove, *]
      · have : y < a := by omega
        simp [memWfAbove, h.1.1, h.1.2, ih this h.2]

/-- A write inside the buffer keeps the canonical form. -/
theorem memWrite_wf {a : Nat} (v : Byte) {m : Memory} (ha : a < Config.bufSize) (h : Memory.wf m = true) :
    Memory.wf (memWrite a v m) = true := by
  cases m with
  | nil => simp [memWrite, Memory.wf, memWfAbove, ha]
  | cons c m =>
    obtain ⟨y, w⟩ := c
    simp only [Memory.wf, Bool.and_eq_true, decide_eq_true_eq] at h
    simp only [memWrite]
    split
    · simp [Memory.wf, memWfAbove, *]
    · split
      · next hy => subst hy; simp [Memory.wf, *]
      · have : y < a := by omega
        simp [Memory.wf, h.1, memWfAbove_memWrite v this ha h.2]

theorem memRead_none_of_wfAbove {a x : Nat} {m : Memory} (h : memWfAbove x m = true) (ha : a ≤ x) :
    memRead a m = none := by
  induction m generalizing x with
  | nil => rfl
  | cons c m ih =>
    obtain ⟨y, w⟩ := c
    simp only [memWfAbove, Bool.and_eq_true, decide_eq_true_eq] at h
    have : a ≠ y := by omega
    simp [memRead, this, ih h.2 (by omega)]

theorem memWfAbove_wf {x : Nat} {m : Memory} (h : memWfAbove x m = true) : Memory.wf m = true := by
  cases m with
  | nil => rfl
  | cons c m =>
    simp only [memWfAbove, Bool.and_eq_true] at h
    simp [Memory.wf, h.1.2, h.2]

/-- Canonical memories that read alike are equal. -/
theorem memory_ext {m n : Memory} (hm : Memory.wf m = true) (hn : Memory.wf n = true)
    (h : ∀ a, memRead a m = memRead a n) : m = n := by
  induction m generalizing n with
  | nil =>
    cases n with
    | nil => rfl
    | cons d n => have := h d.1; simp [memRead] at this
  | cons c m ih =>
    cases n with
    | nil => have := h c.1; simp [memRead] at this
    | cons d n =>
      obtain ⟨x, v⟩ := c
      obtain ⟨y, w⟩ := d
      simp only [Memory.wf, Bool.and_eq_true, decide_eq_true_eq] at hm hn
      have hxy : x = y := by
        by_contra hne
        rcases Nat.lt_or_gt_of_ne hne with hlt | hgt
        · have := h x
          simp [memRead, hne, memRead_none_of_wfAbove hn.2 (Nat.le_of_lt hlt)] at this
        · have := h y
          simp [memRead, Ne.symm hne, memRead_none_of_wfAbove hm.2 (Nat.le_of_lt hgt)] at this
      subst hxy
      have hv : v = w := by have := h x; simpa [memRead] using this
      subst hv
      congr 1
      refine ih (memWfAbove_wf hm.2) (memWfAbove_wf hn.2) fun a => ?_
      by_cases ha : a = x
      · subst ha
        rw [memRead_none_of_wfAbove hm.2 (Nat.le_refl _), memRead_none_of_wfAbove hn.2 (Nat.le_refl _)]
      · have := h a; simpa [memRead, ha] using this

/-- The buffer right after reset is canonical. -/
theorem reset_buf_wf : Memory.wf State.reset.buf = true := rfl

/-- A range read as a list, byte by byte. -/
theorem bufRead_eq_map (s : State) (i n : Nat) :
    bufRead s i n = (List.range n).map (fun k => bufByte s (i + k)) := by
  induction n generalizing i with
  | zero => rfl
  | succ n ih =>
    rw [bufRead, ih, List.range_succ_eq_map]
    simp [Function.comp_def, Nat.add_assoc, Nat.add_comm 1]

@[simp] theorem bufRead_length (s : State) (i n : Nat) : (bufRead s i n).length = n := by
  simp [bufRead_eq_map]

/-- One more byte at the end of a range read. -/
theorem bufRead_succ (s : State) (i n : Nat) : bufRead s i (n + 1) = bufRead s i n ++ [bufByte s (i + n)] := by
  simp [bufRead_eq_map, List.range_succ]

/-- Two states whose buffers read alike on a range read the same list. -/
theorem bufRead_congr {s t : State} {i n : Nat} (h : ∀ k, k < n → bufByte s (i + k) = bufByte t (i + k)) :
    bufRead s i n = bufRead t i n := by
  simp only [bufRead_eq_map]
  exact List.map_congr_left fun k hk => h k (List.mem_range.mp hk)

/-- A payload store writes its byte at `pend_index`. -/
theorem bufByte_storePayload_same (b : Byte) (s : State) : bufByte (storePayload b s) s.pendIndex.toNat = b := by
  simp [bufByte]

/-- A payload store leaves every other index alone. -/
theorem bufByte_storePayload_other (b : Byte) (s : State) {a : Nat} (h : a ≠ s.pendIndex.toNat) :
    bufByte (storePayload b s) a = bufByte s a := by
  simp [bufByte, memRead_memWrite_other h]

/-- A payload store keeps the canonical form: a 10-bit index is inside the buffer. -/
theorem storePayload_wf (b : Byte) {s : State} (h : Memory.wf s.buf = true) :
    Memory.wf (storePayload b s).buf = true :=
  memWrite_wf b (by have := s.pendIndex.isLt; simpa [Config.bufSize] using this) h

/-- What a byte reads as depends on the buffer and the draw alone. -/
theorem bufByte_congr {s t : State} (hb : s.buf = t.buf) (hd : s.draws = t.draws) (i : Nat) :
    bufByte s i = bufByte t i := by
  simp [bufByte, hb, hd]

end Sys2Proof.Machine
end

