-- ==== Sys2Proof/Laws/Ops.lean ====
section
/-! SUPPORT. What the shared operations can do, said once: the byte-step guard, the overrun test, sequencing, counters. -/

namespace Sys2Proof.Machine

/-! ### Sequencing -/

@[simp] theorem andThen_next_left {α β : Type} (a : α) (g : α → Host.Outcome β Fault Refusal) :
    andThen (.next a) g = g a := rfl

@[simp] theorem andThen_fault_left {α β : Type} (f : Fault) (g : α → Host.Outcome β Fault Refusal) :
    andThen (.fault f) g = .fault f := rfl

@[simp] theorem andThen_refused_left {α β : Type} (e : Refusal) (g : α → Host.Outcome β Fault Refusal) :
    andThen (.refused e) g = .refused e := rfl

/-- A sequence that answers goes through a state in between. -/
theorem andThen_next {α β : Type} {r : Host.Outcome α Fault Refusal} {g : α → Host.Outcome β Fault Refusal} {b : β}
    (h : andThen r g = .next b) : ∃ a, r = .next a ∧ g a = .next b := by
  cases r with
  | next a => exact ⟨a, rfl, h⟩
  | fault f => cases h
  | refused e => cases h

theorem andThen_assoc {α β γ : Type} (r : Host.Outcome α Fault Refusal) (g : α → Host.Outcome β Fault Refusal)
    (k : β → Host.Outcome γ Fault Refusal) :
    andThen (andThen r g) k = andThen r fun a => andThen (g a) k := by
  cases r <;> rfl

/-! ### Counters (R33) -/

theorem bump_toNat (c : Count) : (bump c).toNat = (c.toNat + 1) % 2 ^ 32 := by
  simp [bump, BitVec.toNat_add]

/-- A counter never keeps its value when it is incremented. -/
theorem bump_ne (c : Count) : bump c ≠ c := by
  intro h
  have := congrArg BitVec.toNat h
  have := c.isLt
  rw [bump_toNat] at *
  omega

/-! ### The byte-step guard (R110, R76) -/

/-- A byte step that answers was not halted, was in its state with its condition, and answers its writes. -/
theorem byteRow_next {st : ParserState} {i : Instr} {s u t : State} (h : byteRow st i s u = .next t) :
    s.halted = false ∧ s.fsm = st ∧ condition i (rowRegs s) = true ∧ t = u := by
  unfold byteRow at h
  split at h
  · cases h
  · split at h
    · next hh hc =>
      cases h
      exact ⟨by simpa using hh, hc.1, hc.2, rfl⟩
    · cases h

/-- A byte step whose row is selected answers its writes. -/
theorem byteRow_run {st : ParserState} {i : Instr} {s : State} (u : State) (hh : s.halted = false) (hs : s.fsm = st)
    (hc : condition i (rowRegs s) = true) : byteRow st i s u = .next u := by
  simp [byteRow, hh, hs, hc]

/-- While halted, every byte step stands still (R110). -/
theorem byteRow_halted {st : ParserState} {i : Instr} {s : State} (u : State) (hh : s.halted = true) :
    byteRow st i s u = .fault .haltedNoBeat := by
  simp [byteRow, hh]

/-! ### The overrun test (R122) -/

theorem overrunTest_valid {s : State} (h : s.lvValid = true) :
    overrunTest s = emit .overrun (countOverrun (clearValid s)) := by
  simp [overrunTest, h]

theorem overrunTest_invalid {s : State} (h : s.lvValid = false) : overrunTest s = emit .noEvent s := by
  simp [overrunTest, h]

/-- Everything the overrun test can change. -/
theorem overrunTest_frame (s : State) :
    overrunTest s = { s with lvValid := (overrunTest s).lvValid, overruns := (overrunTest s).overruns,
                             out := (overrunTest s).out } := by
  cases h : s.lvValid
  · rw [overrunTest_invalid h]; rfl
  · rw [overrunTest_valid h]; rfl

/-- No snapshot is valid after it. -/
@[simp] theorem overrunTest_lvValid (s : State) : (overrunTest s).lvValid = false := by
  cases h : s.lvValid
  · rw [overrunTest_invalid h]; simpa using h
  · rw [overrunTest_valid h]; rfl

/-! ### Conditions as numbers (R76) -/

theorem condition_lenOver (b : Byte) (r : RowRegs) :
    condition (.lenOver b) r = true ↔ 1024 ≤ 256 * b.toNat + r.pendLen.toNat % 256 := by
  simp [condition, Config.maxLen, declaredLen_eq]

theorem condition_lenStart (b : Byte) (r : RowRegs) :
    condition (.lenStart b) r = true ↔
      1 ≤ 256 * b.toNat + r.pendLen.toNat % 256 ∧ 256 * b.toNat + r.pendLen.toNat % 256 < 1024 := by
  simp [condition, Config.maxLen, declaredLen_eq]

theorem condition_lenZero (r : RowRegs) : condition .lenZero r = true ↔ r.pendLen.toNat % 256 = 0 := by
  simp only [condition, beq_iff_eq]
  rw [← BitVec.toNat_inj, lowByte_toNat]
  rfl

theorem condition_payByte (b : Byte) (r : RowRegs) :
    condition (.payByte b) r = true ↔ r.pendIndex.toNat + 1 < r.pendLen.toNat := by
  simp [condition]

theorem condition_payLast (b : Byte) (r : RowRegs) :
    condition (.payLast b) r = true ↔ r.pendIndex.toNat + 1 = r.pendLen.toNat := by
  simp [condition]

end Sys2Proof.Machine
end

