-- ==== Sys2Proof/Laws/PerInstr.lean ====
section
/-! SUPPORT. Laws per instruction. Family KeyState: the encoding of a byte step is a key that carries the code of its FSM
state (R76), and no other operation is encoded as a key. -/

namespace Sys2Proof.Laws.KeyState

open Sys2Proof Sys2Proof.Safety

/-- If `encode i` is a key, its state bits are the code of the state in which row `i` applies. -/
def Statement (i : Instr) : Prop :=
  ∀ k, encode i = .key k → ∃ st, rowState i = some st ∧ keyState k = stateCode st

theorem idleSync0 : Statement .idleSync0 := by rintro k ⟨⟩; exact ⟨_, rfl, rfl⟩
theorem idleSkip (b : Byte) : Statement (.idleSkip b) := by rintro k ⟨⟩; exact ⟨_, rfl, keyState_append _ b⟩
theorem s0Sync1 : Statement .s0Sync1 := by rintro k ⟨⟩; exact ⟨_, rfl, rfl⟩
theorem s0Mismatch (b : Byte) : Statement (.s0Mismatch b) := by rintro k ⟨⟩; exact ⟨_, rfl, keyState_append _ b⟩
theorem hdrDest (b : Byte) : Statement (.hdrDest b) := by rintro k ⟨⟩; exact ⟨_, rfl, keyState_append _ b⟩
theorem hdrSrc (b : Byte) : Statement (.hdrSrc b) := by rintro k ⟨⟩; exact ⟨_, rfl, keyState_append _ b⟩
theorem hdrIdLo (b : Byte) : Statement (.hdrIdLo b) := by rintro k ⟨⟩; exact ⟨_, rfl, keyState_append _ b⟩
theorem hdrIdHi (b : Byte) : Statement (.hdrIdHi b) := by rintro k ⟨⟩; exact ⟨_, rfl, keyState_append _ b⟩
theorem hdrLenLo (b : Byte) : Statement (.hdrLenLo b) := by rintro k ⟨⟩; exact ⟨_, rfl, keyState_append _ b⟩
theorem lenOver (b : Byte) : Statement (.lenOver b) := by rintro k ⟨⟩; exact ⟨_, rfl, keyState_append _ b⟩
theorem lenZero : Statement .lenZero := by rintro k ⟨⟩; exact ⟨_, rfl, rfl⟩
theorem lenStart (b : Byte) : Statement (.lenStart b) := by rintro k ⟨⟩; exact ⟨_, rfl, keyState_append _ b⟩
theorem payByte (b : Byte) : Statement (.payByte b) := by rintro k ⟨⟩; exact ⟨_, rfl, keyState_append _ b⟩
theorem payLast (b : Byte) : Statement (.payLast b) := by rintro k ⟨⟩; exact ⟨_, rfl, keyState_append _ b⟩
theorem chkaOk (b : Byte) : Statement (.chkaOk b) := by rintro k ⟨⟩; exact ⟨_, rfl, keyState_append _ b⟩
theorem chkaBad (b : Byte) : Statement (.chkaBad b) := by rintro k ⟨⟩; exact ⟨_, rfl, keyState_append _ b⟩
theorem chkbOk (b : Byte) : Statement (.chkbOk b) := by rintro k ⟨⟩; exact ⟨_, rfl, keyState_append _ b⟩
theorem chkbBad (b : Byte) : Statement (.chkbBad b) := by rintro k ⟨⟩; exact ⟨_, rfl, keyState_append _ b⟩
theorem nop : Statement .nop := nofun
theorem resume : Statement .resume := nofun
theorem extract : Statement .extract := nofun
theorem unhandledInc : Statement .unhandledInc := nofun
theorem readReg (a : BitVec 4) : Statement (.readReg a) := nofun
theorem readBuf (i : BufIndex) : Statement (.readBuf i) := nofun
theorem reset : Statement .reset := nofun
theorem encodeMsg (dest src : Byte) (msgId : Half) (payload : List Byte) : Statement (.encodeMsg dest src msgId payload) := nofun
theorem chkHold : Statement .chkHold := nofun
theorem chkClear : Statement .chkClear := nofun
theorem chkAcc (b : Byte) : Statement (.chkAcc b) := nofun

end Sys2Proof.Laws.KeyState
end

