-- ==== Sys2Proof/Laws/Step.lean ====
section
/-! SUPPORT. What a byte step, a clock edge and a step can do, said once. -/

namespace Sys2Proof.Machine

/-- A byte step that answers ran one row of R76, whose state and condition held, through that row's meaning. -/
theorem byteStep_next {b : Byte} {s t : State} (h : byteStep b s = .next t) :
    ∃ i, decodeRow (rowRegs s) (decodeKey s.fsm b) = .op i ∧ exec i s = .next t := by
  simp only [byteStep, runWord, decode] at h
  cases hd : decodeRow (rowRegs s) (decodeKey s.fsm b) with
  | op i => rw [hd] at h; exact ⟨i, rfl, h⟩
  | rejected e => rw [hd] at h; cases h

/-- A byte step runs what its key decodes to. -/
theorem byteStep_of_decode {b : Byte} {s : State} {i : Instr}
    (h : decodeRow (rowRegs s) (decodeKey s.fsm b) = .op i) : byteStep b s = exec i s := by
  simp [byteStep, runWord, decode, h]

/-- Everything a byte step can do: the eighteen rows of R76, each with its state, its condition and its writes. -/
theorem byteStep_cases {b : Byte} {s t : State} (h : byteStep b s = .next t) :
    s.halted = false ∧
    ((s.fsm = .idle ∧ b = 0x76#8 ∧ t = emit .noEvent (goto .sawSync0 s)) ∨
     (s.fsm = .idle ∧ b ≠ 0x76#8 ∧ t = emit .noEvent s) ∨
     (s.fsm = .sawSync0 ∧ b = 0x63#8 ∧ t = emit .noEvent (goto .sawSync1 (clearChk s))) ∨
     (s.fsm = .sawSync0 ∧ b ≠ 0x63#8 ∧ t = recover .errSync s) ∨
     (s.fsm = .sawSync1 ∧ t = emit .noEvent (goto .sawDestAddr (accumulate b { s with pendDest := b }))) ∨
     (s.fsm = .sawDestAddr ∧ t = emit .noEvent (goto .sawSrcAddr (accumulate b { s with pendSrc := b }))) ∨
     (s.fsm = .sawSrcAddr ∧
       t = emit .noEvent (goto .sawMsgIdLo (accumulate b { s with pendMsgid := setLowByte s.pendMsgid b }))) ∨
     (s.fsm = .sawMsgIdLo ∧
       t = emit .noEvent (goto .sawMsgIdHi (accumulate b { s with pendMsgid := setHighByte s.pendMsgid b }))) ∨
     (s.fsm = .sawMsgIdHi ∧
       t = emit .noEvent (goto .sawLenLo (accumulate b { s with pendLen := setLowByte s.pendLen b }))) ∨
     (s.fsm = .sawLenLo ∧ 1024 ≤ 256 * b.toNat + s.pendLen.toNat % 256 ∧ t = recover .errLen (takeLenHi b s)) ∨
     (s.fsm = .sawLenLo ∧ b = 0x00#8 ∧ s.pendLen.toNat % 256 = 0 ∧
       t = emit .noEvent (goto .awaitChecksumA (takeLenHi b s))) ∨
     (s.fsm = .sawLenLo ∧ 1 ≤ 256 * b.toNat + s.pendLen.toNat % 256 ∧ 256 * b.toNat + s.pendLen.toNat % 256 < 1024 ∧
       t = overrunTest (goto .sawLenHi { takeLenHi b s with pendIndex := 0#10 })) ∨
     (s.fsm = .sawLenHi ∧ s.pendIndex.toNat + 1 < s.pendLen.toNat ∧
       t = emit .noEvent (accumulate b (storePayload b s))) ∨
     (s.fsm = .sawLenHi ∧ s.pendIndex.toNat + 1 = s.pendLen.toNat ∧
       t = emit .noEvent (goto .awaitChecksumA (accumulate b (storePayload b s)))) ∨
     (s.fsm = .awaitChecksumA ∧ b = s.chkA ∧ t = emit .noEvent (goto .awaitChecksumB s)) ∨
     (s.fsm = .awaitChecksumA ∧ b ≠ s.chkA ∧ t = recover .errChkA s) ∨
     (s.fsm = .awaitChecksumB ∧ b = s.chkB ∧ t = successHalt (countValid (setValid (takeSnapshot s)))) ∨
     (s.fsm = .awaitChecksumB ∧ b ≠ s.chkB ∧ t = recover .errChkB s)) := by
  obtain ⟨i, hd, he⟩ := byteStep_next h
  rw [decodeKey, decodeRow_parts] at hd
  cases hs : s.fsm <;> simp only [hs, stateCode] at hd <;>
    simp only [BitVec.ofNat_eq_ofNat, BitVec.toNat_ofNat, Nat.reducePow, Nat.reduceMod] at hd
  case idle =>
    split at hd <;> cases hd <;> obtain ⟨hh, -, -, ht⟩ := byteRow_next he <;> simp_all
  case sawSync0 =>
    split at hd <;> cases hd <;> obtain ⟨hh, -, -, ht⟩ := byteRow_next he <;> simp_all
  case sawLenLo =>
    split at hd
    · cases hd; obtain ⟨hh, -, hc, ht⟩ := byteRow_next he
      have := (condition_lenOver b _).mp hc
      simp_all [rowRegs]
    · split at hd
      · next hz =>
        cases hd; obtain ⟨hh, -, hc, ht⟩ := byteRow_next he
        have := (condition_lenZero _).mp hc
        obtain ⟨rfl, -⟩ := hz
        simp_all [rowRegs]
      · split at hd
        · cases hd; obtain ⟨hh, -, hc, ht⟩ := byteRow_next he
          have := (condition_lenStart b _).mp hc
          simp_all [rowRegs]
        · cases hd
  case sawLenHi =>
    split at hd
    · cases hd; obtain ⟨hh, -, hc, ht⟩ := byteRow_next he
      have := (condition_payByte b _).mp hc
      simp_all [rowRegs]
    · split at hd
      · cases hd; obtain ⟨hh, -, hc, ht⟩ := byteRow_next he
        have := (condition_payLast b _).mp hc
        simp_all [rowRegs]
      · cases hd
  case awaitChecksumA =>
    split at hd <;> cases hd <;> obtain ⟨hh, -, -, ht⟩ := byteRow_next he <;> simp_all [rowRegs]
  case awaitChecksumB =>
    split at hd <;> cases hd <;> obtain ⟨hh, -, -, ht⟩ := byteRow_next he <;> simp_all [rowRegs]
  all_goals cases hd; obtain ⟨hh, -, -, ht⟩ := byteRow_next he; simp_all

/-- What a command of an edge does: one of the four commands, a reserved code as NOP (R77, R82(b)). -/
theorem commandEdge_cases (c : BitVec 3) (s : State) :
    commandEdge c s = .next s ∨ (c = 0b001#3 ∧ commandEdge c s = .next (unhalt s)) ∨
      (c = 0b010#3 ∧ commandEdge c s = exec .extract s) ∨ (c = 0b011#3 ∧ commandEdge c s = .next (countUnhandled s)) := by
  have hc : c = 0#3 ∨ c = 1#3 ∨ c = 2#3 ∨ c = 3#3 ∨ c = 4#3 ∨ c = 5#3 ∨ c = 6#3 ∨ c = 7#3 := by
    revert c; decide
  rcases hc with rfl | rfl | rfl | rfl | rfl | rfl | rfl | rfl <;>
    simp [commandEdge, decodeCmd, exec, execNop, execResume, execUnhandledInc]

/-- EXTRACT always answers, and changes `lv_valid` and what is shown alone. -/
theorem execExtract_next (s : State) :
    ∃ t, exec .extract s = .next t ∧ t = { s with lvValid := t.lvValid, out := t.out } := by
  simp only [exec, execExtract]
  split
  · split
    · exact ⟨_, rfl, rfl⟩
    · exact ⟨_, rfl, rfl⟩
  · exact ⟨_, rfl, rfl⟩

/-- The encoder's ports change the encoder's job and the byte shown alone. -/
theorem encoderEdge_frame (p : PortIn) (s : State) :
    encoderEdge p s = { s with encJob := (encoderEdge p s).encJob,
                               out := { s.out with encByte := (encoderEdge p s).out.encByte } } := by
  unfold encoderEdge
  split
  · split <;> rfl
  · rfl

/-- An edge while a frame is being emitted advances it. -/
theorem encoderEdge_busy (p : PortIn) {s : State} {j : EncJob} (hj : s.encJob = some j) (hb : encBusy s = true) :
    encoderEdge p s = showEncByte (encAdvance p.encPinValid p.encPinData p.encOutReady j).2
      (withJob (some (encAdvance p.encPinValid p.encPinData p.encOutReady j).1) s) := by
  simp only [encBusy, hj, decide_eq_true_eq] at hb
  simp [encoderEdge, hj, hb]

/-- Any other edge takes a start, or leaves no frame. -/
theorem encoderEdge_free (p : PortIn) {s : State} (hb : encBusy s = false) :
    encoderEdge p s = showEncByte none (withJob (if p.encStart then some (encStartJob p) else none) s) := by
  unfold encoderEdge
  split
  · next j hj =>
    simp only [encBusy, hj, decide_eq_false_iff_not] at hb
    simp [hb]
  · rfl

/-- What a transaction's edge is for the encoder: only a job that is done goes. -/
theorem encoderIdle_eq (s : State) :
    encoderIdle s = { s with encJob := if encBusy s then s.encJob else none, out := { s.out with encByte := none } } := by
  unfold encoderIdle
  cases hb : encBusy s with
  | false => rw [encoderEdge_free {} hb]; rfl
  | true =>
    cases hj : s.encJob with
    | none => simp [encBusy, hj] at hb
    | some j => rw [encoderEdge_busy {} hj hb]; simp [encAdvance, withJob, showEncByte]

/-- The state in which a transaction's operation runs. -/
theorem encoderIdle_opened (s : State) (rest : List Input) :
    encoderIdle (opened s rest) =
      { s with inputs := rest, out := Outputs.idle, encJob := if encBusy s then s.encJob else none } := by
  rw [encoderIdle_eq]; rfl

/-- The state in which an edge's operations run: the two reads are shown. -/
def afterReads (p : PortIn) (s : State) : State :=
  showBuf (bufByte s p.bufAddr.toNat) (showReg (regWindow s p.regAddr) s)

/-- An edge with `rst`: the reads, then RESET (R230). -/
theorem portEdge_rst {p : PortIn} (h : p.rst = true) (s : State) : portEdge p s = exec .reset (afterReads p s) := by
  simp [portEdge, exec, execReadReg, execReadBuf, h, afterReads, bufByte]

/-- Any other edge: the reads, the command, the beat, the encoder (R160). -/
theorem portEdge_run {p : PortIn} (h : p.rst = false) (s : State) :
    portEdge p s = andThen (commandEdge p.cmd (afterReads p s)) fun u =>
      andThen (beatEdge p (inReady s false) u) fun v => .next (encoderEdge p v) := by
  simp [portEdge, exec, execReadReg, execReadBuf, h, afterReads, bufByte]

/-- Everything a step can do, by the host's next input. -/
theorem step_cases (s : State) :
    (s.inputs = [] ∧ step s = .next (encoderIdle (opened s []))) ∨
    (∃ p rest, s.inputs = .edge p :: rest ∧ step s = portEdge p (opened s rest)) ∨
    (∃ x rest w, s.inputs = x :: rest ∧ fetchWord s x = some w ∧ step s = runWord w (encoderIdle (opened s rest))) := by
  cases hs : s.inputs with
  | nil => exact .inl ⟨rfl, by simp [step, hs, exec, execNop]⟩
  | cons x rest =>
    refine .inr ?_
    cases x with
    | edge p => exact .inl ⟨p, rest, rfl, by simp [step, hs]⟩
    | _ => exact .inr ⟨_, rest, _, rfl, rfl, by simp [step, hs, runInput, fetchWord, encoderIdle_opened]⟩

end Sys2Proof.Machine
end

