-- ==== Sys2Proof/Tests/Slice0.lean ====
section
/-! SUPPORT. Our own tests. Words are written out bit by bit from spec/30_encoding.md (R74, R76, R77, R81, R84, R85);
expected results are those of spec/95_test_vectors.md and of the rules named. Then one witness for each obligation with
hypotheses: a concrete input that meets all of them, at the boundary values of each clause. -/

namespace Sys2Proof.Tests

open Sys2Proof Sys2Proof.Machine Sys2Proof.Safety

/-! ### Helpers -/

/-- A next state with property `p`? -/
def nextIs {α : Type} (r : Host.Outcome α Fault Refusal) (p : α → Bool) : Bool :=
  match r with
  | .next t => p t
  | _ => false

/-- Is this the refusal `e`? -/
def refusedAs {α : Type} (r : Host.Outcome α Fault Refusal) (e : Refusal) : Bool :=
  match r with
  | .refused x => x == e
  | _ => false

/-- Is this the fault `f`? -/
def faultAs {α : Type} (r : Host.Outcome α Fault Refusal) (f : Fault) : Bool :=
  match r with
  | .fault x => x == f
  | _ => false

/-- The spec's Start, in FSM state `st`. -/
def inState (st : ParserState) : State := { State.reset with fsm := st }

/-- The state after one parse call on `bytes`. -/
def feed (bytes : List Byte) (s : State) : State :=
  match parseCall s bytes with
  | .next r => r.st
  | _ => s

/-- The state after the step of one input. -/
def after (i : Input) (s : State) : State :=
  match step { s with inputs := [i] } with
  | .next t => t
  | _ => s

/-- Frames F1, F2 and F4 of spec/95_test_vectors.md. -/
def f1 : List Byte := [0x76#8, 0x63#8, 0x01#8, 0x00#8, 0x01#8, 0x00#8, 0x00#8, 0x00#8, 0x02#8, 0x0A#8]
def f2 : List Byte :=
  [0x76#8, 0x63#8, 0x00#8, 0x01#8, 0x34#8, 0x12#8, 0x02#8, 0x00#8, 0xAA#8, 0xBB#8, 0xAE#8, 0xB0#8]
def f4 : List Byte :=
  [0x76#8, 0x63#8, 0x07#8, 0x08#8, 0x09#8, 0x00#8, 0x02#8, 0x00#8, 0x01#8, 0x02#8, 0x1D#8, 0xB2#8]

/-! ### Decoding: each constructor's word, state code and byte written as bits (R74, R76) -/

theorem test_decode_sync :
    decode ⟨0, 0, 0, 0⟩ (.key 0b000001110110#12) = .op .idleSync0 ∧
    decode ⟨0, 0, 0, 0⟩ (.key 0b000001100011#12) = .op (.idleSkip 0x63#8) ∧
    decode ⟨0, 0, 0, 0⟩ (.key 0b000101100011#12) = .op .s0Sync1 ∧
    decode ⟨0, 0, 0, 0⟩ (.key 0b000101110110#12) = .op (.s0Mismatch 0x76#8) := by decide

theorem test_decode_header :
    decode ⟨0, 0, 0, 0⟩ (.key 0b001000000001#12) = .op (.hdrDest 0x01#8) ∧
    decode ⟨0, 0, 0, 0⟩ (.key 0b001111111111#12) = .op (.hdrSrc 0xFF#8) ∧
    decode ⟨0, 0, 0, 0⟩ (.key 0b010000110100#12) = .op (.hdrIdLo 0x34#8) ∧
    decode ⟨0, 0, 0, 0⟩ (.key 0b010100010010#12) = .op (.hdrIdHi 0x12#8) ∧
    decode ⟨0, 0, 0, 0⟩ (.key 0b011010000000#12) = .op (.hdrLenLo 0x80#8) := by decide

theorem test_decode_length :
    decode ⟨0x0000#16, 0, 0, 0⟩ (.key 0b011100000100#12) = .op (.lenOver 0x04#8) ∧
    decode ⟨0xAB00#16, 0, 0, 0⟩ (.key 0b011100000000#12) = .op .lenZero ∧
    decode ⟨0x0001#16, 0, 0, 0⟩ (.key 0b011100000000#12) = .op (.lenStart 0x00#8) ∧
    decode ⟨0x00FF#16, 0, 0, 0⟩ (.key 0b011100000011#12) = .op (.lenStart 0x03#8) := by decide

theorem test_decode_payload :
    decode ⟨3#16, 0#10, 0, 0⟩ (.key 0b100001110110#12) = .op (.payByte 0x76#8) ∧
    decode ⟨3#16, 2#10, 0, 0⟩ (.key 0b100000110000#12) = .op (.payLast 0x30#8) := by decide

theorem test_decode_checksum_bytes :
    decode ⟨0, 0, 0x02#8, 0x0A#8⟩ (.key 0b100100000010#12) = .op (.chkaOk 0x02#8) ∧
    decode ⟨0, 0, 0x02#8, 0x0A#8⟩ (.key 0b100100000011#12) = .op (.chkaBad 0x03#8) ∧
    decode ⟨0, 0, 0x02#8, 0x0A#8⟩ (.key 0b101000001010#12) = .op (.chkbOk 0x0A#8) ∧
    decode ⟨0, 0, 0x02#8, 0x0A#8⟩ (.key 0b101000001011#12) = .op (.chkbBad 0x0B#8) := by decide

theorem test_decode_commands :
    decode ⟨0, 0, 0, 0⟩ (.cmd 0b000#3) = .op .nop ∧ decode ⟨0, 0, 0, 0⟩ (.cmd 0b001#3) = .op .resume ∧
    decode ⟨0, 0, 0, 0⟩ (.cmd 0b010#3) = .op .extract ∧
    decode ⟨0, 0, 0, 0⟩ (.cmd 0b011#3) = .op .unhandledInc := by decide

theorem test_decode_ports :
    decode ⟨0, 0, 0, 0⟩ (.regAddr 0b1101#4) = .op (.readReg 0xD#4) ∧
    decode ⟨0, 0, 0, 0⟩ (.bufAddr 0b1111111111#10) = .op (.readBuf 1023#10) ∧
    decode ⟨0, 0, 0, 0⟩ (.rst 0b1#1) = .op .reset ∧
    decode ⟨0, 0, 0, 0⟩ (.enc 0b1#1 0x01#8 0x00#8 0x0001#16 []) = .op (.encodeMsg 0x01#8 0x00#8 0x0001#16 []) := by
  decide

theorem test_decode_checksum_unit :
    decode ⟨0, 0, 0, 0⟩ (.chk 0b00#2 0x00#8) = .op .chkHold ∧
    decode ⟨0, 0, 0, 0⟩ (.chk 0b01#2 0x00#8) = .op .chkClear ∧
    decode ⟨0, 0, 0, 0⟩ (.chk 0b10#2 0xFF#8) = .op (.chkAcc 0xFF#8) := by decide

/-- Reserved codes, and requests that ask for nothing, are rejected by name (R82). -/
theorem test_decode_rejects :
    decode ⟨0, 0, 0, 0⟩ (.key 0xB00#12) = .rejected .noRow ∧ decode ⟨0, 0, 0, 0⟩ (.key 0xFFF#12) = .rejected .noRow ∧
    decode ⟨0, 0, 0, 0⟩ (.cmd 0b100#3) = .rejected .reservedCommand ∧
    decode ⟨0, 0, 0, 0⟩ (.cmd 0b111#3) = .rejected .reservedCommand ∧
    decode ⟨0, 0, 0, 0⟩ (.chk 0b11#2 0x00#8) = .rejected .reservedMicroOp ∧
    decode ⟨0, 0, 0, 0⟩ (.rst 0#1) = .rejected .resetNotAsserted ∧
    decode ⟨0, 0, 0, 0⟩ (.enc 0#1 0 0 0 []) = .rejected .encodeNotStarted := by decide

/-! ### Well-formedness: each check refuses an ill-formed term -/

theorem test_wf_refuses_sync0_as_skip : Instr.wf (.idleSkip 0x76#8) = false := by decide
theorem test_wf_refuses_sync1_as_mismatch : Instr.wf (.s0Mismatch 0x63#8) = false := by decide
theorem test_wf_refuses_short_lenOver : Instr.wf (.lenOver 0x03#8) = false := by decide
theorem test_wf_refuses_long_lenStart : Instr.wf (.lenStart 0x04#8) = false := by decide
theorem test_wf_refuses_long_payload : Instr.wf (.encodeMsg 0 0 0 (List.replicate 65536 0x00#8)) = false := by
  simp only [Instr.wf, List.length_replicate]; decide

/-! ### Table words and the step (log 10) -/

theorem test_tableWord_rows :
    decodeTableWord 16 0x076 = some .idleSync0 ∧ decodeTableWord 16 0x163 = some .s0Sync1 ∧
    decodeTableWord 16 0x200 = some (.hdrDest 0x00#8) ∧ decodeTableWord 16 0x704 = some (.lenOver 0x04#8) ∧
    decodeTableWord 16 0x800 = some (.payByte 0x00#8) ∧ decodeTableWord 16 0xA00 = some (.chkbOk 0x00#8) ∧
    decodeTableWord 16 0xB00 = none ∧ decodeTableWord 8 0b010 = some .extract ∧ decodeTableWord 8 0b100 = none := by
  decide

theorem test_tableWord_steps :
    nextIs (step (State.reset.withFetchWord 16 0xA00)) (fun t => t.halted && t.validPackets == 1) = true ∧
    nextIs (step (State.reset.withFetchWord 16 0x8AB)) (fun t => t.buf == [(0, 0xAB#8)]) = true ∧
    nextIs (step (State.reset.withFetchWord 8 0b011)) (fun t => t.unhandledPackets == 1) = true := by decide

/-! ### One step each (spec/95_test_vectors.md sections 2.1, 2.2, 2.5, 2.6) -/

theorem test_chkClear : nextIs (exec .chkClear { State.reset with unitA := 0x37#8, unitB := 0xC1#8 })
    (fun t => t.unitA == 0x00#8 && t.unitB == 0x00#8) = true := by decide

theorem test_chkHold : nextIs (exec .chkHold { State.reset with unitA := 0x02#8, unitB := 0x0A#8 })
    (fun t => t.unitA == 0x02#8 && t.unitB == 0x0A#8) = true := by decide

theorem test_chkAcc_A_wraps : nextIs (exec (.chkAcc 0x01#8) { State.reset with unitA := 0xFF#8, unitB := 0xFF#8 })
    (fun t => t.unitA == 0x00#8 && t.unitB == 0xFF#8) = true := by decide

theorem test_chkAcc_both_wrap : nextIs (exec (.chkAcc 0xFF#8) { State.reset with unitA := 0xFF#8, unitB := 0x80#8 })
    (fun t => t.unitA == 0xFE#8 && t.unitB == 0x7E#8) = true := by decide

theorem test_chkSeq : chkSeq [0x01#8, 0x02#8, 0x03#8, 0x04#8] = (0x0A#8, 0x14#8) ∧
    chkSeq [0x01#8, 0x00#8, 0x01#8, 0x00#8, 0x00#8, 0x00#8] = (0x02#8, 0x0A#8) := by decide

theorem test_idleSync0 : nextIs (exec .idleSync0 (inState .idle)) (fun t => t.fsm == .sawSync0) = true := by decide

theorem test_idleSkip : nextIs (exec (.idleSkip 0x63#8) (inState .idle))
    (fun t => t.fsm == .idle && t.parseErrors == 0) = true := by decide

theorem test_s0Sync1 : nextIs (exec .s0Sync1 { inState .sawSync0 with chkA := 0x02#8, chkB := 0x0A#8 })
    (fun t => t.fsm == .sawSync1 && t.chkA == 0x00#8 && t.chkB == 0x00#8) = true := by decide

theorem test_s0Mismatch : nextIs (exec (.s0Mismatch 0x76#8) (inState .sawSync0))
    (fun t => t.fsm == .idle && t.parseErrors == 1 && t.out.evt == .errSync) = true := by decide

theorem test_hdrDest : nextIs (exec (.hdrDest 0xFF#8) (inState .sawSync1))
    (fun t => t.fsm == .sawDestAddr && t.pendDest == 0xFF#8 && t.chkA == 0xFF#8 && t.chkB == 0xFF#8) = true := by
  decide

theorem test_hdrSrc : nextIs (exec (.hdrSrc 0x00#8) { inState .sawDestAddr with chkA := 0x01#8, chkB := 0x01#8 })
    (fun t => t.fsm == .sawSrcAddr && t.chkA == 0x01#8 && t.chkB == 0x02#8) = true := by decide

theorem test_hdrIdLo : nextIs (exec (.hdrIdLo 0x34#8) { inState .sawSrcAddr with pendMsgid := 0xAB00#16 })
    (fun t => t.fsm == .sawMsgIdLo && t.pendMsgid == 0xAB34#16) = true := by decide

theorem test_hdrIdHi : nextIs (exec (.hdrIdHi 0x12#8) { inState .sawMsgIdLo with pendMsgid := 0xAB34#16 })
    (fun t => t.fsm == .sawMsgIdHi && t.pendMsgid == 0x1234#16) = true := by decide

theorem test_hdrLenLo : nextIs (exec (.hdrLenLo 0xFF#8) { inState .sawMsgIdHi with pendLen := 0x0400#16 })
    (fun t => t.fsm == .sawLenLo && t.pendLen == 0x04FF#16) = true := by decide

theorem test_lenOver : nextIs (exec (.lenOver 0x04#8) { inState .sawLenLo with lvValid := true })
    (fun t => t.fsm == .idle && t.pendLen == 0x0400#16 && t.parseErrors == 1 && t.lvValid && t.overruns == 0) = true := by
  decide

theorem test_lenZero : nextIs (exec .lenZero { inState .sawLenLo with lvValid := true, pendIndex := 3#10 })
    (fun t => t.fsm == .awaitChecksumA && t.lvValid && t.overruns == 0 && t.pendIndex == 3#10) = true := by decide

theorem test_lenStart_overrun : nextIs (exec (.lenStart 0x00#8)
      { inState .sawLenLo with pendLen := 0x0003#16, lvValid := true, pendIndex := 7#10 })
    (fun t => t.fsm == .sawLenHi && t.pendIndex == 0#10 && !t.lvValid && t.overruns == 1 && t.out.evt == .overrun)
      = true := by decide

theorem test_lenStart_max : nextIs (exec (.lenStart 0x03#8) { inState .sawLenLo with pendLen := 0x00FF#16 })
    (fun t => t.fsm == .sawLenHi && t.pendLen == 1023#16 && t.out.evt == .noEvent) = true := by decide

theorem test_payByte : nextIs (exec (.payByte 0x76#8) { inState .sawLenHi with pendLen := 3#16 })
    (fun t => t.fsm == .sawLenHi && t.buf == [(0, 0x76#8)] && t.pendIndex == 1#10) = true := by decide

theorem test_payLast : nextIs (exec (.payLast 0x30#8)
      { inState .sawLenHi with pendLen := 3#16, pendIndex := 2#10, buf := [(0, 0x10#8), (1, 0x20#8)] })
    (fun t => t.fsm == .awaitChecksumA && t.buf == [(0, 0x10#8), (1, 0x20#8), (2, 0x30#8)] && t.pendIndex == 3#10)
      = true := by decide

theorem test_chkaOk : nextIs (exec (.chkaOk 0x02#8) { inState .awaitChecksumA with chkA := 0x02#8 })
    (fun t => t.fsm == .awaitChecksumB && t.chkA == 0x02#8) = true := by decide

theorem test_chkaBad : nextIs (exec (.chkaBad 0x76#8) { inState .awaitChecksumA with chkA := 0x02#8 })
    (fun t => t.fsm == .idle && t.parseErrors == 1 && t.out.evt == .errChkA) = true := by decide

theorem test_chkbOk : nextIs (exec (.chkbOk 0x0A#8) { inState .awaitChecksumB with
      pendDest := 0x01#8, pendMsgid := 0x0001#16, chkA := 0x02#8, chkB := 0x0A#8 })
    (fun t => t.lvDest == 0x01#8 && t.lvMsgid == 0x0001#16 && t.lvChkA == 0x02#8 && t.lvChkB == 0x0A#8 && t.lvValid &&
      t.halted && t.validPackets == 1 && pktFound t) = true := by decide

theorem test_chkbBad : nextIs (exec (.chkbBad 0x0B#8) { inState .awaitChecksumB with chkB := 0x0A#8 })
    (fun t => t.fsm == .idle && t.parseErrors == 1 && t.out.evt == .errChkB) = true := by decide

theorem test_nop : nextIs (exec .nop (inState .sawLenLo)) (· == inState .sawLenLo) = true := by decide

theorem test_resume : nextIs (exec .resume { State.reset with halted := true }) (· == State.reset) = true := by decide

/-- MSG_CAP = 2 after F4: the boundary `lv_len = MSG_CAP` passes. -/
theorem test_extract_ok : nextIs (exec .extract { feed f4 State.reset with params := ⟨2, false⟩ })
    (fun t => t.out.extStatus == .ok && !t.lvValid && t.halted &&
      t.out.msg == some ⟨0x07#8, 0x08#8, 0x0009#16, 2#16, [0x01#8, 0x02#8]⟩) = true := by decide

/-- MSG_CAP = 1 after F4, legacy and surfaced. -/
theorem test_extract_ceiling :
    nextIs (exec .extract { feed f4 State.reset with params := ⟨1, false⟩ })
      (fun t => t.out.extStatus == .noPacket && t.lvValid) = true ∧
    nextIs (exec .extract { feed f4 State.reset with params := ⟨1, true⟩ })
      (fun t => t.out.extStatus == .ceiling && t.lvValid && t.out.msg == none) = true := by decide

theorem test_unhandledInc_wraps : nextIs (exec .unhandledInc { State.reset with unhandledPackets := 0xFFFFFFFF#32 })
    (fun t => t.unhandledPackets == 0) = true := by decide

/-- READ STATUS and READ LV_CHK after F1. -/
theorem test_readReg :
    nextIs (exec (.readReg 0x0#4) (feed f1 State.reset)) (fun t => t.out.regData == some 0x00000030#32) = true ∧
    nextIs (exec (.readReg 0x4#4) (feed f1 State.reset)) (fun t => t.out.regData == some 0x00000A02#32) = true := by
  decide

theorem test_readBuf : nextIs (exec (.readBuf 1#10) (feed f2 State.reset)) (fun t => t.out.bufData == some 0xBB#8) = true := by
  decide

/-- Section 2.6: a RESET in the middle of a frame. -/
theorem test_reset : nextIs (exec .reset (feed (f2.take 9) { State.reset with parseErrors := 5 }))
    (fun t => t.fsm == .idle && t.parseErrors == 0 && regWindow t 0x0#4 == 0 && t.buf == []) = true := by decide

/-- Section 2.3: F2, and sync values in the payload not escaped. -/
theorem test_encode :
    nextIs (exec (.encodeMsg 0x00#8 0x01#8 0x1234#16 [0xAA#8, 0xBB#8]) State.reset)
      (fun t => t.out.frame == some f2 && t.out.count == some 12#17) = true ∧
    nextIs (exec (.encodeMsg 0x00#8 0x00#8 0x0000#16 [0x76#8, 0x63#8]) State.reset)
      (fun t => t.out.frame == some [0x76#8, 0x63#8, 0x00#8, 0x00#8, 0x00#8, 0x00#8, 0x02#8, 0x00#8, 0x76#8, 0x63#8,
        0xDB#8, 0x57#8]) = true := by decide

/-- Section 2.5, R160: EXTRACT and a payload-start beat at one edge; status 1, no overrun. -/
theorem test_edge_extract_and_beat :
    nextIs (portEdge { inValid := true, inData := 0x00#8, cmd := 0b010#3, regAddr := 0x3#4, bufAddr := 0#10 }
      { feed f2 State.reset with halted := false, fsm := .sawLenLo, pendLen := 0x0003#16 })
      (fun t => t.out.extStatus == .ok && t.out.evt == .noEvent && t.fsm == .sawLenHi && !t.lvValid &&
        t.overruns == 0) = true := by decide

/-- R75, R85, R176: a start while busy is not taken, and the edge's command, beat and frame byte happen. -/
theorem test_edge_start_while_busy :
    nextIs (portEdge { inValid := true, inData := 0x76#8, cmd := 0b011#3, encStart := true, encOutReady := true }
      { State.reset with encJob := some ⟨0x01#8, 0x00#8, 0x0001#16, 0#16, [], 2⟩ })
      (fun t => t.fsm == .sawSync0 && t.unhandledPackets == 1 && t.out.encByte == some 0x01#8 &&
        t.encJob == some ⟨0x01#8, 0x00#8, 0x0001#16, 0#16, [], 3⟩) = true := by decide

/-- R85: `enc_done` lasts one edge, and a step with no input is one (log 20). -/
theorem test_encDone_falls :
    encDone { State.reset with encJob := some ⟨0, 0, 0, 0#16, [], 10⟩ } = true ∧
    encCount { State.reset with encJob := some ⟨0, 0, 0, 0#16, [], 10⟩ } = some 10#17 ∧
    nextIs (step { State.reset with encJob := some ⟨0, 0, 0, 0#16, [], 10⟩ }) (fun t => !encDone t && t.encJob == none)
      = true := by decide

/-! ### Witnesses -/

theorem witness_OneChangedByteChangesSumA : ∃ d : Byte, d ≠ 0 := ⟨0xFF#8, by decide⟩

theorem witness_SyncRows :
    (State.reset.halted = false ∧ State.reset.fsm = .idle ∧ (0x77#8 : Byte) ≠ 0x76#8) ∧
    ((inState .sawSync0).halted = false ∧ (inState .sawSync0).fsm = .sawSync0) := by decide

theorem witness_SyncMismatchRow :
    ((inState .sawSync0).halted = false ∧ (inState .sawSync0).fsm = .sawSync0 ∧ (0x76#8 : Byte) ≠ 0x63#8) ∧
    (State.reset.halted = false ∧ State.reset.fsm = .idle) := by decide

theorem witness_HeaderAddressRows :
    ((inState .sawSync1).halted = false ∧ (inState .sawSync1).fsm = .sawSync1) ∧
    ((inState .sawDestAddr).halted = false ∧ (inState .sawDestAddr).fsm = .sawDestAddr) := by decide

theorem witness_HeaderMessageIdRows :
    ((inState .sawSrcAddr).halted = false ∧ (inState .sawSrcAddr).fsm = .sawSrcAddr) ∧
    ((inState .sawMsgIdLo).halted = false ∧ (inState .sawMsgIdLo).fsm = .sawMsgIdLo) := by decide

theorem witness_HeaderLengthLowRow : (inState .sawMsgIdHi).halted = false ∧ (inState .sawMsgIdHi).fsm = .sawMsgIdHi := by
  decide

/-- The least over-length: 1024. -/
theorem witness_OverLengthRow : ∃ (s : State) (b : Byte), s.halted = false ∧ s.fsm = .sawLenLo ∧
    256 * b.toNat + s.pendLen.toNat % 256 = 1024 := ⟨inState .sawLenLo, 0x04#8, by decide⟩

theorem witness_ZeroLengthRow : ∃ s : State, s.halted = false ∧ s.fsm = .sawLenLo ∧ s.pendLen.toNat % 256 = 0 :=
  ⟨inState .sawLenLo, by decide⟩

/-- The least and the greatest accepted length, with and without a valid snapshot. -/
theorem witness_PayloadStartRow :
    (∃ (s : State) (b : Byte), s.halted = false ∧ s.fsm = .sawLenLo ∧ s.lvValid = true ∧
      256 * b.toNat + s.pendLen.toNat % 256 = 1) ∧
    (∃ (s : State) (b : Byte), s.halted = false ∧ s.fsm = .sawLenLo ∧ s.lvValid = false ∧
      256 * b.toNat + s.pendLen.toNat % 256 = 1023) :=
  ⟨⟨{ inState .sawLenLo with pendLen := 1#16, lvValid := true }, 0x00#8, by decide⟩,
   ⟨{ inState .sawLenLo with pendLen := 0x00FF#16 }, 0x03#8, by decide⟩⟩

theorem witness_PayloadRows :
    (∃ s : State, s.halted = false ∧ s.fsm = .sawLenHi ∧ s.pendLen.toNat ≤ 1023 ∧
      s.pendIndex.toNat + 1 < s.pendLen.toNat) ∧
    (∃ s : State, s.halted = false ∧ s.fsm = .sawLenHi ∧ s.pendIndex.toNat + 1 = s.pendLen.toNat ∧
      s.pendLen.toNat = 1023) :=
  ⟨⟨{ inState .sawLenHi with pendLen := 2#16 }, by decide⟩,
   ⟨{ inState .sawLenHi with pendLen := 1023#16, pendIndex := 1022#10 }, by decide⟩⟩

theorem witness_ChecksumARows : ∃ s : State, s.halted = false ∧ s.fsm = .awaitChecksumA ∧ 0x02#8 = s.chkA ∧ 0x76#8 ≠ s.chkA :=
  ⟨{ inState .awaitChecksumA with chkA := 0x02#8 }, by decide⟩

theorem witness_PromotionRow : ∃ s : State, s.halted = false ∧ s.fsm = .awaitChecksumB ∧ 0x0A#8 = s.chkB :=
  ⟨{ inState .awaitChecksumB with chkB := 0x0A#8 }, by decide⟩

theorem witness_ChecksumBMismatchRow : ∃ s : State, s.halted = false ∧ s.fsm = .awaitChecksumB ∧ 0x0B#8 ≠ s.chkB :=
  ⟨{ inState .awaitChecksumB with chkB := 0x0A#8 }, by decide⟩

/-- Nothing pending; one over the ceiling; exactly the ceiling. -/
theorem witness_ExtractCases :
    (∃ s : State, s.lvValid = false) ∧
    (∃ s : State, s.lvValid = true ∧ s.lvLen.toNat = s.params.msgCap.val + 1) ∧
    (∃ s : State, s.lvValid = true ∧ s.lvLen.toNat = s.params.msgCap.val) :=
  ⟨⟨State.reset, rfl⟩, ⟨{ State.reset with lvValid := true, lvLen := 256#16 }, by decide⟩,
   ⟨{ State.reset with lvValid := true, lvLen := 255#16 }, by decide⟩⟩

theorem witness_ReadsIdempotentExtractNot :
    (∃ t, exec (.readReg 0x5#4) State.reset = .next t) ∧ (∃ t, exec (.readBuf 0#10) State.reset = .next t) ∧
    (∃ t, exec .extract (feed f1 State.reset) = .next t ∧ t.out.extStatus = .ok) :=
  ⟨⟨_, rfl⟩, ⟨_, rfl⟩, ⟨_, rfl, rfl⟩⟩

theorem witness_RegisterWindowRead : ∀ n : Fin 16, (BitVec.ofFin n : BitVec 4).toNat = n.val := by decide

theorem witness_BufferRead :
    memRead 1 (feed f2 State.reset).buf = some 0xBB#8 ∧ memRead 1023 (feed f2 State.reset).buf = none := by decide

theorem witness_EncodeFrameAndCount :
    (∃ p : List Byte, p.length = 0) ∧ (∃ p : List Byte, p.length = 65535) :=
  ⟨⟨[], rfl⟩, ⟨List.replicate 65535 0x00#8, List.length_replicate⟩⟩

theorem witness_EncodeRefusesOversizedPayload : ∃ p : List Byte, p.length = 65536 :=
  ⟨List.replicate 65536 0x00#8, List.length_replicate⟩

theorem witness_EncodeIndependentOfParser :
    ((∀ d r m p, Instr.extract ≠ .encodeMsg d r m p) ∧ ([] : List Byte).length ≤ 65535) ∧
    (∃ t t', exec (.encodeMsg 0x01#8 0x00#8 0x0001#16 []) State.reset = .next t ∧
      exec (.encodeMsg 0x01#8 0x00#8 0x0001#16 []) (feed f1 State.reset) = .next t') :=
  ⟨⟨nofun, by decide⟩, ⟨_, _, rfl, rfl⟩⟩

/-- A whole frame with one payload byte: the byte is taken first, a second one offered is not, then eleven bytes leave. -/
theorem witness_EncoderStreamEmitsFrame :
    (∃ (ins : List (Bool × Byte × Bool)) (j : EncJob) (gone : List Byte),
      encRun ⟨0x01#8, 0x00#8, 0x0005#16, 1#16, [], 0⟩ ins = (j, gone) ∧ j.sent = 11 ∧ j.taken = [0x42#8] ∧
      gone = [0x76#8, 0x63#8, 0x01#8, 0x00#8, 0x05#8, 0x00#8, 0x01#8, 0x00#8, 0x42#8, 0x49#8, 0x65#8]) ∧
    (∃ payload : List Byte, payload.length = (0xFFFF#16 : Half).toNat) :=
  ⟨⟨(true, 0x42#8, false) :: (true, 0x43#8, false) :: List.replicate 11 (false, 0x00#8, true), _, _, rfl, by decide⟩,
   ⟨List.replicate 65535 0x00#8, List.length_replicate⟩⟩

/-- Each clause: `rst`; an encoder that is free, done, or busy; a busy one that can give a header byte, waits for payload,
or is at its checksum; beside it a beat whose byte step answers. -/
theorem witness_EncoderPortsAtEdge :
    ({ rst := true } : PortIn).rst = true ∧ ({ inValid := true, inData := 0x76#8 } : PortIn).rst = false ∧
    nextIs (byteStep 0x76#8 State.reset) (fun _ => true) = true ∧
    encBusy State.reset = false ∧ encBusy { State.reset with encJob := some ⟨0, 0, 0, 0#16, [], 10⟩ } = false ∧
    (encBusy { State.reset with encJob := some ⟨0, 0, 0, 1#16, [], 3⟩ } = true ∧ 3 < 8 + ([] : List Byte).length) ∧
    (encBusy { State.reset with encJob := some ⟨0, 0, 0, 1#16, [], 8⟩ } = true ∧
      8 + ([] : List Byte).length ≤ 8 ∧ ([] : List Byte).length < (1#16 : Half).toNat) ∧
    (encBusy { State.reset with encJob := some ⟨0, 0, 0, 1#16, [0x42#8], 10⟩ } = true ∧
      [0x42#8].length = (1#16 : Half).toNat) := by decide

theorem witness_ResetOperation : ({ rst := true, cmd := 0b010#3, inValid := true } : PortIn).rst = true := by decide

theorem witness_ExactlyOneRowMatches : ∃ r : RowRegs, r.pendIndex.toNat < r.pendLen.toNat :=
  ⟨⟨1023#16, 1022#10, 0, 0⟩, by decide⟩

theorem witness_DecodeOfEncode :
    (Instr.lenStart 0x03#8).wf = true ∧ condition (.lenStart 0x03#8) ⟨0x00FF#16, 0, 0, 0⟩ = true ∧
    (Instr.chkbOk 0x0A#8).wf = true ∧ condition (.chkbOk 0x0A#8) ⟨0, 0, 0, 0x0A#8⟩ = true ∧
    (Instr.encodeMsg 0 0 0 []).wf = true ∧ condition (.encodeMsg 0 0 0 []) ⟨0, 0, 0, 0⟩ = true := by decide

theorem witness_EncodeOfDecode :
    (∀ o b, OpWord.key 0x7FF#12 = .chk o b → o = 0b10#2 ∨ b = 0x00#8) ∧
    decode ⟨0, 0, 0, 0⟩ (.key 0x7FF#12) = .op (.lenOver 0xFF#8) :=
  ⟨nofun, by decide⟩

theorem witness_StepRunsDecodedOperation :
    State.reset.inputs = [] ∧
    (∃ s w i, s.inputs = [.byte 0x76#8] ∧ fetchWord s (.byte 0x76#8) = some w ∧ decode (rowRegs s) w = .op i) ∧
    (∃ s w e, s.inputs = [.command 0b111#3] ∧ fetchWord s (.command 0b111#3) = some w ∧
      decode (rowRegs s) w = .rejected e) ∧
    (∃ (s : State) (p : PortIn), s.inputs = [.edge p]) :=
  ⟨rfl, ⟨{ State.reset with inputs := [.byte 0x76#8] }, _, .idleSync0, rfl, rfl, by decide⟩,
   ⟨{ State.reset with inputs := [.command 0b111#3] }, _, .reservedCommand, rfl, rfl, by decide⟩,
   ⟨{ State.reset with inputs := [.edge {}] }, {}, rfl⟩⟩

theorem witness_PlacedTableWordRuns : decodeTableWord 16 0x8FF = some (.payLast 0xFF#8) := by decide

/-- A halted parser, and a port edge with a byte offered. -/
theorem witness_HaltedTakesNoByte :
    (feed f1 State.reset).halted = true ∧
    (∃ t, portEdge { inValid := true, inData := 0x76#8, cmd := 0b010#3 } (feed f1 State.reset) = .next t) :=
  ⟨by decide, ⟨_, rfl⟩⟩

theorem witness_ByteStepNeedsItsRow : rowState (.payLast 0x30#8) = some .sawLenHi ∧
    (feed f1 State.reset).halted = true ∧
    decode (rowRegs (feed f1 State.reset)) (.key (decodeKey (feed f1 State.reset).fsm 0x76#8)) = .op .idleSync0 := by
  decide

theorem witness_ReservedCodes :
    4 ≤ (0b100#3 : BitVec 3).toNat ∧ 4 ≤ (0b111#3 : BitVec 3).toNat ∧
    (∃ s : State, s.inputs = [.command 0b100#3]) ∧ (∃ s : State, s.inputs = [.command 0b111#3]) :=
  ⟨by decide, by decide, ⟨{ State.reset with inputs := [.command 0b100#3] }, rfl⟩,
   ⟨{ State.reset with inputs := [.command 0b111#3] }, rfl⟩⟩

/-- Clause 1, with a byte taken and without one; then one edge and state for EXTRACT at the edge of a payload start, for
RESUME with a byte offered, and for UNHANDLED_INC beside a beat that answers. -/
theorem witness_CommandBeforeBeat :
    (∃ u, decodeCmd 0b011#3 = .op .unhandledInc ∧ exec .unhandledInc { State.reset with out := { State.reset.out with
        regData := some (regWindow State.reset 0x5#4), bufData := some (bufByte State.reset 0) } } = .next u) ∧
    (∃ (p : PortIn) (s : State), p.rst = false ∧ p.cmd = 0b010#3 ∧ p.inValid = true ∧ s.halted = false ∧
      s.fsm = .sawLenLo ∧ s.lvValid = true ∧ s.lvLen.toNat ≤ s.params.msgCap.val ∧
      256 * p.inData.toNat + s.pendLen.toNat % 256 = 1023) ∧
    (∃ (p : PortIn) (s : State), p.rst = false ∧ p.cmd = 0b001#3 ∧ p.inValid = true ∧ s.halted = true) ∧
    (∃ (p : PortIn) (s : State), p.rst = false ∧ p.cmd = 0b011#3 ∧ p.inValid = true ∧ s.halted = false ∧
      ∃ v, byteStep p.inData s = .next v) :=
  ⟨⟨_, by decide, rfl⟩,
   ⟨{ inValid := true, inData := 0x03#8, cmd := 0b010#3 },
    { State.reset with fsm := .sawLenLo, lvValid := true, pendLen := 0x00FF#16 }, by decide⟩,
   ⟨{ inValid := true, inData := 0x76#8, cmd := 0b001#3 }, feed f1 State.reset, by decide⟩,
   ⟨{ inValid := true, inData := 0x76#8, cmd := 0b011#3 }, State.reset, rfl, rfl, rfl, rfl, _, rfl⟩⟩

/-- A state in the middle of F2's payload, with both sums running. -/
def midPayload : State := feed (f2.take 9) State.reset

/-- The next packet's header after F1 was validated and not extracted. -/
def secondHeader : State := feed (f2.take 4) (feed f1 State.reset)

theorem witness_Legal_midPayload : Legal midPayload where
  bufCanonical := by decide
  copyBounds := by decide
  acceptedLen := by decide
  snapshotLen := by decide
  haltedIdle := by decide
  captureInvalidates := by decide
  capturedWritten := by decide
  snapshotWritten := by decide
  encoderBounds := nofun

theorem witness_Legal_secondHeader : Legal secondHeader where
  bufCanonical := by decide
  copyBounds := by decide
  acceptedLen := by decide
  snapshotLen := by decide
  haltedIdle := by decide
  captureInvalidates := by decide
  capturedWritten := by decide
  snapshotWritten := by decide
  encoderBounds := nofun

theorem witness_SumsAgree : SumsAgree secondHeader ∧ midFrame secondHeader = true ∧ secondHeader.lvValid = true :=
  ⟨⟨by decide, by decide⟩, by decide, by decide⟩

/-- StepKeepsLegal and StepKeepsParameters: a legal state with a byte to take, which steps. -/
theorem witness_StepKeepsLegal : Legal { midPayload with inputs := [.byte 0xBB#8] } ∧
    ∃ t, step { midPayload with inputs := [.byte 0xBB#8] } = .next t :=
  ⟨⟨by decide, by decide, by decide, by decide, by decide, by decide, by decide, by decide, nofun⟩, ⟨_, rfl⟩⟩

theorem witness_StepKeepsSumsAgree : Legal { midPayload with inputs := [.byte 0xBB#8] } ∧
    SumsAgree { midPayload with inputs := [.byte 0xBB#8] } ∧
    ∃ t, step { midPayload with inputs := [.byte 0xBB#8] } = .next t :=
  ⟨⟨by decide, by decide, by decide, by decide, by decide, by decide, by decide, by decide, nofun⟩,
   ⟨by decide, by decide⟩, ⟨_, rfl⟩⟩

/-- Both sides: a byte while not halted, and a byte while halted. -/
theorem witness_LegalStepAnswersNext :
    Legal { midPayload with inputs := [.byte 0xBB#8] } ∧ hostObeys { midPayload with inputs := [.byte 0xBB#8] } = true ∧
    hostObeys { feed f1 State.reset with inputs := [.byte 0xBB#8] } = false :=
  ⟨⟨by decide, by decide, by decide, by decide, by decide, by decide, by decide, by decide, nofun⟩, by decide, by decide⟩

theorem witness_StepKeepsParameters : ∃ t, step { State.reset with inputs := [.reset] } = .next t := ⟨_, rfl⟩

/-- The flag set by a promotion; cleared by LEN_START, by EXTRACT and by RESET. -/
theorem witness_ValidFlagTransitions :
    (nextIs (exec (.chkbOk 0x00#8) (inState .awaitChecksumB)) (fun t => t.lvValid) = true ∧
      (inState .awaitChecksumB).lvValid = false) ∧
    (nextIs (exec (.lenStart 0x01#8) { inState .sawLenLo with lvValid := true }) (fun t => !t.lvValid) = true) ∧
    (nextIs (exec .extract (feed f1 State.reset)) (fun t => !t.lvValid) = true ∧
      nextIs (exec .reset (feed f1 State.reset)) (fun t => !t.lvValid) = true ∧
      (feed f1 State.reset).lvValid = true) := by decide

theorem witness_CountersChangeOnlyByTheirRules :
    nextIs (exec (.chkbOk 0x00#8) (inState .awaitChecksumB)) (fun t => t.validPackets != 0) = true ∧
    nextIs (exec (.s0Mismatch 0x00#8) (inState .sawSync0)) (fun t => t.parseErrors != 0) = true ∧
    nextIs (exec (.lenStart 0x01#8) { inState .sawLenLo with lvValid := true }) (fun t => t.overruns != 0) = true ∧
    nextIs (exec .unhandledInc State.reset) (fun t => t.unhandledPackets != 0) = true := by decide

theorem witness_EventNamesTheCounter :
    nextIs (byteStep 0x00#8 (inState .awaitChecksumB)) (fun t => t.out.evt == .packetValid) = true ∧
    nextIs (byteStep 0x00#8 (inState .idle)) (fun t => t.out.evt == .noEvent) = true := by decide

theorem witness_ErrorRecovery :
    nextIs (byteStep 0x00#8 (inState .sawSync0)) (fun t => t.out.evt == .errSync) = true ∧
    nextIs (byteStep 0x04#8 (inState .sawLenLo)) (fun t => t.out.evt == .errLen) = true ∧
    nextIs (byteStep 0x01#8 (inState .awaitChecksumA)) (fun t => t.out.evt == .errChkA) = true ∧
    nextIs (byteStep 0x01#8 (inState .awaitChecksumB)) (fun t => t.out.evt == .errChkB) = true ∧
    nextIs (byteStep 0x01#8 { inState .sawLenLo with lvValid := true }) (fun t => t.out.evt == .overrun) = true := by
  decide

/-- A snapshot that stays valid over a step that takes a byte of the next header. -/
theorem witness_ValidSnapshotIsStable : Legal { secondHeader with inputs := [.byte 0x34#8] } ∧
    nextIs (step { secondHeader with inputs := [.byte 0x34#8] })
      (fun t => t.lvValid && t.validPackets == secondHeader.validPackets) = true ∧ secondHeader.lvValid = true :=
  ⟨⟨by decide, by decide, by decide, by decide, by decide, by decide, by decide, by decide, nofun⟩, by decide, by decide⟩

theorem witness_EncoderPortsDoNotTouchParser :
    ∃ t u, portEdge { inValid := true, inData := 0x76#8, encStart := true, encLen := 1#16 } State.reset = .next t ∧
      portEdge { inValid := true, inData := 0x76#8, encOutReady := true }
        { State.reset with encJob := some ⟨0, 0, 0, 1#16, [], 3⟩ } = .next u :=
  ⟨_, _, rfl, rfl⟩

/-- Both outcomes of a parse call. -/
theorem witness_ParseCallContract :
    nextIs (parseCall State.reset f1) (fun r => r.found && r.consumed == 10) = true ∧
    nextIs (parseCall State.reset (f1.take 9)) (fun r => !r.found && r.consumed == 9) = true := by decide

theorem witness_GarbageIsSkipped :
    (feed f1 State.reset).fsm = .idle ∧ ∀ b ∈ ([0x00#8, 0xFF#8, 0x63#8] : List Byte), b ≠ 0x76#8 := by decide

/-- Payload lengths 0 and 1023, from a state with a valid snapshot and from one without. -/
theorem witness_RoundTrip :
    State.reset.fsm = .idle ∧ (feed f1 State.reset).fsm = .idle ∧ (feed f1 State.reset).lvValid = true ∧
    (∃ p : List Byte, p.length = 0) ∧ (∃ p : List Byte, p.length = 1023) ∧
    (255 : Nat) = State.reset.params.msgCap.val :=
  ⟨by decide, by decide, by decide, ⟨[], rfl⟩, ⟨List.replicate 1023 0x00#8, List.length_replicate⟩, by decide⟩

theorem witness_OversizedFrameRejected :
    State.reset.fsm = .idle ∧ State.reset.halted = false ∧ (∃ p : List Byte, p.length = 1024) ∧
    (∃ p : List Byte, p.length = 65535) :=
  ⟨by decide, by decide, ⟨List.replicate 1024 0x00#8, List.length_replicate⟩,
   ⟨List.replicate 65535 0x00#8, List.length_replicate⟩⟩

/-- The destination byte and the last payload byte of F2 changed. -/
theorem witness_CorruptedByteRejected :
    State.reset.fsm = .idle ∧ ((2 ≤ 2 ∧ 2 ≤ 5) ∨ (8 ≤ 2 ∧ 2 < 8 + 2)) ∧ ((2 ≤ 9 ∧ 9 ≤ 5) ∨ (8 ≤ 9 ∧ 9 < 8 + 2)) ∧
    (encodeFrame 0x00#8 0x01#8 0x1234#16 [0xAA#8, 0xBB#8])[2]? ≠ some 0x80#8 ∧
    (encodeFrame 0x00#8 0x01#8 0x1234#16 [0xAA#8, 0xBB#8])[9]? ≠ some 0xBA#8 := by decide

theorem witness_ReservedMicroOperationRefused : ∃ s : State, s.inputs = [.micro 0b11#2 0xFF#8] :=
  ⟨{ State.reset with inputs := [.micro 0b11#2 0xFF#8] }, rfl⟩

theorem witness_OnlyTheseChangeState : rowState (.chkAcc 0x01#8) = none ∧ ∃ t, exec (.chkAcc 0x01#8) State.reset = .next t :=
  ⟨rfl, ⟨_, rfl⟩⟩

end Sys2Proof.Tests
end

section
/-! PROOFS. Family 10_state: what each operation counts (R31 to R33), and the state right after reset (R37). -/

namespace Sys2Proof.Proofs.State10

open Sys2Proof Sys2Proof.Machine

/-! ### What an operation counts -/

/-- The four counters (R31, R32), as one value. -/
def counters (s : State) : Count × Count × Count × Count :=
  (s.validPackets, s.parseErrors, s.overruns, s.unhandledPackets)

/-- The increment that an operation other than RESET owes the counters: R127 for `valid_packets`; R114, R120, R126 and
R128 for `parse_errors`; R122 for `overruns`; R157 for `unhandled_packets`. -/
def counted : Instr → State → State
  | .chkbOk _, s => countValid s
  | .s0Mismatch _, s | .lenOver _, s | .chkaBad _, s | .chkbBad _, s => countError s
  | .lenStart _, s => if s.lvValid then countOverrun s else s
  | .unhandledInc, s => countUnhandled s
  | _, s => s

theorem counters_eq_iff (s t : State) :
    counters t = counters s ↔ t.validPackets = s.validPackets ∧ t.parseErrors = s.parseErrors ∧
      t.overruns = s.overruns ∧ t.unhandledPackets = s.unhandledPackets := by
  simp [counters]

/-- The overrun test counts exactly when it finds a valid snapshot (R122). -/
theorem counters_overrunTest (s : State) :
    counters (overrunTest s) = counters (if s.lvValid then countOverrun s else s) := by
  cases h : s.lvValid
  · rw [overrunTest_invalid h]; rfl
  · rw [overrunTest_valid h]; rfl

/-- Every operation but RESET leaves the counters with its own increment and no other. -/
theorem exec_counters {i : Instr} {s t : State} (h : exec i s = .next t) (hr : i ≠ .reset) :
    counters t = counters (counted i s) := by
  cases i
  case reset => exact absurd rfl hr
  case lenStart b =>
    obtain ⟨-, -, -, rfl⟩ := byteRow_next h
    rw [counters_overrunTest]
    cases hv : s.lvValid <;> simp [counted, counters, hv]
  case extract =>
    obtain ⟨u, hu, hframe⟩ := execExtract_next s
    cases hu.symm.trans h
    rw [hframe]; rfl
  case encodeMsg dest src msgId payload =>
    simp only [exec, execEncodeMsg] at h
    split at h <;> cases h
    rfl
  case nop | resume | unhandledInc | readReg | readBuf | chkHold | chkClear | chkAcc => cases h; rfl
  all_goals
    obtain ⟨-, -, -, rfl⟩ := byteRow_next h
    rfl

/-- Which operations owe an increment, and of which counter. -/
theorem counted_cases (i : Instr) (s : State) :
    ((∃ b, i = .chkbOk b) ∧ counted i s = countValid s) ∨
    ((∃ b, i = .s0Mismatch b ∨ i = .lenOver b ∨ i = .chkaBad b ∨ i = .chkbBad b) ∧ counted i s = countError s) ∨
    ((∃ b, i = .lenStart b) ∧ s.lvValid = true ∧ counted i s = countOverrun s) ∨
    (i = .unhandledInc ∧ counted i s = countUnhandled s) ∨
    counted i s = s := by
  cases i
  case chkbOk b => exact .inl ⟨⟨b, rfl⟩, rfl⟩
  case s0Mismatch b | lenOver b | chkaBad b | chkbBad b => exact .inr (.inl ⟨⟨b, by simp⟩, rfl⟩)
  case lenStart b =>
    cases hv : s.lvValid <;> simp [counted, hv]
  case unhandledInc => exact .inr (.inr (.inr (.inl ⟨rfl, rfl⟩)))
  all_goals exact .inr (.inr (.inr (.inr rfl)))

/-! ### The obligations -/

/-- Settles O44: an operation's increment (`exec_counters`), case by case (`counted_cases`). -/
theorem countersChangeOnlyByTheirRules : Obligations.CountersChangeOnlyByTheirRules := by
  unfold Obligations.CountersChangeOnlyByTheirRules
  refine ⟨fun s => ⟨rfl, rfl, rfl, rfl⟩, fun i s t h hr => ?_⟩
  obtain ⟨hv, he, ho, hu⟩ := (counters_eq_iff _ t).mp (exec_counters h hr)
  rw [hv, he, ho, hu]
  rcases counted_cases i s with ⟨hi, hc⟩ | ⟨hi, hc⟩ | ⟨hi, hvalid, hc⟩ | ⟨hi, hc⟩ | hc <;> rw [hc]
  · simp [bump, hi]
  · simp [bump, hi]
  · simp [bump, hi, hvalid]
  · simp [bump, hi]
  · simp

/-- An index that nothing has written since reset reads as this reset's free draw (R37). -/
theorem bufByte_of_unwritten {s : State} {i : Nat} (h : memRead i s.buf = none) :
    bufByte s i = Config.bufferDraw s.draws i := by
  simp [bufByte, h]

/-- Settles O26: each register at R37's value, and no buffer byte written. -/
theorem resetStateValues : Obligations.ResetStateValues := by
  unfold Obligations.ResetStateValues
  exact ⟨rfl, rfl, rfl, rfl, rfl, rfl, rfl, rfl, rfl, rfl, rfl, rfl, rfl, rfl, rfl, rfl, rfl, rfl, rfl, rfl, rfl,
    fun _ => bufByte_of_unwritten rfl⟩

end Sys2Proof.Proofs.State10
end

section
/-! PROOFS. Family 30_encoding: the register window of READ_REG (R81, R158). -/

namespace Sys2Proof.Proofs.Encoding30

open Sys2Proof Sys2Proof.Machine

/-! ### The packed registers, as numbers -/

/-- A concatenation as a number: the high part weighs 2 to the width of the low part. -/
theorem append_toNat {m n : Nat} (hi : BitVec m) (lo : BitVec n) :
    (hi ++ lo).toNat = 2 ^ n * hi.toNat + lo.toNat := by
  rw [BitVec.toNat_append, ← Nat.shiftLeft_add_eq_or_of_lt lo.isLt, Nat.shiftLeft_eq, Nat.mul_comm]

theorem packBytes_toNat (low high : Byte) : (packBytes low high).toNat = low.toNat + 256 * high.toNat := by
  rw [packBytes, BitVec.toNat_setWidth_of_le (by decide), append_toNat]
  omega

/-- STATUS: the state's code in `[3:0]`, then `halted` at weight 16 and `lv_valid` at weight 32 (R81). -/
theorem statusReg_toNat (s : State) :
    (statusReg s).toNat = (stateCode s.fsm).toNat + 16 * s.halted.toNat + 32 * s.lvValid.toNat := by
  rw [statusReg, BitVec.toNat_setWidth_of_le (by decide), append_toNat, append_toNat,
    BitVec.toNat_ofBool, BitVec.toNat_ofBool]
  omega

/-! ### The obligation -/

/-- Settles O19: READ_REG shows `regWindow s a`; each clause names that window's row at its address. -/
theorem registerWindowRead : Obligations.RegisterWindowRead := by
  unfold Obligations.RegisterWindowRead
  intro s a
  refine ⟨regWindow s a, rfl, ?status, ?lvAddr, ?lvMsgid, ?lvLen, ?lvChk, ?valid, ?errors, ?overruns, ?unhandled,
    ?pendAddr, ?pendMsgid, ?pendLen, ?chk, ?pendIndex, ?unlisted⟩
  case status =>
    intro ha
    simp only [regWindow, ha, statusReg_toNat]
  case lvAddr | lvChk | pendAddr | chk =>
    intro ha
    simp only [regWindow, ha, packBytes_toNat]
  case lvMsgid | lvLen | pendMsgid | pendLen | pendIndex =>
    intro ha
    simp only [regWindow, ha]
    exact BitVec.toNat_setWidth_of_le (by decide)
  case valid | errors | overruns | unhandled =>
    intro ha
    simp only [regWindow, ha]
  case unlisted =>
    rintro (ha | ha) <;> simp [regWindow, ha]

end Sys2Proof.Proofs.Encoding30
end

section
/-! PROOFS. Family 41_parser: the halted parser at an edge (R133), and the eighteen byte steps row by row (R111 to
R128). -/

namespace Sys2Proof.Proofs.Parser41

open Sys2Proof Sys2Proof.Machine Sys2Proof.Safety

/-! ### A halted parser at an edge (R133) -/

/-- An edge whose byte is not taken makes no byte step. -/
@[simp] theorem beatEdge_notReady (p : PortIn) (s : State) : beatEdge p false s = .next s := by
  simp [beatEdge]

@[simp] theorem encoderEdge_halted (p : PortIn) (s : State) : (encoderEdge p s).halted = s.halted := by
  rw [encoderEdge_frame]

@[simp] theorem afterReads_halted (p : PortIn) (s : State) : (afterReads p s).halted = s.halted := rfl

/-- Without `rst`, an edge of a halted parser is its command and the encoder's ports: no beat. -/
theorem portEdge_of_halted {p : PortIn} {s : State} (hh : s.halted = true) (hr : p.rst = false) :
    portEdge p s = andThen (commandEdge p.cmd (afterReads p s)) fun u => .next (encoderEdge p u) := by
  simp [portEdge_run hr, inReady, hh]

/-- Every command but RESUME leaves `halted` alone. -/
theorem commandEdge_halted {c : BitVec 3} {s t : State} (h : commandEdge c s = .next t) (hc : c ≠ 0b001#3) :
    t.halted = s.halted := by
  rcases commandEdge_cases c s with hnop | ⟨hresume, -⟩ | ⟨-, hextract⟩ | ⟨-, hunhandled⟩
  · cases hnop.symm.trans h; rfl
  · exact absurd hresume hc
  · obtain ⟨u, hu, hframe⟩ := execExtract_next s
    cases hu.symm.trans (hextract.symm.trans h)
    rw [hframe]
  · cases hunhandled.symm.trans h; rfl

/-- Settles O34: with `rst` an edge is RESET whatever byte is offered; otherwise it is `portEdge_of_halted`, in which the
offered byte does not occur, and only RESUME writes `halted`. -/
theorem haltedTakesNoByte : Obligations.HaltedTakesNoByte := by
  unfold Obligations.HaltedTakesNoByte
  refine fun s => ⟨fun _ => rfl, fun hh => ⟨fun p => ?offered, fun p t ht hr hc => ?stays⟩⟩
  case offered =>
    obtain hr | hr := Bool.eq_false_or_eq_true p.rst
    · exact (portEdge_rst hr s).trans (portEdge_rst (p := { p with inValid := false }) hr s).symm
    · exact (portEdge_of_halted hh hr).trans (portEdge_of_halted (p := { p with inValid := false }) hh hr).symm
  case stays =>
    rw [portEdge_of_halted hh hr] at ht
    obtain ⟨u, hu, he⟩ := andThen_next ht
    cases he
    rw [encoderEdge_halted, commandEdge_halted hu hc, afterReads_halted, hh]

/-! ### Running the row that a byte selects (R76) -/

/-- The key that encodes an operation selects it, if the condition of its row holds. -/
theorem decodeRow_encode {i : Instr} {k : BitVec 12} {r : RowRegs} (hk : encode i = .key k)
    (hc : condition i r = true) : decodeRow r k = .op i := by
  cases i <;> cases hk
  case idleSync0 => exact decodeRow_parts r 0#4 0x76#8
  case idleSkip b => exact (decodeRow_parts r 0#4 b).trans (if_neg (bne_iff_ne.mp hc))
  case s0Sync1 => exact decodeRow_parts r 1#4 0x63#8
  case s0Mismatch b => exact (decodeRow_parts r 1#4 b).trans (if_neg (bne_iff_ne.mp hc))
  case lenOver b => exact (decodeRow_parts r 7#4 b).trans (if_pos hc)
  case lenZero =>
    have hover : ¬ condition (.lenOver 0x00#8) r = true := by
      rw [condition_lenOver, BitVec.toNat_ofNat]; omega
    exact (decodeRow_parts r 7#4 0x00#8).trans ((if_neg hover).trans (if_pos ⟨rfl, hc⟩))
  case lenStart b =>
    obtain ⟨hlow, hhigh⟩ := (condition_lenStart b r).mp hc
    have hover : ¬ condition (.lenOver b) r = true := by
      rw [condition_lenOver]; omega
    have hzero : ¬ (b = 0x00#8 ∧ condition .lenZero r = true) := by
      rintro ⟨rfl, hz⟩
      rw [condition_lenZero] at hz
      rw [BitVec.toNat_ofNat] at hlow
      omega
    exact (decodeRow_parts r 7#4 b).trans ((if_neg hover).trans ((if_neg hzero).trans (if_pos hc)))
  case payByte b => exact (decodeRow_parts r 8#4 b).trans (if_pos hc)
  case payLast b =>
    have hmore : ¬ condition (.payByte b) r = true := by
      rw [condition_payByte, (condition_payLast b r).mp hc]; exact lt_irrefl _
    exact (decodeRow_parts r 8#4 b).trans ((if_neg hmore).trans (if_pos hc))
  case chkaOk b => exact (decodeRow_parts r 9#4 b).trans (if_pos (beq_iff_eq.mp hc))
  case chkaBad b => exact (decodeRow_parts r 9#4 b).trans (if_neg (bne_iff_ne.mp hc))
  case chkbOk b => exact (decodeRow_parts r 10#4 b).trans (if_pos (beq_iff_eq.mp hc))
  case chkbBad b => exact (decodeRow_parts r 10#4 b).trans (if_neg (bne_iff_ne.mp hc))
  case hdrDest | hdrSrc | hdrIdLo | hdrIdHi | hdrLenLo => exact decodeRow_parts r _ _

/-- Not halted, in its state and under its condition, a row's operation answers its writes `u`, and so does the byte
step on the byte of its key. -/
theorem row_runs {i : Instr} {st : ParserState} {b : Byte} {s u : State} (hx : exec i s = byteRow st i s u)
    (hk : encode i = .key (decodeKey st b)) (hh : s.halted = false) (hs : s.fsm = st)
    (hc : condition i (rowRegs s) = true) : exec i s = .next u ∧ byteStep b s = .next u := by
  have hexec : exec i s = .next u := hx.trans (byteRow_run u hh hs hc)
  exact ⟨hexec, (byteStep_of_decode (decodeRow_encode (hs ▸ hk) hc)).trans hexec⟩

/-- A byte that does not complete a packet leaves the rest of the bytes to the parse loop (R130). -/
theorem parseBytes_cons {b : Byte} {s t : State} (h : byteStep b s = .next t) (he : t.out.evt ≠ .packetValid)
    (rest : List Byte) (done : Nat) : parseBytes (b :: rest) done s = parseBytes rest (done + 1) t := by
  simp [parseBytes, h, he]

/-! ### Sync detection -/

theorem idleSync0_runs {s : State} (hh : s.halted = false) (hs : s.fsm = .idle) :
    exec .idleSync0 s = .next (emit .noEvent (goto .sawSync0 s)) ∧
      byteStep 0x76#8 s = .next (emit .noEvent (goto .sawSync0 s)) :=
  row_runs rfl rfl hh hs rfl

theorem idleSkip_runs {s : State} {b : Byte} (hh : s.halted = false) (hs : s.fsm = .idle) (hb : b ≠ 0x76#8) :
    exec (.idleSkip b) s = .next (emit .noEvent s) ∧ byteStep b s = .next (emit .noEvent s) :=
  row_runs rfl rfl hh hs (bne_iff_ne.mpr hb)

theorem s0Mismatch_runs {s : State} {b : Byte} (hh : s.halted = false) (hs : s.fsm = .sawSync0) (hb : b ≠ 0x63#8) :
    exec (.s0Mismatch b) s = .next (recover .errSync s) ∧ byteStep b s = .next (recover .errSync s) :=
  row_runs rfl rfl hh hs (bne_iff_ne.mpr hb)

/-- Settles O4: the two Idle rows, and S0_SYNC1. -/
theorem syncRows : Obligations.SyncRows := by
  unfold Obligations.SyncRows
  refine fun s hh => ⟨fun hs => ?idle, fun hs => ?sawSync0⟩
  case idle =>
    obtain ⟨hexec, hbyte⟩ := idleSync0_runs hh hs
    refine ⟨hexec, hbyte.trans hexec.symm, fun b hb => ?_⟩
    obtain ⟨hskip, hbyte⟩ := idleSkip_runs hh hs hb
    exact ⟨hskip, hbyte.trans hskip.symm⟩
  case sawSync0 =>
    obtain ⟨hexec, hbyte⟩ := row_runs (i := .s0Sync1) (b := 0x63#8) rfl rfl hh hs rfl
    exact ⟨hbyte.trans hexec.symm, hexec⟩

/-- Settles O5: the second `76` is the mismatch, and the `63` after it is skipped from Idle. -/
theorem syncMismatchRow : Obligations.SyncMismatchRow := by
  unfold Obligations.SyncMismatchRow
  refine fun s hh => ⟨fun hs b hb => ?mismatch, fun hs => ?notTestedAgain⟩
  case mismatch =>
    obtain ⟨hexec, hbyte⟩ := s0Mismatch_runs hh hs hb
    exact ⟨_, hexec, hbyte, rfl, rfl, bump_toNat _, rfl⟩
  case notTestedAgain =>
    obtain ⟨-, hsync⟩ := idleSync0_runs hh hs
    obtain ⟨-, hmismatch⟩ := s0Mismatch_runs (s := emit .noEvent (goto .sawSync0 s)) (b := 0x76#8) hh rfl (by decide)
    obtain ⟨-, hskip⟩ := idleSkip_runs (s := recover .errSync (emit .noEvent (goto .sawSync0 s))) (b := 0x63#8)
      hh rfl (by decide)
    refine ⟨emit .noEvent (recover .errSync (emit .noEvent (goto .sawSync0 s))), ?_, rfl, bump_toNat _⟩
    rw [parseBytes_cons hsync nofun, parseBytes_cons hmismatch nofun, parseBytes_cons hskip nofun, parseBytes]

/-! ### Header reassembly -/

/-- Settles O6: HDR_DEST and HDR_SRC have no condition on the byte. -/
theorem headerAddressRows : Obligations.HeaderAddressRows := by
  unfold Obligations.HeaderAddressRows
  refine fun s b hh => ⟨fun hs => ?dest, fun hs => ?src⟩
  case dest =>
    obtain ⟨hexec, hbyte⟩ := row_runs (i := .hdrDest b) (b := b) rfl rfl hh hs rfl
    exact ⟨_, hexec, hbyte, rfl, rfl, accumulated_of_eq rfl rfl, rfl, rfl⟩
  case src =>
    obtain ⟨hexec, hbyte⟩ := row_runs (i := .hdrSrc b) (b := b) rfl rfl hh hs rfl
    exact ⟨_, hexec, hbyte, rfl, rfl, accumulated_of_eq rfl rfl, rfl, rfl⟩

/-- Settles O7: each beat writes its own half (`setLowByte_toNat`, `setHighByte_toNat`). -/
theorem headerMessageIdRows : Obligations.HeaderMessageIdRows := by
  unfold Obligations.HeaderMessageIdRows
  refine fun s b hh => ⟨fun hs => ?low, fun hs => ?high⟩
  case low =>
    obtain ⟨hexec, hbyte⟩ := row_runs (i := .hdrIdLo b) (b := b) rfl rfl hh hs rfl
    exact ⟨_, hexec, hbyte, rfl, accumulated_of_eq rfl rfl, setLowByte_toNat _ b, rfl, rfl⟩
  case high =>
    obtain ⟨hexec, hbyte⟩ := row_runs (i := .hdrIdHi b) (b := b) rfl rfl hh hs rfl
    exact ⟨_, hexec, hbyte, rfl, accumulated_of_eq rfl rfl, setHighByte_toNat _ b, rfl, rfl⟩

/-- Settles O8: HDR_LENLO has no condition on the byte. -/
theorem headerLengthLowRow : Obligations.HeaderLengthLowRow := by
  unfold Obligations.HeaderLengthLowRow
  intro s b hh hs
  obtain ⟨hexec, hbyte⟩ := row_runs (i := .hdrLenLo b) (b := b) rfl rfl hh hs rfl
  exact ⟨_, hexec, hbyte, rfl, accumulated_of_eq rfl rfl, setLowByte_toNat _ b, rfl, rfl⟩

/-! ### The length branch -/

/-- Settles O9: the low length byte is below 256, so the high byte alone decides; then LEN_OVER. -/
theorem overLengthRow : Obligations.OverLengthRow := by
  unfold Obligations.OverLengthRow
  refine fun s b => ⟨by omega, fun hh hs hlen => ?_⟩
  obtain ⟨hexec, hbyte⟩ := row_runs (i := .lenOver b) (b := b) rfl rfl hh hs ((condition_lenOver b _).mpr hlen)
  exact ⟨_, hexec, hbyte, rfl, accumulated_of_eq rfl rfl, setHighByte_toNat _ b, bump_toNat _, rfl, rfl⟩

/-- Writing a zero high byte over a zero low byte makes zero. -/
theorem setHighByte_zero {v : Half} (h : v.toNat % 256 = 0) : setHighByte v 0x00#8 = 0x0000#16 := by
  apply BitVec.eq_of_toNat_eq
  rw [setHighByte_toNat, h]
  rfl

/-- Settles O10: LEN_ZERO completes a zero `pend_len` (`setHighByte_zero`). -/
theorem zeroLengthRow : Obligations.ZeroLengthRow := by
  unfold Obligations.ZeroLengthRow
  intro s hh hs hlow
  obtain ⟨hexec, hbyte⟩ := row_runs (i := .lenZero) (b := 0x00#8) rfl rfl hh hs ((condition_lenZero _).mpr hlow)
  exact ⟨_, hexec, hbyte, rfl, setHighByte_zero hlow, accumulated_of_eq rfl rfl, rfl, rfl⟩

/-- Settles O11: LEN_START, whose overrun test (R122) splits on `lv_valid`. -/
theorem payloadStartRow : Obligations.PayloadStartRow := by
  unfold Obligations.PayloadStartRow
  intro s b hh hs hpos hmax
  obtain ⟨hexec, hbyte⟩ := row_runs (i := .lenStart b) (b := b) rfl rfl hh hs
    ((condition_lenStart b _).mpr ⟨hpos, Nat.lt_succ_of_le hmax⟩)
  refine ⟨_, hexec, hbyte, ?_⟩
  cases hv : s.lvValid with
  | true =>
    rw [overrunTest_valid]
    · exact ⟨rfl, rfl, rfl, accumulated_of_eq rfl rfl, setHighByte_toNat _ b, fun _ => ⟨bump_toNat _, rfl⟩, nofun, rfl⟩
    · exact hv
  | false =>
    rw [overrunTest_invalid]
    · exact ⟨rfl, rfl, hv, accumulated_of_eq rfl rfl, setHighByte_toNat _ b, nofun, fun _ => ⟨rfl, rfl⟩, rfl⟩
    · exact hv

/-! ### Payload copy -/

/-- Inside the declared length (at most 1023, R36(b)) the 10-bit index does not wrap. -/
theorem pendIndex_succ_toNat {s : State} (hmax : s.pendLen.toNat ≤ 1023)
    (hidx : s.pendIndex.toNat + 1 ≤ s.pendLen.toNat) : (s.pendIndex + 1).toNat = s.pendIndex.toNat + 1 := by
  rw [BitVec.toNat_add]
  exact Nat.mod_eq_of_lt (show s.pendIndex.toNat + 1 < 1024 by omega)

/-- Settles O12: both rows store by `storePayload`; they differ in the condition and in the state they move to. -/
theorem payloadRows : Obligations.PayloadRows := by
  unfold Obligations.PayloadRows
  refine fun s b hh hs hmax => ⟨fun hmore => ?payByte, fun hlast => ?payLast⟩
  case payByte =>
    obtain ⟨hexec, hbyte⟩ := row_runs (i := .payByte b) (b := b) rfl rfl hh hs ((condition_payByte b _).mpr hmore)
    exact ⟨_, hexec, hbyte, hs, accumulated_of_eq rfl rfl, pendIndex_succ_toNat hmax hmore.le,
      bufByte_storePayload_same b s, fun _ ha => bufByte_storePayload_other b s ha, rfl, rfl⟩
  case payLast =>
    obtain ⟨hexec, hbyte⟩ := row_runs (i := .payLast b) (b := b) rfl rfl hh hs ((condition_payLast b _).mpr hlast)
    have hnext := pendIndex_succ_toNat hmax hlast.le
    exact ⟨_, hexec, hbyte, rfl, accumulated_of_eq rfl rfl, hnext, hnext.trans hlast,
      bufByte_storePayload_same b s, fun _ ha => bufByte_storePayload_other b s ha, rfl, rfl⟩

/-! ### Checksum validation -/

/-- Settles O13: CHKA_OK and CHKA_BAD. -/
theorem checksumARows : Obligations.ChecksumARows := by
  unfold Obligations.ChecksumARows
  refine fun s b hh hs => ⟨fun hb => ?ok, fun hb => ?bad⟩
  case ok =>
    obtain ⟨hexec, hbyte⟩ := row_runs (i := .chkaOk b) (b := b) rfl rfl hh hs (beq_iff_eq.mpr hb)
    exact ⟨hbyte.trans hexec.symm, hexec⟩
  case bad =>
    obtain ⟨hexec, hbyte⟩ := row_runs (i := .chkaBad b) (b := b) rfl rfl hh hs (bne_iff_ne.mpr hb)
    exact ⟨_, hexec, hbyte, rfl, bump_toNat _, rfl, rfl⟩

/-- Settles O14: CHKB_OK. -/
theorem promotionRow : Obligations.PromotionRow := by
  unfold Obligations.PromotionRow
  intro s b hh hs hb
  obtain ⟨hexec, hbyte⟩ := row_runs (i := .chkbOk b) (b := b) rfl rfl hh hs (beq_iff_eq.mpr hb)
  exact ⟨_, hexec, hbyte, rfl, rfl, rfl, rfl, rfl, rfl, rfl, rfl, rfl, bump_toNat _, rfl, rfl, rfl⟩

/-- Settles O15: CHKB_BAD. -/
theorem checksumBMismatchRow : Obligations.ChecksumBMismatchRow := by
  unfold Obligations.ChecksumBMismatchRow
  intro s b hh hs hb
  obtain ⟨hexec, hbyte⟩ := row_runs (i := .chkbBad b) (b := b) rfl rfl hh hs (bne_iff_ne.mpr hb)
  exact ⟨_, hexec, hbyte, rfl, bump_toNat _, rfl, rfl⟩

end Sys2Proof.Proofs.Parser41
end

section
/-! PROOFS. Family 42_extractor_host: EXTRACT's three answers (R150 to R152), the other host commands (R155 to R157),
and the reserved command codes (R161, R82(b)). -/

namespace Sys2Proof.Proofs.Extractor42

open Sys2Proof Sys2Proof.Machine Sys2Proof.Safety

/-! ### EXTRACT, one equation per answer -/

theorem extract_of_nothingPending {s : State} (hv : s.lvValid = false) :
    exec .extract s = .next (showExtract .noPacket none s) := by
  simp [exec, execExtract, hv]

theorem extract_of_aboveCap {s : State} (hv : s.lvValid = true) (hcap : s.params.msgCap.val < s.lvLen.toNat) :
    exec .extract s = .next (showExtract (if s.params.surfaceCeilingErr then .ceiling else .noPacket) none s) := by
  simp [exec, execExtract, hv, Nat.not_le.mpr hcap]

theorem extract_of_withinCap {s : State} (hv : s.lvValid = true) (hcap : s.lvLen.toNat ≤ s.params.msgCap.val) :
    exec .extract s = .next (clearValid (showExtract .ok (some (snapshotMessage s)) s)) := by
  simp [exec, execExtract, hv, hcap]

theorem snapshotMessage_eq (s : State) :
    snapshotMessage s = ⟨s.lvDest, s.lvSrc, s.lvMsgid, s.lvLen,
      (List.range s.lvLen.toNat).map (fun i => bufByte s i)⟩ := by
  simp [snapshotMessage, bufRead_eq_map]

/-- Settles O16: the three equations of EXTRACT; the message's payload is read index by index. -/
theorem extractCases : Obligations.ExtractCases := by
  unfold Obligations.ExtractCases
  refine ⟨rfl, ⟨rfl, rfl, rfl⟩, fun s =>
    ⟨extract_of_nothingPending, extract_of_aboveCap, fun hv hcap => ?withinCap⟩⟩
  rw [extract_of_withinCap hv hcap, snapshotMessage_eq]
  rfl

/-! ### RESUME, NOP and UNHANDLED_INC -/

/-- Each row of R76 gives a byte step, whichever byte it takes. -/
theorem keyRows_rowState {row : KeyRow} (h : row ∈ keyRows) (b : Byte) : rowState (row.op b) ≠ none := by
  revert h row
  simp [keyRows, rowState]

/-- Format B decodes to byte steps alone: never to a host command, a port read, RESET or a unit's operation. -/
theorem decodeRow_rowState {r : RowRegs} {k : BitVec 12} {i : Instr} (h : decodeRow r k = .op i) :
    rowState i ≠ none := by
  unfold decodeRow at h
  split at h
  · next row hrow =>
    cases h
    exact keyRows_rowState (List.mem_of_find?_eq_some hrow) _
  · cases h

/-- Only UNHANDLED_INC and RESET change `unhandled_packets` (R32), and no byte decodes to either. -/
theorem byteStep_unhandledPackets {b : Byte} {s t : State} (h : byteStep b s = .next t) :
    t.unhandledPackets = s.unhandledPackets := by
  obtain ⟨i, hdecode, hexec⟩ := byteStep_next h
  have hrow := decodeRow_rowState hdecode
  have hreset : i ≠ .reset := by rintro rfl; exact hrow rfl
  obtain ⟨-, -, -, hrule⟩ := State10.countersChangeOnlyByTheirRules.2 i s t hexec hreset
  by_contra hchanged
  obtain ⟨rfl, -⟩ := hrule hchanged
  exact hrow rfl

/-- Settles O18: the three commands run by definition; for the byte steps, `byteStep_unhandledPackets`. -/
theorem resumeNopUnhandled : Obligations.ResumeNopUnhandled := by
  unfold Obligations.ResumeNopUnhandled
  exact ⟨rfl, rfl, rfl, fun s =>
    ⟨rfl, rfl, rfl, fun _ _ => byteStep_unhandledPackets, countUnhandled s, rfl, bump_toNat _, rfl⟩⟩

/-! ### Reserved command codes -/

theorem decodeCmd_reserved {c : BitVec 3} (h : 4 ≤ c.toNat) : decodeCmd c = .rejected .reservedCommand := by
  unfold decodeCmd
  split
  case h_5 => rfl
  all_goals omega

/-- A step whose next input is a command runs the command's word. -/
theorem step_command {c : BitVec 3} {s : State} {rest : List Input} (h : s.inputs = .command c :: rest) :
    step s = runWord (.cmd c) (encoderIdle (opened s rest)) := by
  simp [step, h, runInput, fetchWord]

theorem runWord_cmd_reserved {c : BitVec 3} (h : 4 ≤ c.toNat) (s : State) :
    runWord (.cmd c) s = .refused (.rejected .reservedCommand) := by
  simp [runWord, decode, decodeCmd_reserved h]

theorem commandEdge_reserved {c : BitVec 3} (h : 4 ≤ c.toNat) (s : State) :
    commandEdge c s = commandEdge 0b000#3 s := by
  simp only [commandEdge, decodeCmd_reserved h]
  rfl

/-- Of an edge, only the command's own part reads the command code. -/
theorem portEdge_congr_cmd {p : PortIn} {c : BitVec 3} (h : ∀ s, commandEdge p.cmd s = commandEdge c s) (s : State) :
    portEdge p s = portEdge { p with cmd := c } s := by
  simp only [portEdge, h]
  rfl

/-- Settles O36: no command has a code from 100 on (`decodeCmd_reserved`); a program's step refuses it, an edge takes it
as NOP. -/
theorem reservedCodes : Obligations.ReservedCodes := by
  unfold Obligations.ReservedCodes
  refine fun s rest => ⟨fun c hc hin => ?program, fun p hc => ?edge⟩
  case program => exact (step_command hin).trans (runWord_cmd_reserved hc _)
  case edge => exact portEdge_congr_cmd (commandEdge_reserved hc) s

end Sys2Proof.Proofs.Extractor42
end

section
/-! PROOFS. Family 43_encoder: the frame of ENCODE and its count (R171, R173), and what the parser makes of a frame
whose length it does not accept (R175). -/

namespace Sys2Proof.Proofs.Encoder43

open Sys2Proof Sys2Proof.Machine Parser41

/-! ### The frame (R171) -/

theorem encodeMsg_runs {payload : List Byte} (hn : payload.length ≤ 65535) (dest src : Byte) (msgId : Half)
    (s : State) :
    exec (.encodeMsg dest src msgId payload) s = .next (showFrame (encodeFrame dest src msgId payload) s) :=
  if_pos hn

theorem encodeFrame_length (dest src : Byte) (msgId : Half) (payload : List Byte) :
    (encodeFrame dest src msgId payload).length = payload.length + 10 := by
  simp only [encodeFrame, frameChecksum, List.length_append, framePrefix_length, List.length_cons, List.length_nil]
  omega

/-- The sync pair and header come first, and they are eight bytes. -/
theorem encodeFrame_split (dest src : Byte) (msgId : Half) (payload : List Byte) :
    encodeFrame dest src msgId payload =
      framePrefix dest src msgId (BitVec.ofNat 16 payload.length) ++ (encodeFrame dest src msgId payload).drop 8 := by
  rw [encodeFrame, List.append_assoc]
  rfl

/-- The header's halves as the numbers R171 names. -/
theorem headerBytes_eq (dest src : Byte) (msgId len : Half) :
    headerBytes dest src msgId len =
      [dest, src, BitVec.ofNat 8 (msgId.toNat % 256), BitVec.ofNat 8 (msgId.toNat / 256),
        BitVec.ofNat 8 (len.toNat % 256), BitVec.ofNat 8 (len.toNat / 256)] := by
  simp only [headerBytes, ← lowByte_toNat, ← highByte_toNat, BitVec.ofNat_toNat, BitVec.setWidth_eq]

/-- The length field carries the length of every payload ENCODE accepts (R170). -/
theorem lengthField_toNat {payload : List Byte} (hn : payload.length ≤ 65535) :
    (BitVec.ofNat 16 payload.length).toNat = payload.length := by
  rw [BitVec.toNat_ofNat]
  omega

/-! ### The parser on a frame's sync pair and header -/

/-- A row that completes no packet leaves the rest of the bytes to the parse loop. -/
theorem parseBytes_row {i : Instr} {st : ParserState} {b : Byte} {s u : State} (hx : exec i s = byteRow st i s u)
    (hk : encode i = .key (decodeKey st b)) (hh : s.halted = false) (hs : s.fsm = st)
    (hc : condition i (rowRegs s) = true) (he : u.out.evt ≠ .packetValid) (rest : List Byte) (done : Nat) :
    parseBytes (b :: rest) done s = parseBytes rest (done + 1) u :=
  parseBytes_cons (row_runs hx hk hh hs hc).2 he rest done

/-- From Idle, the state after the sync pair and the first five header bytes (R111 to R119): the length's high byte is
still to come. -/
def headerTaken (dest src : Byte) (msgId len : Half) (s : State) : State :=
  { s with
    fsm := .sawLenLo
    pendDest := dest
    pendSrc := src
    pendMsgid := msgId
    pendLen := setLowByte s.pendLen (lowByte len)
    chkA := (chkSeq [dest, src, lowByte msgId, highByte msgId, lowByte len]).1
    chkB := (chkSeq [dest, src, lowByte msgId, highByte msgId, lowByte len]).2
    out := { s.out with evt := .noEvent } }

/-- The two message-id beats together write the whole id. -/
theorem setHighByte_setLowByte (old v : Half) : setHighByte (setLowByte old (lowByte v)) (highByte v) = v := by
  rw [setHighByte, lowByte_setLowByte, joinBytes_parts]

/-- From Idle, a frame's first seven bytes run seven rows; only the two sync rows depend on the byte's value. Each row
leaves the parser not halted and in the state of the next row: the side goals. -/
theorem parseBytes_header {s : State} (hh : s.halted = false) (hs : s.fsm = .idle) (dest src : Byte)
    (msgId len : Half) (rest : List Byte) (done : Nat) :
    parseBytes (0x76#8 :: 0x63#8 :: dest :: src :: lowByte msgId :: highByte msgId :: lowByte len :: rest) done s =
      parseBytes rest (done + 7) (headerTaken dest src msgId len s) := by
  rw [parseBytes_row (i := .idleSync0) rfl rfl hh hs rfl nofun,
    parseBytes_row (i := .s0Sync1) rfl rfl _ _ rfl nofun,
    parseBytes_row (i := .hdrDest dest) rfl rfl _ _ rfl nofun,
    parseBytes_row (i := .hdrSrc src) rfl rfl _ _ rfl nofun,
    parseBytes_row (i := .hdrIdLo (lowByte msgId)) rfl rfl _ _ rfl nofun,
    parseBytes_row (i := .hdrIdHi (highByte msgId)) rfl rfl _ _ rfl nofun,
    parseBytes_row (i := .hdrLenLo (lowByte len)) rfl rfl _ _ rfl nofun]
  · simp only [emit, goto, accumulate, clearChk, chkClear, State.withChk, chkAcc, headerTaken, chkSeq, List.foldl,
      setHighByte_setLowByte]
  all_goals simp [hh]

/-- With the high byte at hand, the length the parser tests (R120) is the one the frame declares. -/
theorem headerTaken_declaredLen (dest src : Byte) (msgId len : Half) (s : State) :
    256 * (highByte len).toNat + (headerTaken dest src msgId len s).pendLen.toNat % 256 = len.toNat := by
  rw [headerTaken, ← lowByte_toNat, lowByte_setLowByte, lowByte_toNat, highByte_toNat]
  omega

/-- The state after the header of a frame whose length is not accepted (R120). -/
def headerRejected (dest src : Byte) (msgId len : Half) (s : State) : State :=
  recover .errLen (takeLenHi (highByte len) (headerTaken dest src msgId len s))

/-- From Idle, a frame that declares 1024 bytes or more is rejected at its eighth byte, whatever follows. -/
theorem parseBytes_oversizedPrefix {s : State} {len : Half} (hh : s.halted = false) (hs : s.fsm = .idle)
    (hlen : 1024 ≤ len.toNat) (dest src : Byte) (msgId : Half) (rest : List Byte) (done : Nat) :
    parseBytes (framePrefix dest src msgId len ++ rest) done s =
      parseBytes rest (done + 8) (headerRejected dest src msgId len s) := by
  have hover : condition (.lenOver (highByte len)) (rowRegs (headerTaken dest src msgId len s)) = true :=
    (condition_lenOver _ _).mpr (hlen.trans_eq (headerTaken_declaredLen dest src msgId len s).symm)
  exact (parseBytes_header hh hs dest src msgId len (highByte len :: rest) done).trans
    (parseBytes_row (s := headerTaken dest src msgId len s) rfl rfl hh rfl hover nofun rest (done + 7))

/-! ### The obligations -/

/-- Settles O53: the frame's first eight bytes are `framePrefix`, which `parseBytes_oversizedPrefix` follows, once with
nothing after them and once with the rest of the frame. -/
theorem oversizedFrameRejected : Obligations.OversizedFrameRejected := by
  unfold Obligations.OversizedFrameRejected
  intro s dest src msgId payload hs hh hmin hmax
  have hlen : 1024 ≤ (BitVec.ofNat 16 payload.length).toNat := hmin.trans_eq (lengthField_toNat hmax).symm
  have hparse := parseBytes_oversizedPrefix hh hs hlen dest src msgId (done := 0)
  refine ⟨⟨_, encodeMsg_runs hmax dest src msgId s, rfl⟩,
    headerRejected dest src msgId (BitVec.ofNat 16 payload.length) s, ?firstEight, rfl, rfl, rfl, rfl, rfl, rfl, rfl,
    ?wholeFrame⟩
  case firstEight =>
    rw [encodeFrame_split, List.take_left' (framePrefix_length ..)]
    exact hparse []
  case wholeFrame =>
    conv_lhs => rw [encodeFrame_split]
    exact hparse _

/-- Settles O21: the frame shown is `encodeFrame`, with its header as numbers (`headerBytes_eq`); its length fits the
17-bit count. -/
theorem encodeFrameAndCount : Obligations.EncodeFrameAndCount := by
  unfold Obligations.EncodeFrameAndCount
  intro s dest src msgId payload hn
  have hlength := encodeFrame_length dest src msgId payload
  have hcount : (BitVec.ofNat 17 (encodeFrame dest src msgId payload).length).toNat = payload.length + 10 := by
    rw [hlength, BitVec.toNat_ofNat]
    omega
  refine ⟨headerBytes dest src msgId (BitVec.ofNat 16 payload.length), _, ?header, hcount,
    encodeMsg_runs hn dest src msgId s, hlength.trans hcount.symm⟩
  rw [headerBytes_eq, lengthField_toNat hn]

end Sys2Proof.Proofs.Encoder43
end

section
/-! PROOFS. The checksum unit (spec/40_checksum.md): its micro-operations, the closed form of both sums (R104), and what
one changed byte does to A (R106). -/

namespace Sys2Proof.Proofs.Checksum40

open Sys2Proof Sys2Proof.Machine

/-! ### The closed form (R104) -/

/-- The number that R104 gives for B: byte `i` of `m` bytes weighs `m - i`. -/
def weightedSum (bytes : List Byte) : Nat :=
  (bytes.mapIdx (fun i b => (bytes.length - i) * b.toNat)).sum

/-- A byte put before the others weighs the new length, and the weights of the others stay. -/
theorem weightedSum_cons (b : Byte) (l : List Byte) :
    weightedSum (b :: l) = (l.length + 1) * b.toNat + weightedSum l := by
  simp [weightedSum, List.mapIdx_cons]

theorem add_toNat_modEq (a b : Byte) : (a + b).toNat ≡ a.toNat + b.toNat [MOD 256] := by
  rw [BitVec.toNat_add]
  exact Nat.mod_modEq _ _

/-- A run of CHK_ACC adds the bytes to A. -/
theorem foldl_chkAcc_fst (l : List Byte) (ab : Byte × Byte) :
    (l.foldl chkAcc ab).1.toNat ≡ ab.1.toNat + (l.map (fun b => b.toNat)).sum [MOD 256] := by
  induction l generalizing ab with
  | nil => exact Nat.ModEq.refl _
  | cons b l ih =>
    calc (l.foldl chkAcc (chkAcc ab b)).1.toNat
      _ ≡ (ab.1 + b).toNat + (l.map (fun b => b.toNat)).sum [MOD 256] := ih _
      _ ≡ ab.1.toNat + b.toNat + (l.map (fun b => b.toNat)).sum [MOD 256] := (add_toNat_modEq _ _).add_right _
      _ = ab.1.toNat + ((b :: l).map (fun b => b.toNat)).sum := by simp [Nat.add_assoc]

/-- A run of CHK_ACC adds to B the old A once for each byte, and the bytes by their weights. -/
theorem foldl_chkAcc_snd (l : List Byte) (ab : Byte × Byte) :
    (l.foldl chkAcc ab).2.toNat ≡ ab.2.toNat + l.length * ab.1.toNat + weightedSum l [MOD 256] := by
  induction l generalizing ab with
  | nil => simp [weightedSum, Nat.ModEq.refl]
  | cons b l ih =>
    have hA := add_toNat_modEq ab.1 b
    calc (l.foldl chkAcc (chkAcc ab b)).2.toNat
      _ ≡ (ab.2 + (ab.1 + b)).toNat + l.length * (ab.1 + b).toNat + weightedSum l [MOD 256] := ih _
      _ ≡ ab.2.toNat + (ab.1.toNat + b.toNat) + l.length * (ab.1.toNat + b.toNat) + weightedSum l [MOD 256] :=
        (((add_toNat_modEq _ _).trans (hA.add_left _)).add (hA.mul_left _)).add_right _
      _ = ab.2.toNat + (b :: l).length * ab.1.toNat + weightedSum (b :: l) := by
        rw [weightedSum_cons, List.length_cons]; ring

/-- Settles O2: `Chk` is a run of CHK_ACC from `(0, 0)`, and both sums are below 256. -/
theorem checksumClosedForm : Obligations.ChecksumClosedForm := by
  unfold Obligations.ChecksumClosedForm
  intro bytes
  have hA := foldl_chkAcc_fst bytes (0x00#8, 0x00#8)
  have hB := foldl_chkAcc_snd bytes (0x00#8, 0x00#8)
  rw [Nat.ModEq, Nat.mod_eq_of_lt (BitVec.isLt _)] at hA hB
  constructor
  · simpa [chkSeq] using hA
  · simpa [chkSeq, weightedSum] using hB

/-! ### One changed byte (R106) -/

/-- What A starts from is added to the end result. -/
theorem foldl_chkAcc_fst_add (l : List Byte) (a d c c' : Byte) :
    (l.foldl chkAcc (a + d, c)).1 = (l.foldl chkAcc (a, c')).1 + d := by
  induction l generalizing a c c' with
  | nil => rfl
  | cons b l ih => simpa [chkAcc, add_right_comm] using ih (a + b) _ _

theorem chkSeq_changed_fst (pre post : List Byte) (b d : Byte) :
    (chkSeq (pre ++ (b + d) :: post)).1 = (chkSeq (pre ++ b :: post)).1 + d := by
  simp only [chkSeq_append, List.foldl_cons, chkAcc, ← add_assoc]
  exact foldl_chkAcc_fst_add post _ d _ _

/-- Settles O3: A changes by `d`, which is not 0. -/
theorem oneChangedByteChangesSumA : Obligations.OneChangedByteChangesSumA := by
  unfold Obligations.OneChangedByteChangesSumA
  intro pre post b d hd
  rw [chkSeq_changed_fst]
  exact ⟨rfl, fun h => hd (add_eq_left.mp h)⟩

/-- Any one byte replaced by another changes A. -/
theorem chkSeq_set_fst_ne {l : List Byte} {k : Nat} {b : Byte} (hk : k < l.length) (hb : l[k] ≠ b) :
    (chkSeq (l.set k b)).1 ≠ (chkSeq l).1 := by
  have hsplit : l = l.take k ++ l[k] :: l.drop (k + 1) := by simp
  have hset : l.set k b = l.take k ++ (l[k] + (b - l[k])) :: l.drop (k + 1) := by
    rw [add_sub_cancel, List.set_eq_take_append_cons_drop, if_pos hk]
  rw [hset]
  conv_rhs => rw [hsplit]
  exact (oneChangedByteChangesSumA _ _ _ _ (sub_ne_zero.mpr hb.symm)).2

/-! ### The micro-operations -/

/-- Settles O1: the three codes decode, and CHK_ACC's two additions as numbers (`chkAcc_fst_toNat`,
`chkAcc_snd_toNat`). -/
theorem checksumMicroOperations : Obligations.ChecksumMicroOperations := by
  unfold Obligations.ChecksumMicroOperations
  exact ⟨fun _ _ => ⟨rfl, rfl, rfl⟩, fun s => ⟨rfl, rfl, fun b =>
    ⟨_, rfl, rfl, chkAcc_fst_toNat (s.unitA, s.unitB) b, chkAcc_snd_toNat (s.unitA, s.unitB) b⟩⟩⟩

end Sys2Proof.Proofs.Checksum40
end

section
/-! PROOFS. Decoding and encoding (spec/30_encoding.md): the rows of R76 and their keys, decode and encode as inverses,
and what a step makes of the word it is given. -/

namespace Sys2Proof.Proofs.Decoding30

open Sys2Proof Sys2Proof.Machine Sys2Proof.Safety

/-! ### A row and its key -/

/-- An operation encoded as a key is a row of R76, and the key carries its state's code. -/
theorem rowState_of_encode {i : Instr} {k : BitVec 12} (h : encode i = .key k) :
    ∃ st, rowState i = some st ∧ keyState k = stateCode st := by
  cases i <;> cases h
  case idleSync0 | s0Sync1 | lenZero => exact ⟨_, rfl, rfl⟩
  all_goals exact ⟨_, rfl, keyState_append _ _⟩

theorem stateCode_injective {st st' : ParserState} (h : stateCode st = stateCode st') : st = st' := by
  have := congrArg stateOfCode h
  simpa using this

/-- A row that matches a key is encoded as that key. -/
theorem encode_of_rowMatches {r : RowRegs} {c : BitVec 4} {b : Byte} :
    ∀ row ∈ keyRows, rowMatches r (c ++ b) row = true → encode (row.op b) = .key (c ++ b) := by
  simp only [keyRows, List.cons_append, List.nil_append, List.forall_mem_cons, rowMatches_key, rowMatches_wholeKey,
    Bool.and_eq_true, decide_eq_true_eq]
  refine ⟨?_, ?_, ?_, ?_, ?_, ?_, ?_, ?_, ?_, ?_, ?lenZero, ?_, ?_, ?_, ?_, ?_, ?_, ?_, nofun⟩
  case lenZero =>
    rintro ⟨⟨⟨rfl, -⟩, hb⟩, -⟩
    cases eq_of_beq hb
    rfl
  all_goals
    rintro ⟨⟨⟨rfl, hb⟩, -⟩, -⟩
    cases hb
    rfl

/-- On the byte, a row's condition is at least the operation's well-formedness (for LEN_OVER and LEN_START: the low
length byte is below 256). -/
theorem wf_of_condition {i : Instr} {r : RowRegs} (hrow : rowState i ≠ none) (hc : condition i r = true) :
    i.wf = true := by
  cases i
  case idleSkip | s0Mismatch => exact hc
  case lenOver b =>
    have := (condition_lenOver b r).mp hc
    exact decide_eq_true (by omega)
  case lenStart b =>
    have := (condition_lenStart b r).mp hc
    exact decide_eq_true (by omega)
  case encodeMsg => exact absurd rfl hrow
  all_goals rfl

/-- A key that decodes is the encoding of what it decodes to, whose condition holds. -/
theorem decodeRow_op {r : RowRegs} {k : BitVec 12} {i : Instr} (h : decodeRow r k = .op i) :
    encode i = .key k ∧ condition i r = true := by
  rw [decodeRow] at h
  split at h
  · next row hfind =>
    cases h
    have hmatch := List.find?_some hfind
    have hcond : condition (row.op (keyByte k)) r = true := by
      simp only [rowMatches, Bool.and_eq_true] at hmatch
      exact hmatch.2
    rw [← key_parts k] at hmatch
    have henc := encode_of_rowMatches row (List.mem_of_find?_eq_some hfind) hmatch
    exact ⟨henc.trans (congrArg _ (key_parts k)), hcond⟩
  · cases h

/-- The row that a byte selects is a row of the state in which the byte arrives. -/
theorem rowState_of_decodeRow {r : RowRegs} {st : ParserState} {b : Byte} {i : Instr}
    (h : decodeRow r (decodeKey st b) = .op i) : rowState i = some st := by
  obtain ⟨st', hst', hcode⟩ := rowState_of_encode (decodeRow_op h).1
  rw [keyState_decodeKey] at hcode
  rw [hst', stateCode_injective hcode]

/-! ### Decode and encode are inverses -/

/-- Settles O30: the rows of R76 by `decodeRow_encode`; the other formats carry their operands as they are. -/
theorem decodeOfEncode : Obligations.DecodeOfEncode := by
  unfold Obligations.DecodeOfEncode
  intro i r hwf hc
  cases i
  case nop | resume | extract | unhandledInc | readReg | readBuf | reset | chkHold | chkClear | chkAcc => rfl
  case encodeMsg dest src msgId payload =>
    have hlen : payload.length ≤ Config.maxPayload := of_decide_eq_true hwf
    simp [decode, encode, hlen]
  all_goals exact Parser41.decodeRow_encode rfl hc

/-- The four commands, or a reserved code (R77, R82(b)). -/
theorem commandCode_cases (c : BitVec 3) : c = 0b000#3 ∨ c = 0b001#3 ∨ c = 0b010#3 ∨ c = 0b011#3 ∨ 4 ≤ c.toNat := by
  decide +revert

/-- The three micro-operations, or the reserved code (R84, R82(e)). -/
theorem microCode_cases (o : BitVec 2) : o = 0b00#2 ∨ o = 0b01#2 ∨ o = 0b10#2 ∨ o = 0b11#2 := by
  decide +revert

theorem decodeCmd_op {c : BitVec 3} {i : Instr} (h : decodeCmd c = .op i) :
    encode i = .cmd c ∧ i.wf = true ∧ ∀ r, condition i r = true := by
  obtain rfl | rfl | rfl | rfl | hreserved := commandCode_cases c
  case inr.inr.inr.inr => rw [Extractor42.decodeCmd_reserved hreserved] at h; cases h
  all_goals cases h; exact ⟨rfl, rfl, fun _ => rfl⟩

/-- A micro-operation that reads no byte is encoded with `chk_in = 0`. -/
theorem decodeChk_op {o : BitVec 2} {b : Byte} {i : Instr} (hb : o = 0b10#2 ∨ b = 0x00#8)
    (h : decodeChk o b = .op i) : encode i = .chk o b ∧ i.wf = true ∧ ∀ r, condition i r = true := by
  obtain rfl | rfl | rfl | rfl := microCode_cases o <;> cases h
  case inr.inr.inl => exact ⟨rfl, rfl, fun _ => rfl⟩
  all_goals
    cases hb.resolve_left (by decide)
    exact ⟨rfl, rfl, fun _ => rfl⟩

/-- Settles O31: format by format; the rows of R76 by `decodeRow_op`. -/
theorem encodeOfDecode : Obligations.EncodeOfDecode := by
  unfold Obligations.EncodeOfDecode
  intro r w i hchk h
  cases w with
  | key k =>
    obtain ⟨henc, hc⟩ := decodeRow_op h
    exact ⟨henc, wf_of_condition (Extractor42.decodeRow_rowState h) hc, hc⟩
  | cmd c =>
    obtain ⟨henc, hwf, hc⟩ := decodeCmd_op h
    exact ⟨henc, hwf, hc r⟩
  | regAddr a => cases h; exact ⟨rfl, rfl, rfl⟩
  | bufAddr a => cases h; exact ⟨rfl, rfl, rfl⟩
  | rst p =>
    simp only [decode] at h
    split at h <;> cases h
    next hp => exact ⟨hp ▸ rfl, rfl, rfl⟩
  | enc start dest src msgId payload =>
    simp only [decode] at h
    split at h
    · cases h
    · next hstart =>
      split at h <;> cases h
      next hlen => exact ⟨by rw [encode, not_not.mp hstart], decide_eq_true hlen, rfl⟩
  | chk o b =>
    obtain ⟨henc, hwf, hc⟩ := decodeChk_op (hchk o b rfl) h
    exact ⟨henc, hwf, hc r⟩

/-- Settles O28: each word is closed, and its row, command or code is found by running the decoder. -/
theorem specWordsDecode : Obligations.SpecWordsDecode := by
  unfold Obligations.SpecWordsDecode
  decide

/-! ### Exactly one row (R76) -/

/-- How many rows match in a state: that state's rows alone look at the byte. -/
def matchCount (st : ParserState) (b : Byte) (r : RowRegs) : Nat :=
  match st with
  | .idle => (if ¬ b = 0x76#8 then 1 else 0) + if b = 0x76#8 then 1 else 0
  | .sawSync0 => (if ¬ b = 0x63#8 then 1 else 0) + if b = 0x63#8 then 1 else 0
  | .sawLenLo =>
      (if condition (.lenStart b) r = true then 1 else 0) +
        (if 0x00#8 = b ∧ condition .lenZero r = true then 1 else 0) +
        if condition (.lenOver b) r = true then 1 else 0
  | .sawLenHi =>
      (if condition (.payLast b) r = true then 1 else 0) + if condition (.payByte b) r = true then 1 else 0
  | .awaitChecksumA => (if ¬ b = r.chkA then 1 else 0) + if b = r.chkA then 1 else 0
  | .awaitChecksumB => (if ¬ b = r.chkB then 1 else 0) + if b = r.chkB then 1 else 0
  | .sawSync1 | .sawDestAddr | .sawSrcAddr | .sawMsgIdLo | .sawMsgIdHi => 1

theorem length_filter_rows (st : ParserState) (b : Byte) (r : RowRegs) :
    (keyRows.filter (rowMatches r (decodeKey st b))).length = matchCount st b r := by
  rw [← List.countP_eq_length_filter]
  simp only [decodeKey, keyRows, List.cons_append, List.nil_append, List.countP_cons, List.countP_nil, rowMatches_key,
    rowMatches_wholeKey]
  cases st
  case sawLenLo | sawLenHi => simp [stateCode, keyState, keyByte, matchCount]
  all_goals simp [stateCode, keyState, keyByte, matchCount, condition, Config.sync0, Config.sync1]

/-- A condition or its negation holds, and not both. -/
theorem ite_not_add_ite (p : Prop) [Decidable p] : (if ¬ p then 1 else 0) + (if p then 1 else 0) = 1 := by
  by_cases h : p <;> simp [h]

theorem zero_eq_byte_iff (b : Byte) : 0x00#8 = b ↔ b.toNat = 0 := by
  rw [eq_comm, ← BitVec.toNat_inj]; rfl

/-- Settles O29: the conditions of a state's rows exclude each other and leave nothing out; for the length and the copy
this is arithmetic. -/
theorem exactlyOneRowMatches : Obligations.ExactlyOneRowMatches := by
  unfold Obligations.ExactlyOneRowMatches
  intro st b r hcopy
  rw [length_filter_rows]
  cases st
  case idle | sawSync0 | awaitChecksumA | awaitChecksumB =>
    exact ite_not_add_ite _
  case sawLenLo =>
    simp only [matchCount, zero_eq_byte_iff, condition_lenStart, condition_lenZero, condition_lenOver]
    split_ifs <;> omega
  case sawLenHi =>
    have := hcopy rfl
    simp only [matchCount, condition_payLast, condition_payByte]
    split_ifs <;> omega
  all_goals rfl

/-- The key of a state has a row, in payload copy as long as the index is below the length. -/
theorem decodeRow_total (st : ParserState) (b : Byte) {r : RowRegs}
    (hcopy : st = .sawLenHi → r.pendIndex.toNat < r.pendLen.toNat) : ∃ i, decodeRow r (decodeKey st b) = .op i := by
  have hone := exactlyOneRowMatches st b r hcopy
  obtain ⟨row, hrow⟩ := List.exists_mem_of_length_pos (hone ▸ Nat.one_pos)
  obtain ⟨hmem, hmatch⟩ := List.mem_filter.mp hrow
  obtain ⟨found, hfound⟩ := Option.isSome_iff_exists.mp (List.find?_isSome.mpr ⟨row, hmem, hmatch⟩)
  exact ⟨found.op (keyByte (decodeKey st b)), by rw [decodeRow, hfound]⟩

/-! ### When a byte step answers (R110) -/

/-- The meaning of a row of R76 is `byteRow` of its state. -/
theorem exec_byteRow {i : Instr} {st : ParserState} (h : rowState i = some st) (s : State) :
    ∃ u, exec i s = byteRow st i s u := by
  cases i <;> cases h <;> exact ⟨_, rfl⟩

theorem byteRow_answers_iff {i : Instr} {st : ParserState} {s u : State} :
    (∃ t, byteRow st i s u = .next t) ↔ s.halted = false ∧ s.fsm = st ∧ condition i (rowRegs s) = true := by
  constructor
  · rintro ⟨t, ht⟩
    obtain ⟨hh, hs, hc, -⟩ := byteRow_next ht
    exact ⟨hh, hs, hc⟩
  · rintro ⟨hh, hs, hc⟩
    exact ⟨u, byteRow_run u hh hs hc⟩

/-- Both rows of payload copy keep the index inside the declared length. -/
theorem index_lt_of_condition {i : Instr} {r : RowRegs} (hrow : rowState i = some .sawLenHi)
    (hc : condition i r = true) : r.pendIndex.toNat < r.pendLen.toNat := by
  cases i <;> cases hrow
  case payByte.refl b => exact Nat.lt_of_succ_lt ((condition_payByte b r).mp hc)
  case payLast.refl b => exact ((condition_payLast b r).mp hc).le

/-- A byte step answers exactly when the parser is not halted and, in payload copy, inside the declared length. -/
theorem byteStep_answers_iff {b : Byte} {s : State} :
    (∃ t, byteStep b s = .next t) ↔
      s.halted = false ∧ (s.fsm = .sawLenHi → s.pendIndex.toNat < s.pendLen.toNat) := by
  constructor
  · rintro ⟨t, ht⟩
    obtain ⟨i, hd, hx⟩ := byteStep_next ht
    obtain ⟨u, hu⟩ := exec_byteRow (rowState_of_decodeRow hd) s
    obtain ⟨hh, -, hc, -⟩ := byteRow_next (hu ▸ hx)
    exact ⟨hh, fun hs => index_lt_of_condition (hs ▸ rowState_of_decodeRow hd) hc⟩
  · rintro ⟨hh, hcopy⟩
    obtain ⟨i, hd⟩ := decodeRow_total s.fsm b (r := rowRegs s) hcopy
    obtain ⟨u, hu⟩ := exec_byteRow (rowState_of_decodeRow hd) s
    exact ⟨u, (byteStep_of_decode hd).trans (hu.trans (byteRow_run u hh rfl (decodeRow_op hd).2))⟩

/-- Settles O35: every row is `byteRow` of its state (`exec_byteRow`). -/
theorem byteStepNeedsItsRow : Obligations.ByteStepNeedsItsRow := by
  unfold Obligations.ByteStepNeedsItsRow
  refine ⟨fun i st s hrow => ?answers, fun b s i hh hd => ?halted⟩
  case answers =>
    obtain ⟨u, hu⟩ := exec_byteRow hrow s
    rw [hu, byteRow_answers_iff]
  case halted =>
    obtain ⟨u, hu⟩ := exec_byteRow (rowState_of_decodeRow hd) s
    exact (byteStep_of_decode hd).trans (hu.trans (byteRow_halted u hh))

/-! ### A step runs what its input decodes to -/

/-- A step whose next input has a word runs that word (log 20: at an edge that asks nothing of the encoder). -/
theorem step_word {s : State} {x : Input} {rest : List Input} {w : OpWord} (hin : s.inputs = x :: rest)
    (hw : fetchWord s x = some w) : step s = runWord w (encoderIdle (opened s rest)) := by
  obtain ⟨hnil, -⟩ | ⟨p, rest', hedge, -⟩ | ⟨x', rest', w', hin', hw', hstep⟩ := step_cases s
  · cases hnil.symm.trans hin
  · cases hedge.symm.trans hin
    cases hw
  · cases hin'.symm.trans hin
    cases hw'.symm.trans hw
    exact hstep

/-- What the encoder's edge leaves to the decoder. -/
theorem rowRegs_encoderIdle_opened (s : State) (rest : List Input) :
    rowRegs (encoderIdle (opened s rest)) = rowRegs s := by
  rw [encoderIdle_opened]; rfl

/-- Settles O32: the three kinds of a step (`step_cases`); the word is decoded under the registers as they stood. -/
theorem stepRunsDecodedOperation : Obligations.StepRunsDecodedOperation := by
  unfold Obligations.StepRunsDecodedOperation
  refine fun s => ⟨fun hnil => ?nothing, fun x rest hin =>
    ⟨fun p hp => ?edge, fun w i hw hd => ?op, fun w e hw hd => ?rejected⟩⟩
  case nothing => simp [step, hnil, exec, execNop, encoderIdle_opened]
  case edge => simp [step, hin, hp, opened]
  case op => rw [step_word hin hw, runWord, rowRegs_encoderIdle_opened, hd, encoderIdle_opened]
  case rejected => rw [step_word hin hw, runWord, rowRegs_encoderIdle_opened, hd]

/-- Settles O55: code 11 has a word, which decodes to no operation. -/
theorem reservedMicroOperationRefused : Obligations.ReservedMicroOperationRefused := by
  unfold Obligations.ReservedMicroOperationRefused
  intro s rest b hin
  rw [step_word hin rfl]
  rfl

/-! ### A placed word of the table (log 10) -/

/-- The condition of a row of a state reads no register but those that placing sets there. -/
theorem condition_setRowRegs {i : Instr} {st : ParserState} (h : rowState i = some st) (r : RowRegs) (s : State) :
    condition i (rowRegs (setRowRegs st r s)) = condition i r := by
  cases i <;> cases h <;> rfl

@[simp] theorem setRowRegs_fsm (st : ParserState) (r : RowRegs) (s : State) : (setRowRegs st r s).fsm = s.fsm := by
  cases st <;> rfl

@[simp] theorem setRowRegs_halted (st : ParserState) (r : RowRegs) (s : State) :
    (setRowRegs st r s).halted = s.halted := by
  cases st <;> rfl

@[simp] theorem setRowRegs_inputs (st : ParserState) (r : RowRegs) (s : State) :
    (setRowRegs st r s).inputs = s.inputs := by
  cases st <;> rfl

@[simp] theorem setRowRegs_encJob (st : ParserState) (r : RowRegs) (s : State) :
    (setRowRegs st r s).encJob = s.encJob := by
  cases st <;> rfl

/-- Placing a key of the table that decodes makes a state `u` in which the key's row is selected, and offers its byte
there. -/
theorem placeKey_of_op {k : BitVec 12} {i : Instr} (s : State) (h : decodeRow (tableRegs k) k = .op i) :
    ∃ u, placeKey k s = pushInput (.byte (keyByte k)) u ∧ decodeKey u.fsm (keyByte k) = k ∧
      rowState i = some u.fsm ∧ condition i (rowRegs u) = true ∧ u.halted = false ∧ u.inputs = s.inputs ∧
      u.encJob = s.encJob := by
  obtain ⟨henc, hc⟩ := decodeRow_op h
  obtain ⟨st, hrow, hcode⟩ := rowState_of_encode henc
  have hkey : decodeKey st (keyByte k) = k := by rw [decodeKey, ← hcode, key_parts]
  refine ⟨setRowRegs st (tableRegs k) { s with fsm := st, halted := false }, ?_, ?_, ?_,
    (condition_setRowRegs hrow _ _).trans hc, setRowRegs_halted .., setRowRegs_inputs .., setRowRegs_encJob ..⟩
  · rw [placeKey, hcode, stateOfCode_stateCode]
  · rw [setRowRegs_fsm, hkey]
  · rw [setRowRegs_fsm, hrow]

/-- A word of the table is a key or a command (log 10). -/
theorem decodeTableWord_cases {nbits w : Nat} {i : Instr} (h : decodeTableWord nbits w = some i) :
    (∃ k, tableWord nbits w = some (.key k) ∧ decodeRow (tableRegs k) k = .op i) ∨
      (∃ c, tableWord nbits w = some (.cmd c) ∧ decodeCmd c = .op i) := by
  unfold decodeTableWord at h
  have hword : tableWord nbits w = none ∨ (∃ k, tableWord nbits w = some (.key k)) ∨
      ∃ c, tableWord nbits w = some (.cmd c) := by
    unfold tableWord
    split_ifs <;> simp
  obtain hw | ⟨k, hw⟩ | ⟨c, hw⟩ := hword <;> simp only [hw, decode] at h
  · cases h
  · split at h <;> cases h
    next hd => exact .inl ⟨k, hw, hd⟩
  · split at h <;> cases h
    next hd => exact .inr ⟨c, hw, hd⟩

/-- The state that runs a placed word's operation: the word taken off again, nothing shown yet. -/
def placedOpened (s : State) (nbits w : Nat) : State :=
  { s.withFetchWord nbits w with
    inputs := s.inputs, out := Outputs.idle, encJob := if encBusy s then s.encJob else none }

/-- What a placed input runs, when placing left the host's list and the encoder alone. -/
theorem step_placed {s u : State} {nbits w : Nat} {x : Input} {word : OpWord}
    (hplace : s.withFetchWord nbits w = pushInput x u) (hword : fetchWord (pushInput x u) x = some word)
    (hin : u.inputs = s.inputs) (hjob : u.encJob = s.encJob) :
    step (s.withFetchWord nbits w) = runWord word (placedOpened s nbits w) := by
  have hbusy : encBusy (pushInput x u) = encBusy s := by simp [encBusy, hjob]
  rw [placedOpened, hplace, step_word rfl hword, encoderIdle_opened, hin, hbusy, pushInput_encJob, hjob]

/-- A placed key runs its row, which is selected in the state it was placed in. -/
theorem step_placed_key {s : State} {nbits w : Nat} {k : BitVec 12} {i : Instr}
    (hw : tableWord nbits w = some (.key k)) (hd : decodeRow (tableRegs k) k = .op i) :
    step (s.withFetchWord nbits w) = exec i (placedOpened s nbits w) ∧
      ∃ u, exec i (placedOpened s nbits w) = .next u := by
  obtain ⟨u, hplaceKey, hkey, hrow, hc, hhalted, hin, hjob⟩ := placeKey_of_op s hd
  have hplace : s.withFetchWord nbits w = pushInput (.byte (keyByte k)) u := by
    rw [State.withFetchWord, placeTableWord, hw, ← hplaceKey]
  have hword : fetchWord (pushInput (.byte (keyByte k)) u) (.byte (keyByte k)) = some (.key k) := by
    rw [fetchWord, pushInput_fsm, hkey]
  have hregs : rowRegs (placedOpened s nbits w) = rowRegs u := by rw [placedOpened, hplace]; rfl
  obtain ⟨v, hv⟩ := exec_byteRow hrow (placedOpened s nbits w)
  constructor
  · rw [step_placed hplace hword hin hjob, runWord, hregs, decode, Parser41.decodeRow_encode (decodeRow_op hd).1 hc]
  · refine ⟨v, hv.trans (byteRow_run v ?_ ?_ (hregs ▸ hc))⟩ <;> rw [placedOpened, hplace]
    · exact hhalted
    · rfl

/-- Each of the four commands answers in every state. -/
theorem command_answers {c : BitVec 3} {i : Instr} (h : decodeCmd c = .op i) (s : State) :
    ∃ t, exec i s = .next t := by
  obtain rfl | rfl | rfl | rfl | hreserved := commandCode_cases c
  case inr.inr.inr.inr => rw [Extractor42.decodeCmd_reserved hreserved] at h; cases h
  case inr.inr.inl =>
    cases h
    obtain ⟨t, ht, -⟩ := execExtract_next s
    exact ⟨t, ht⟩
  all_goals cases h; exact ⟨_, rfl⟩

/-- A placed command runs that command. -/
theorem step_placed_command {s : State} {nbits w : Nat} {c : BitVec 3} {i : Instr}
    (hw : tableWord nbits w = some (.cmd c)) (hd : decodeCmd c = .op i) :
    step (s.withFetchWord nbits w) = exec i (placedOpened s nbits w) ∧
      ∃ u, exec i (placedOpened s nbits w) = .next u := by
  have hplace : s.withFetchWord nbits w = pushInput (.command c) s := by
    rw [State.withFetchWord, placeTableWord, hw]
  exact ⟨by rw [step_placed hplace rfl rfl rfl, runWord, decode, hd], command_answers hd _⟩

/-- Settles O33: a word of the table is a key or a command. -/
theorem placedTableWordRuns : Obligations.PlacedTableWordRuns := by
  unfold Obligations.PlacedTableWordRuns
  intro s nbits w i h
  refine ⟨placedOpened s nbits w, rfl, ?_⟩
  obtain ⟨k, hw, hd⟩ | ⟨c, hw, hd⟩ := decodeTableWord_cases h
  · exact step_placed_key hw hd
  · exact step_placed_command hw hd

end Sys2Proof.Proofs.Decoding30
end

section
/-! PROOFS. What operations change and what they leave alone: port reads, host commands, RESET, the events of the byte
steps, and a clock edge's command and beat (spec/42_extractor_host.md, spec/60_exceptions.md,
spec/70_reset_and_hazards.md). -/

namespace Sys2Proof.Proofs.Operations

open Sys2Proof Sys2Proof.Machine Sys2Proof.Safety

/-! ### Operations that are no byte step -/

/-- What an operation that is neither a byte step nor RESET can do to the block: end a halt, take the snapshot away,
count an unhandled packet; beside that, what is shown and the pair of the checksum unit's own user. -/
structure Quiet (s t : State) : Prop where
  frame : t = { s with halted := t.halted, lvValid := t.lvValid, unhandledPackets := t.unhandledPackets, out := t.out,
                       unitA := t.unitA, unitB := t.unitB }
  halted : t.halted = true → s.halted = true
  lvValid : t.lvValid = true → s.lvValid = true

/-- EXTRACT's three answers: `lv_valid` falls exactly with status OK. -/
theorem extract_cases (s : State) :
    (∃ st, st ≠ .ok ∧ exec .extract s = .next (showExtract st none s)) ∨
      (s.lvValid = true ∧
        exec .extract s = .next (clearValid (showExtract .ok (some (snapshotMessage s)) s))) := by
  cases hv : s.lvValid with
  | false => exact .inl ⟨.noPacket, nofun, Extractor42.extract_of_nothingPending hv⟩
  | true =>
    obtain hcap | hcap := Nat.lt_or_ge s.params.msgCap.val s.lvLen.toNat
    · exact .inl ⟨_, by split <;> nofun, Extractor42.extract_of_aboveCap hv hcap⟩
    · exact .inr ⟨rfl, Extractor42.extract_of_withinCap hv hcap⟩

theorem exec_encodeMsg_next {dest src : Byte} {msgId : Half} {payload : List Byte} {s t : State}
    (h : exec (.encodeMsg dest src msgId payload) s = .next t) :
    payload.length ≤ 65535 ∧ t = showFrame (encodeFrame dest src msgId payload) s := by
  simp only [exec, execEncodeMsg] at h
  split at h <;> cases h
  next hlen => exact ⟨hlen, rfl⟩

theorem exec_quiet {i : Instr} {s t : State} (hrow : rowState i = none) (hreset : i ≠ .reset)
    (h : exec i s = .next t) : Quiet s t := by
  cases i <;> cases hrow
  case reset.refl => exact absurd rfl hreset
  case resume.refl => cases h; exact ⟨rfl, nofun, id⟩
  case extract.refl =>
    obtain ⟨st, -, hx⟩ | ⟨-, hx⟩ := extract_cases s <;> cases hx.symm.trans h
    · exact ⟨rfl, id, id⟩
    · exact ⟨rfl, id, nofun⟩
  case encodeMsg.refl =>
    obtain ⟨-, rfl⟩ := exec_encodeMsg_next h
    exact ⟨rfl, id, id⟩
  all_goals cases h; exact ⟨rfl, id, id⟩

/-- Settles O56: of `Quiet`'s changes, the halt, the snapshot and the counter belong to the three commands named. -/
theorem onlyTheseChangeState : Obligations.OnlyTheseChangeState := by
  unfold Obligations.OnlyTheseChangeState
  intro i s t hrow hresume hextract hunhandled hreset h
  cases i <;> cases hrow
  case resume.refl => exact absurd rfl hresume
  case extract.refl => exact absurd rfl hextract
  case unhandledInc.refl => exact absurd rfl hunhandled
  case reset.refl => exact absurd rfl hreset
  case encodeMsg.refl =>
    obtain ⟨-, rfl⟩ := exec_encodeMsg_next h
    rfl
  all_goals cases h; rfl

/-! ### Port reads and EXTRACT -/

/-- Settles O17: the reads show what they showed before; after a success no snapshot is valid (`extract_cases`). -/
theorem readsIdempotentExtractNot : Obligations.ReadsIdempotentExtractNot := by
  unfold Obligations.ReadsIdempotentExtractNot
  refine ⟨fun s t a h => ?reg, fun s t i h => ?buf, fun s t h hok => ?extract⟩
  case reg => cases h; exact ⟨rfl, rfl⟩
  case buf => cases h; exact ⟨rfl, rfl⟩
  case extract =>
    obtain ⟨st, hst, hx⟩ | ⟨hv, hx⟩ := extract_cases s <;> cases hx.symm.trans h
    · exact absurd hok hst
    · exact ⟨hv, Extractor42.extract_of_nothingPending rfl⟩

/-- Settles O20: `bufByte` is the written byte, or the draw where there is none. -/
theorem bufferRead : Obligations.BufferRead := by
  unfold Obligations.BufferRead
  refine fun s i => ⟨bufByte s i.toNat, rfl, fun w hw => ?written, State10.bufByte_of_unwritten⟩
  case written => rw [bufByte, hw, Option.getD_some]

/-! ### RESET -/

theorem status_zero {s : State} (hs : s.fsm = .idle) (hh : s.halted = false) (hv : s.lvValid = false) :
    regWindow s 0x0#4 = 0 := by
  simp [regWindow, statusReg, hs, hh, hv, stateCode]

/-- Settles O27: RESET is one record; an edge with `rst` is the reads and then RESET (`portEdge_rst`). -/
theorem resetOperation : Obligations.ResetOperation := by
  unfold Obligations.ResetOperation
  intro s
  refine ⟨⟨_, rfl, rfl, fun _ => State10.bufByte_of_unwritten rfl, status_zero rfl rfl rfl⟩, Bool.and_false _,
    fun p hrst => ?_⟩
  exact ⟨_, portEdge_rst hrst s, rfl, rfl⟩

/-! ### The start of payload capture (R122) -/

/-- The state after LEN_START took the high length byte `b`. -/
def captureStarted (b : Byte) (s : State) : State :=
  { s with
    fsm := .sawLenHi
    pendLen := setHighByte s.pendLen b
    pendIndex := 0#10
    chkA := s.chkA + b
    chkB := s.chkB + (s.chkA + b)
    lvValid := false
    overruns := if s.lvValid = true then s.overruns + 1 else s.overruns
    out := { s.out with evt := if s.lvValid = true then .overrun else .noEvent } }

/-- LEN_START's writes as one record: the overrun test is a matter of `lv_valid` before it. -/
theorem lenStart_writes (b : Byte) (s : State) :
    overrunTest (goto .sawLenHi { takeLenHi b s with pendIndex := 0#10 }) = captureStarted b s := by
  cases hv : s.lvValid with
  | true => rw [overrunTest_valid (by exact hv)]; simp [captureStarted, hv]; rfl
  | false =>
    rw [overrunTest_invalid (by exact hv)]
    simp [captureStarted, emit, goto, takeLenHi, accumulate, State.withChk, chkAcc, hv]

theorem lenStart_runs {s : State} {b : Byte} (hh : s.halted = false) (hs : s.fsm = .sawLenLo)
    (hpos : 1 ≤ 256 * b.toNat + s.pendLen.toNat % 256) (hmax : 256 * b.toNat + s.pendLen.toNat % 256 ≤ 1023) :
    byteStep b s = .next (captureStarted b s) := by
  rw [← lenStart_writes]
  exact (Parser41.row_runs (i := .lenStart b) rfl rfl hh hs
    ((condition_lenStart b _).mpr ⟨hpos, Nat.lt_succ_of_le hmax⟩)).2

/-! ### When `lv_valid` changes (R154) -/

/-- The one operation that sets `lv_valid`, and the three that clear it. -/
theorem exec_lvValid {i : Instr} {s t : State} (h : exec i s = .next t) :
    t.lvValid = s.lvValid ∨ (t.lvValid = true ∧ ∃ b, i = .chkbOk b) ∨
      (t.lvValid = false ∧ (s.lvValid = true → (∃ b, i = .lenStart b ∧ t.overruns = s.overruns + 1) ∨
        (i = .extract ∧ t.out.extStatus = .ok) ∨ i = .reset)) := by
  cases i
  case chkbOk b =>
    obtain ⟨-, -, -, rfl⟩ := byteRow_next h
    exact .inr (.inl ⟨rfl, b, rfl⟩)
  case lenStart b =>
    obtain ⟨-, -, -, rfl⟩ := byteRow_next h
    rw [lenStart_writes]
    exact .inr (.inr ⟨rfl, fun hv => .inl ⟨b, rfl, if_pos hv⟩⟩)
  case extract =>
    obtain ⟨st, -, hx⟩ | ⟨-, hx⟩ := extract_cases s <;> cases hx.symm.trans h
    · exact .inl rfl
    · exact .inr (.inr ⟨rfl, fun _ => .inr (.inl ⟨rfl, rfl⟩)⟩)
  case reset => cases h; exact .inr (.inr ⟨rfl, fun _ => .inr (.inr rfl)⟩)
  case encodeMsg =>
    obtain ⟨-, rfl⟩ := exec_encodeMsg_next h
    exact .inl rfl
  case nop | resume | unhandledInc | readReg | readBuf | chkHold | chkClear | chkAcc => cases h; exact .inl rfl
  all_goals
    obtain ⟨-, -, -, rfl⟩ := byteRow_next h
    exact .inl rfl

/-- Settles O43, by `exec_lvValid`. -/
theorem validFlagTransitions : Obligations.ValidFlagTransitions := by
  unfold Obligations.ValidFlagTransitions
  intro i s t h
  obtain hsame | ⟨hset, hchkb⟩ | ⟨hcleared, hby⟩ := exec_lvValid h
  · rw [hsame]
    exact ⟨fun h0 h1 => absurd (h0.symm.trans h1) nofun, fun h1 h0 => absurd (h0.symm.trans h1) nofun⟩
  · exact ⟨fun _ _ => hchkb, fun _ h0 => absurd (h0.symm.trans hset) nofun⟩
  · exact ⟨fun _ h1 => absurd (hcleared.symm.trans h1) nofun, fun hv _ => hby hv⟩

/-! ### A byte step, row by row -/

/-- What holds of every row's writes holds after a byte step: `byteStep_cases` with the rows by name, LEN_START's writes
as one record. -/
theorem byteStep_rows {b : Byte} {s t : State} (h : byteStep b s = .next t) {motive : State → Prop}
    (idleSync0 : s.fsm = .idle → b = 0x76#8 → motive (emit .noEvent (goto .sawSync0 s)))
    (idleSkip : s.fsm = .idle → b ≠ 0x76#8 → motive (emit .noEvent s))
    (s0Sync1 : s.fsm = .sawSync0 → b = 0x63#8 → motive (emit .noEvent (goto .sawSync1 (clearChk s))))
    (s0Mismatch : s.fsm = .sawSync0 → b ≠ 0x63#8 → motive (recover .errSync s))
    (hdrDest : s.fsm = .sawSync1 → motive (emit .noEvent (goto .sawDestAddr (accumulate b { s with pendDest := b }))))
    (hdrSrc : s.fsm = .sawDestAddr → motive (emit .noEvent (goto .sawSrcAddr (accumulate b { s with pendSrc := b }))))
    (hdrIdLo : s.fsm = .sawSrcAddr →
      motive (emit .noEvent (goto .sawMsgIdLo (accumulate b { s with pendMsgid := setLowByte s.pendMsgid b }))))
    (hdrIdHi : s.fsm = .sawMsgIdLo →
      motive (emit .noEvent (goto .sawMsgIdHi (accumulate b { s with pendMsgid := setHighByte s.pendMsgid b }))))
    (hdrLenLo : s.fsm = .sawMsgIdHi →
      motive (emit .noEvent (goto .sawLenLo (accumulate b { s with pendLen := setLowByte s.pendLen b }))))
    (lenOver : s.fsm = .sawLenLo → 1024 ≤ 256 * b.toNat + s.pendLen.toNat % 256 →
      motive (recover .errLen (takeLenHi b s)))
    (lenZero : s.fsm = .sawLenLo → b = 0x00#8 → s.pendLen.toNat % 256 = 0 →
      motive (emit .noEvent (goto .awaitChecksumA (takeLenHi b s))))
    (lenStart : s.fsm = .sawLenLo → 1 ≤ 256 * b.toNat + s.pendLen.toNat % 256 →
      256 * b.toNat + s.pendLen.toNat % 256 < 1024 → motive (captureStarted b s))
    (payByte : s.fsm = .sawLenHi → s.pendIndex.toNat + 1 < s.pendLen.toNat →
      motive (emit .noEvent (accumulate b (storePayload b s))))
    (payLast : s.fsm = .sawLenHi → s.pendIndex.toNat + 1 = s.pendLen.toNat →
      motive (emit .noEvent (goto .awaitChecksumA (accumulate b (storePayload b s)))))
    (chkaOk : s.fsm = .awaitChecksumA → b = s.chkA → motive (emit .noEvent (goto .awaitChecksumB s)))
    (chkaBad : s.fsm = .awaitChecksumA → b ≠ s.chkA → motive (recover .errChkA s))
    (chkbOk : s.fsm = .awaitChecksumB → b = s.chkB → motive (successHalt (countValid (setValid (takeSnapshot s)))))
    (chkbBad : s.fsm = .awaitChecksumB → b ≠ s.chkB → motive (recover .errChkB s)) : motive t := by
  obtain ⟨-, hrows⟩ := byteStep_cases h
  rw [lenStart_writes] at hrows
  rcases hrows with ⟨hs, hb, rfl⟩ | ⟨hs, hb, rfl⟩ | ⟨hs, hb, rfl⟩ | ⟨hs, hb, rfl⟩ | ⟨hs, rfl⟩ | ⟨hs, rfl⟩ | ⟨hs, rfl⟩ |
    ⟨hs, rfl⟩ | ⟨hs, rfl⟩ | ⟨hs, hlen, rfl⟩ | ⟨hs, hb, hlow, rfl⟩ | ⟨hs, hpos, hmax, rfl⟩ | ⟨hs, hmore, rfl⟩ |
    ⟨hs, hlast, rfl⟩ | ⟨hs, hb, rfl⟩ | ⟨hs, hb, rfl⟩ | ⟨hs, hb, rfl⟩ | ⟨hs, hb, rfl⟩
  · exact idleSync0 hs hb
  · exact idleSkip hs hb
  · exact s0Sync1 hs hb
  · exact s0Mismatch hs hb
  · exact hdrDest hs
  · exact hdrSrc hs
  · exact hdrIdLo hs
  · exact hdrIdHi hs
  · exact hdrLenLo hs
  · exact lenOver hs hlen
  · exact lenZero hs hb hlow
  · exact lenStart hs hpos hmax
  · exact payByte hs hmore
  · exact payLast hs hlast
  · exact chkaOk hs hb
  · exact chkaBad hs hb
  · exact chkbOk hs hb
  · exact chkbBad hs hb

/-! ### The event of a byte step (R78, R129, R202) -/

/-- A byte step's event, with what it counts and whether it halts the parser; an error is `recover` alone, but for the
accumulation of LEN_OVER. -/
theorem byteStep_event {b : Byte} {s t : State} (h : byteStep b s = .next t) :
    (t.out.evt = .noEvent ∧ State10.counters t = State10.counters s ∧ t.halted = false) ∨
    (t.out.evt = .packetValid ∧ State10.counters t = State10.counters (countValid s) ∧ t.halted = true) ∨
    (t.out.evt = .overrun ∧ State10.counters t = State10.counters (countOverrun s) ∧ t.halted = false ∧
      t.fsm = .sawLenHi) ∨
    (∃ e, (e = .errSync ∨ e = .errChkA ∨ e = .errChkB) ∧ t = recover e s) ∨
    t = recover .errLen (takeLenHi b s) := by
  obtain ⟨hh, -⟩ := byteStep_cases h
  apply byteStep_rows h
  case s0Mismatch => exact fun _ _ => .inr (.inr (.inr (.inl ⟨_, .inl rfl, rfl⟩)))
  case chkaBad => exact fun _ _ => .inr (.inr (.inr (.inl ⟨_, .inr (.inl rfl), rfl⟩)))
  case chkbBad => exact fun _ _ => .inr (.inr (.inr (.inl ⟨_, .inr (.inr rfl), rfl⟩)))
  case lenOver => exact fun _ _ => .inr (.inr (.inr (.inr rfl)))
  case chkbOk => exact fun _ _ => .inr (.inl ⟨rfl, rfl, rfl⟩)
  case lenStart =>
    intro _ _ _
    cases hv : s.lvValid with
    | true => exact .inr (.inr (.inl (by simp [captureStarted, State10.counters, bump, hv, hh])))
    | false => exact .inl (by simp [captureStarted, State10.counters, hv, hh])
  all_goals intros; exact .inl ⟨rfl, rfl, hh⟩

/-- Settles O45, by `byteStep_event`. -/
theorem eventNamesTheCounter : Obligations.EventNamesTheCounter := by
  unfold Obligations.EventNamesTheCounter
  refine ⟨⟨rfl, rfl, rfl, rfl, rfl, rfl, rfl⟩, fun b s t h => ⟨Extractor42.byteStep_unhandledPackets h, ?_⟩⟩
  obtain ⟨he, hc, -⟩ | ⟨he, hc, -⟩ | ⟨he, hc, -⟩ | ⟨e, rfl | rfl | rfl, rfl⟩ | rfl := byteStep_event h
  case inr.inr.inr.inr => exact ⟨rfl, rfl, rfl⟩
  case inr.inr.inr.inl.inl | inr.inr.inr.inl.inr.inl | inr.inr.inr.inl.inr.inr => exact ⟨rfl, rfl, rfl⟩
  all_goals
    rw [he]
    obtain ⟨hv, hp, ho, -⟩ := (State10.counters_eq_iff _ _).mp hc
    exact ⟨hv, hp, ho⟩

/-- Settles O46, by `byteStep_event`. -/
theorem errorRecovery : Obligations.ErrorRecovery := by
  unfold Obligations.ErrorRecovery
  intro b s t h
  obtain ⟨he, -⟩ | ⟨he, -⟩ | ⟨he, -, -, hs⟩ | ⟨e, hkind, rfl⟩ | rfl := byteStep_event h
  case inl | inr.inl => simp [he]
  case inr.inr.inl => simp [he, hs]
  case inr.inr.inr.inl =>
    exact ⟨fun _ => ⟨rfl, fun _ => ⟨rfl, rfl, rfl⟩⟩, fun ho => by obtain rfl | rfl | rfl := hkind <;> cases ho⟩
  case inr.inr.inr.inr => exact ⟨fun _ => ⟨rfl, fun hne => absurd rfl hne⟩, nofun⟩

/-! ### What a byte step leaves alone -/

/-- A byte step writes the parser's own registers, the snapshot, the halt, three counters, the buffer and the event. -/
theorem byteStep_frame {b : Byte} {s t : State} (h : byteStep b s = .next t) :
    t = { s with fsm := t.fsm, pendDest := t.pendDest, pendSrc := t.pendSrc, pendMsgid := t.pendMsgid,
                 pendLen := t.pendLen, pendIndex := t.pendIndex, chkA := t.chkA, chkB := t.chkB, lvDest := t.lvDest,
                 lvSrc := t.lvSrc, lvMsgid := t.lvMsgid, lvLen := t.lvLen, lvChkA := t.lvChkA, lvChkB := t.lvChkB,
                 lvValid := t.lvValid, halted := t.halted, validPackets := t.validPackets,
                 parseErrors := t.parseErrors, overruns := t.overruns, buf := t.buf,
                 out := { s.out with evt := t.out.evt } } := by
  apply byteStep_rows h <;> intros <;> rfl

/-! ### A clock edge -/

/-- The command of an edge is one of the four commands, which all answer. -/
theorem commandEdge_exec (c : BitVec 3) (s : State) :
    ∃ i u, rowState i = none ∧ i ≠ .reset ∧ commandEdge c s = exec i s ∧ exec i s = .next u := by
  obtain h | ⟨-, h⟩ | ⟨-, h⟩ | ⟨-, h⟩ := commandEdge_cases c s
  · exact ⟨.nop, s, rfl, nofun, h, rfl⟩
  · exact ⟨.resume, unhalt s, rfl, nofun, h, rfl⟩
  · obtain ⟨u, hu, -⟩ := execExtract_next s
    exact ⟨.extract, u, rfl, nofun, h, hu⟩
  · exact ⟨.unhandledInc, countUnhandled s, rfl, nofun, h, rfl⟩

/-- An edge without `rst` after its command. -/
theorem portEdge_of_command {p : PortIn} {s u : State} (hrst : p.rst = false)
    (hcmd : commandEdge p.cmd (afterReads p s) = .next u) :
    portEdge p s = andThen (beatEdge p (inReady s false) u) fun v => .next (encoderEdge p v) := by
  rw [portEdge_run hrst, hcmd, andThen_next_left]

/-- A byte offered while the parser is not halted is taken. -/
theorem beatEdge_taken {p : PortIn} {s : State} (hv : p.inValid = true) (hh : s.halted = false) (u : State) :
    beatEdge p (inReady s false) u = byteStep p.inData u := by
  simp [beatEdge, inReady, hv, hh]

theorem beatEdge_notTaken {p : PortIn} {s : State} (h : p.inValid = false ∨ s.halted = true) (u : State) :
    beatEdge p (inReady s false) u = .next u := by
  obtain h | h := h <;> simp [beatEdge, inReady, h]

/-- A command leaves to the beat all that decides whether it answers. -/
theorem byteStep_answers_of_quiet {b : Byte} {s t : State} (hq : Quiet s t) (h : ∃ v, byteStep b s = .next v) :
    ∃ v, byteStep b t = .next v := by
  rw [Decoding30.byteStep_answers_iff] at h ⊢
  obtain ⟨hh, hcopy⟩ := h
  have hh' : t.halted = false := by
    by_contra hne
    exact absurd (hh.symm.trans (hq.halted (by simpa using hne))) nofun
  rw [hq.frame]
  exact ⟨hh', hcopy⟩

theorem quiet_afterReads (p : PortIn) (s : State) : Quiet s (afterReads p s) := ⟨rfl, id, id⟩

theorem Quiet.trans {s t u : State} (h : Quiet s t) (h' : Quiet t u) : Quiet s u where
  frame := by
    rw [h'.frame, h.frame]
  halted := h.halted ∘ h'.halted
  lvValid := h.lvValid ∘ h'.lvValid

/-- What an edge without `rst` does when its beat, if there is one, has a row: a command's changes, the beat's, the
encoder's. -/
theorem portEdge_parts {p : PortIn} {s : State} (hrst : p.rst = false)
    (hbeat : p.inValid = true → s.halted = false → ∃ v, byteStep p.inData s = .next v) :
    ∃ u v, commandEdge p.cmd (afterReads p s) = .next u ∧ Quiet s u ∧
      (byteStep p.inData u = .next v ∨ v = u) ∧ portEdge p s = .next (encoderEdge p v) := by
  obtain ⟨i, u, hrow, hreset, hcmd, hu⟩ := commandEdge_exec p.cmd (afterReads p s)
  have hq : Quiet s u := (quiet_afterReads p s).trans (exec_quiet hrow hreset hu)
  refine ⟨u, ?_⟩
  rw [portEdge_of_command hrst (hcmd.trans hu)]
  by_cases htaken : p.inValid = true ∧ s.halted = false
  · obtain ⟨hv, hh⟩ := htaken
    obtain ⟨v, hv'⟩ := byteStep_answers_of_quiet hq (hbeat hv hh)
    exact ⟨v, hcmd.trans hu, hq, .inl hv', by rw [beatEdge_taken hv hh, hv', andThen_next_left]⟩
  · have hnot : p.inValid = false ∨ s.halted = true := by
      cases hv : p.inValid <;> cases hh : s.halted <;> simp_all
    exact ⟨u, hcmd.trans hu, hq, .inr rfl, by rw [beatEdge_notTaken hnot, andThen_next_left]⟩

/-- Settles O37: the command runs on the state with the reads shown, the beat on what it leaves (`portEdge_of_command`). -/
theorem commandBeforeBeat : Obligations.CommandBeforeBeat := by
  unfold Obligations.CommandBeforeBeat
  intro p s hrst
  refine ⟨fun i u hd hu => ?order, fun hc hv hh hs hvalid hcap hpos hmax => ?extractFirst,
    fun hc hv hh => ?resumeFirst, fun hc hbeat => ?unhandledBeside⟩
  case order =>
    have hcmd : commandEdge p.cmd (afterReads p s) = .next u := by rw [commandEdge, hd]; exact hu
    rw [portEdge_of_command hrst hcmd]
    exact ⟨fun hv hh => by rw [beatEdge_taken hv hh], fun h => by rw [beatEdge_notTaken h, andThen_next_left]⟩
  case extractFirst =>
    obtain ⟨u, hcmd, hhu, hsu, hlen, hvu, hou, hok⟩ : ∃ u, commandEdge p.cmd (afterReads p s) = .next u ∧
        u.halted = s.halted ∧ u.fsm = s.fsm ∧ u.pendLen = s.pendLen ∧ u.lvValid = false ∧ u.overruns = s.overruns ∧
        u.out.extStatus = .ok :=
      ⟨_, (congrArg (commandEdge · _) hc).trans (Extractor42.extract_of_withinCap (s := afterReads p s) hvalid hcap),
        by simp [afterReads]⟩
    have hbyte := lenStart_runs (hhu.trans hh) (hsu.trans hs) (hlen ▸ hpos) (hlen ▸ hmax)
    refine ⟨_, by rw [portEdge_of_command hrst hcmd, beatEdge_taken hv hh, hbyte, andThen_next_left], ?_⟩
    rw [encoderEdge_frame]
    exact ⟨hok, by simp [captureStarted, hvu], rfl, rfl, by simp [captureStarted, hvu, hou]⟩
  case resumeFirst =>
    have hcmd : commandEdge p.cmd (afterReads p s) = .next (unhalt (afterReads p s)) := by rw [hc]; rfl
    refine ⟨_, by rw [portEdge_of_command hrst hcmd, beatEdge_notTaken (.inr hh), andThen_next_left], ?_⟩
    rw [encoderEdge_frame]
    exact ⟨rfl, rfl, rfl⟩
  case unhandledBeside =>
    obtain ⟨u, v, hcmd, -, hv, hedge⟩ := portEdge_parts hrst hbeat
    have hu : commandEdge p.cmd (afterReads p s) = .next (countUnhandled (afterReads p s)) := by rw [hc]; rfl
    cases hcmd.symm.trans hu
    refine ⟨_, hedge, ?_⟩
    rw [encoderEdge_frame]
    obtain hbyte | rfl := hv
    · exact Extractor42.byteStep_unhandledPackets hbyte
    · rfl

/-! ### A step, once for every claim about steps -/

/-- An operation that is a row of R76 and answers is the byte step of its key's byte. -/
theorem byteStep_of_exec {i : Instr} {s t : State} (hrow : rowState i ≠ none) (h : exec i s = .next t) :
    ∃ b, byteStep b s = .next t := by
  obtain ⟨st, hst⟩ := Option.ne_none_iff_exists'.mp hrow
  obtain ⟨u, hu⟩ := Decoding30.exec_byteRow hst s
  obtain ⟨-, hs, hc, -⟩ := byteRow_next (hu ▸ h)
  obtain ⟨b, hb⟩ : ∃ b, encode i = .key (decodeKey st b) := by
    cases i <;> cases hst
    case idleSync0.refl => exact ⟨0x76#8, rfl⟩
    case s0Sync1.refl => exact ⟨0x63#8, rfl⟩
    case lenZero.refl => exact ⟨0x00#8, rfl⟩
    all_goals exact ⟨_, rfl⟩
  exact ⟨b, (byteStep_of_decode (Parser41.decodeRow_encode (hs ▸ hb) hc)).trans h⟩

/-- An edge that answers: RESET after the reads, or a command, a beat if one is taken, and the encoder. -/
theorem portEdge_next {p : PortIn} {s t : State} (h : portEdge p s = .next t) :
    exec .reset (afterReads p s) = .next t ∨
      ∃ u v, Quiet s u ∧ (byteStep p.inData u = .next v ∨ v = u) ∧ t = encoderEdge p v := by
  cases hrst : p.rst with
  | true => exact .inl ((portEdge_rst hrst s).symm.trans h)
  | false =>
    obtain ⟨i, u, hrow, hreset, hcmd, hu⟩ := commandEdge_exec p.cmd (afterReads p s)
    rw [portEdge_of_command hrst (hcmd.trans hu)] at h
    obtain ⟨v, hbeat, hv⟩ := andThen_next h
    cases hv
    refine .inr ⟨u, v, (quiet_afterReads p s).trans (exec_quiet hrow hreset hu), ?_, rfl⟩
    rw [beatEdge] at hbeat
    split at hbeat
    · exact .inl hbeat
    · cases hbeat; exact .inr rfl

/-- Everything a step is made of. If `P` holds once the input is taken, survives the encoder's edge and every quiet
operation, and a beat or a RESET leads from `P` to `Q`, then `Q` holds after the step. -/
theorem step_induction {P Q : State → Prop} {s t : State} (hstep : step s = .next t)
    (start : ∀ rest, P (opened s rest))
    (encoder : ∀ p u, P u → P (encoderEdge p u))
    (quiet : ∀ u v, P u → Quiet u v → P v)
    (reset : ∀ u v, P u → exec .reset u = .next v → Q v)
    (beat : ∀ b u v, P u → byteStep b u = .next v → Q v)
    (still : ∀ u, P u → Q u)
    (encoderAfter : ∀ p u, Q u → Q (encoderEdge p u)) : Q t := by
  obtain ⟨-, hnext⟩ | ⟨p, rest, -, hnext⟩ | ⟨x, rest, w, -, -, hnext⟩ := step_cases s
  case inl =>
    cases hnext.symm.trans hstep
    exact still _ (encoder _ _ (start []))
  case inr.inl =>
    obtain hreset | ⟨u, v, hq, hbeat, rfl⟩ := portEdge_next (hnext.symm.trans hstep)
    · exact reset _ t (quiet _ _ (start rest) (quiet_afterReads p _)) hreset
    · have hu : P u := quiet _ u (start rest) hq
      refine encoderAfter p v ?_
      obtain hbeat | rfl := hbeat
      · exact beat _ u v hu hbeat
      · exact still v hu
  case inr.inr =>
    have hP : P (encoderIdle (opened s rest)) := encoder _ _ (start rest)
    rw [hnext, runWord] at hstep
    split at hstep
    case h_2 => cases hstep
    case h_1 i _ =>
      by_cases hrow : rowState i = none
      · by_cases hreset : i = .reset
        · exact reset _ t hP (hreset ▸ hstep)
        · exact still t (quiet _ t hP (exec_quiet hrow hreset hstep))
      · obtain ⟨b, hb⟩ := byteStep_of_exec hrow hstep
        exact beat b _ t hP hb

/-- Settles O42: no part of a step writes the parameters. -/
theorem stepKeepsParameters : Obligations.StepKeepsParameters := by
  unfold Obligations.StepKeepsParameters
  intro s t hstep
  refine step_induction (P := fun u => u.params = s.params) (Q := fun u => u.params = s.params) hstep
    (fun _ => rfl) (fun p u hu => ?_) (fun u v hu hq => ?_) (fun u v hu hx => ?_) (fun b u v hu hb => ?_)
    (fun _ => id) (fun p u hu => ?_)
  · rwa [encoderEdge_frame]
  · rwa [hq.frame]
  · cases hx; exact hu
  · rwa [byteStep_frame hb]
  · rwa [encoderEdge_frame]

end Sys2Proof.Proofs.Operations
end

section
/-! PROOFS. The encoder (spec/43_encoder.md): ENCODE beside the other operations (R170, R176), its port stream over a run
of edges (R85, R171), its ports at one edge, and their independence from the rest of the block. -/

namespace Sys2Proof.Proofs.EncoderPorts

open Sys2Proof Sys2Proof.Machine Sys2Proof.Safety Operations

/-! ### What no other operation looks at (R176) -/

/-- Settles O22: the operand check of ENCODE. -/
theorem encodeRefusesOversizedPayload : Obligations.EncodeRefusesOversizedPayload := by
  unfold Obligations.EncodeRefusesOversizedPayload
  exact fun s dest src msgId payload hlen => if_neg (Nat.not_le.mpr hlen)

/-- Change what belongs to the encoder alone: the frame in progress at its ports, and the frame and count shown. -/
def aside (J : Option EncJob → Option EncJob) (F : Option (List Byte) → Option (List Byte))
    (C : Option (BitVec 17) → Option (BitVec 17)) (s : State) : State :=
  { s with encJob := J s.encJob, out := { s.out with frame := F s.out.frame, count := C s.out.count } }

section
variable (J : Option EncJob → Option EncJob) (F : Option (List Byte) → Option (List Byte))
  (C : Option (BitVec 17) → Option (BitVec 17))

theorem byteRow_aside (st : ParserState) (i : Instr) (s u : State) :
    byteRow st i (aside J F C s) (aside J F C u) = andThen (byteRow st i s u) fun t => .next (aside J F C t) := by
  have hhalted : (aside J F C s).halted = s.halted := rfl
  have hfsm : (aside J F C s).fsm = s.fsm := rfl
  have hregs : rowRegs (aside J F C s) = rowRegs s := rfl
  simp only [byteRow, hhalted, hfsm, hregs]
  split_ifs <;> rfl

/-- A row of R76 whose writes leave the encoder aside. -/
theorem row_aside {i : Instr} {st : ParserState} {s u : State} (hx : exec i s = byteRow st i s u)
    (hx' : exec i (aside J F C s) = byteRow st i (aside J F C s) (aside J F C u)) :
    exec i (aside J F C s) = andThen (exec i s) fun t => .next (aside J F C t) := by
  rw [hx, hx', byteRow_aside]

/-- EXTRACT's answer depends on the snapshot and the parameters. -/
theorem extract_aside (s : State) :
    exec .extract (aside J F C s) = andThen (exec .extract s) fun t => .next (aside J F C t) := by
  have hmsg : snapshotMessage (aside J F C s) = snapshotMessage s := by
    rw [Extractor42.snapshotMessage_eq, Extractor42.snapshotMessage_eq]; rfl
  have hvalid : (aside J F C s).lvValid = s.lvValid := rfl
  have hlen : (aside J F C s).lvLen = s.lvLen := rfl
  have hparams : (aside J F C s).params = s.params := rfl
  simp only [exec, execExtract, hmsg, hvalid, hlen, hparams]
  split_ifs <;> rfl

theorem captureStarted_aside (b : Byte) (s : State) :
    captureStarted b (aside J F C s) = aside J F C (captureStarted b s) := rfl

/-- Every operation but RESET, which drops the frame in progress, and ENCODE itself leaves it aside. -/
theorem exec_aside {i : Instr} (hreset : i ≠ .reset) (hencode : ∀ d r m p, i ≠ .encodeMsg d r m p) (s : State) :
    exec i (aside J F C s) = andThen (exec i s) fun t => .next (aside J F C t) := by
  cases i
  case reset => exact absurd rfl hreset
  case encodeMsg d r m p => exact absurd rfl (hencode d r m p)
  case nop | resume | unhandledInc | readReg | readBuf | chkHold | chkClear | chkAcc => rfl
  case extract => exact extract_aside J F C s
  case lenStart b =>
    refine row_aside J F C (st := .sawLenLo) (u := captureStarted b s) ?_ ?_
    · rw [← lenStart_writes]; rfl
    · rw [← captureStarted_aside, ← lenStart_writes]; rfl
  all_goals exact row_aside J F C rfl rfl

end

/-- Settles O23: ENCODE is `showFrame`, which the other operations leave aside (`exec_aside`); RESET keeps what is
shown. -/
theorem encodeIndependentOfParser : Obligations.EncodeIndependentOfParser := by
  unfold Obligations.EncodeIndependentOfParser
  refine ⟨fun s dest src msgId payload i hlen hi => ?commute, fun s s' t t' dest src msgId payload h h' => ?operands⟩
  case commute =>
    have hruns := Encoder43.encodeMsg_runs hlen dest src msgId
    rw [hruns, andThen_next_left]
    by_cases hreset : i = .reset
    · have hx : exec .reset s = .next _ := rfl
      rw [hreset, hx, andThen_next_left, hruns]
      rfl
    · refine (exec_aside id (fun _ => some _) (fun _ => some _) hreset hi s).trans ?_
      exact congrArg (andThen (exec i s)) (funext fun t => (hruns t).symm)
  case operands =>
    obtain ⟨-, rfl⟩ := exec_encodeMsg_next h
    obtain ⟨-, rfl⟩ := exec_encodeMsg_next h'
    exact ⟨rfl, rfl⟩

/-! ### The ports and the parser (R176) -/

/-- The command of an edge leaves the frame in progress aside. -/
theorem commandEdge_withJob (c : BitVec 3) (j : Option EncJob) (s : State) :
    commandEdge c (withJob j s) = andThen (commandEdge c s) fun t => .next (withJob j t) := by
  have hexec : ∀ i, i = .nop ∨ i = .resume ∨ i = .extract ∨ i = .unhandledInc →
      exec i (withJob j s) = andThen (exec i s) fun t => .next (withJob j t) := by
    rintro i (rfl | rfl | rfl | rfl) <;> refine exec_aside (fun _ => j) id id ?_ ?_ s <;> nofun
  unfold commandEdge
  obtain rfl | rfl | rfl | rfl | hreserved := Decoding30.commandCode_cases c
  case inr.inr.inr.inr => rw [Extractor42.decodeCmd_reserved hreserved]; exact hexec _ (by simp)
  all_goals exact hexec _ (by simp)

theorem byteStep_withJob (b : Byte) (j : Option EncJob) (s : State) :
    byteStep b (withJob j s) = andThen (byteStep b s) fun t => .next (withJob j t) := by
  have hsame : ∀ w, decode (rowRegs (withJob j s)) w = decode (rowRegs s) w := fun _ => rfl
  rw [byteStep, byteStep, runWord, runWord, hsame, withJob_fsm]
  cases hd : decode (rowRegs s) (.key (decodeKey s.fsm b)) with
  | rejected e => rfl
  | op i =>
    have hrow := Extractor42.decodeRow_rowState hd
    refine exec_aside (fun _ => j) id id ?_ ?_ s
    · rintro rfl; exact hrow rfl
    · rintro d r m p rfl; exact hrow rfl

theorem beatEdge_withJob (p : PortIn) (ready : Bool) (j : Option EncJob) (s : State) :
    beatEdge p ready (withJob j s) = andThen (beatEdge p ready s) fun t => .next (withJob j t) := by
  unfold beatEdge
  split
  · exact byteStep_withJob _ j s
  · rfl

/-- An edge without `rst` before the encoder's part: the reads, the command, the beat. -/
def beforeEncoder (p : PortIn) (s : State) : Result :=
  andThen (commandEdge p.cmd (afterReads p s)) (beatEdge p (inReady s false))

theorem portEdge_beforeEncoder {p : PortIn} (hrst : p.rst = false) (s : State) :
    portEdge p s = andThen (beforeEncoder p s) fun v => .next (encoderEdge p v) := by
  rw [portEdge_run hrst, beforeEncoder, andThen_assoc]

theorem beforeEncoder_withJob (p : PortIn) (j : Option EncJob) (s : State) :
    beforeEncoder p (withJob j s) = andThen (beforeEncoder p s) fun t => .next (withJob j t) := by
  have hreads : afterReads p (withJob j s) = withJob j (afterReads p s) := rfl
  rw [beforeEncoder, beforeEncoder, hreads, commandEdge_withJob, andThen_assoc, andThen_assoc]
  exact congrArg (andThen _) (funext fun t => beatEdge_withJob p _ j t)

/-- Settles O48: with `rst` the encoder is not asked; otherwise everything before its part leaves its frame aside
(`beforeEncoder_withJob`), and its part writes its own fields alone. -/
theorem encoderPortsDoNotTouchParser : Obligations.EncoderPortsDoNotTouchParser := by
  unfold Obligations.EncoderPortsDoNotTouchParser
  intro p q s s' t hq hs' ht
  have hs' : s' = withJob s'.encJob s := hs'
  have hreads : afterReads q s' = withJob s'.encJob (afterReads p s) := by rw [hq, hs']; rfl
  have hrst : q.rst = p.rst := by rw [hq]
  cases hp : p.rst with
  | true =>
    cases (portEdge_rst hp s).symm.trans ht
    refine ⟨_, portEdge_rst (hrst.trans hp) s', ?_⟩
    rw [hreads]
    rfl
  | false =>
    rw [portEdge_beforeEncoder hp] at ht
    obtain ⟨v, hv, he⟩ := andThen_next ht
    cases he
    have hqv : beforeEncoder q s' = .next (withJob s'.encJob v) := by
      have hsame : beforeEncoder q s' = beforeEncoder p (withJob s'.encJob s) := by rw [hq, ← hs']; rfl
      rw [hsame, beforeEncoder_withJob, hv, andThen_next_left]
    refine ⟨_, by rw [portEdge_beforeEncoder (hrst.trans hp), hqv, andThen_next_left], ?_⟩
    rw [encoderEdge_frame q, encoderEdge_frame p]
    rfl

/-! ### The frame in progress (R85, R171) -/

/-- What has been given so far is bounded by what can be given, and the payload by its length: what `Legal` says of the
encoder. -/
structure InBounds (j : EncJob) : Prop where
  taken : j.taken.length ≤ j.len.toNat
  sent : j.sent ≤ (availableBytes j).length

/-- A payload byte taken adds to the bytes that can be given, and changes none of them. -/
theorem availableBytes_isPrefix (v : Bool) (d : Byte) (r : Bool) (j : EncJob) :
    availableBytes j <+: availableBytes (encAdvance v d r j).1 := by
  have hframe := encAdvance_frame v d r j
  have htaken := encAdvance_taken v d r j
  split at htaken
  · next h =>
    have hne : j.taken.length ≠ j.len.toNat := Nat.ne_of_lt h.2
    rw [availableBytes, if_neg hne, availableBytes, htaken]
    rw [hframe]
    simp only [List.append_nil, List.append_assoc, List.prefix_append_right_inj]
    exact List.prefix_append _ _
  · rw [availableBytes, availableBytes, htaken, hframe]

theorem take_eq_of_isPrefix {l m : List Byte} {n : Nat} (h : l <+: m) (hn : n ≤ l.length) : l.take n = m.take n := by
  obtain ⟨r, rfl⟩ := h
  exact (List.take_append_of_le_length hn).symm

/-- The byte that leaves at an edge, if one does, is the next of those that could. -/
theorem encAdvance_gives (v : Bool) (d : Byte) (r : Bool) {j : EncJob} (hj : InBounds j) :
    (encAdvance v d r j).1.sent ≤ (availableBytes j).length ∧
      (availableBytes j).take (encAdvance v d r j).1.sent =
        (availableBytes j).take j.sent ++ (encAdvance v d r j).2.toList := by
  rw [encAdvance_sent]
  cases r with
  | false => simp [hj.sent]
  | true =>
    rw [encAdvance_ready, encOutData]
    cases hb : (availableBytes j)[j.sent]? with
    | none => simp [hj.sent]
    | some b =>
      obtain ⟨hlt, -⟩ := List.getElem?_eq_some_iff.mp hb
      exact ⟨hlt, by rw [Option.toList_some, List.length_singleton, List.take_add_one, hb, Option.toList_some]⟩

/-- An edge keeps the bounds. -/
theorem encAdvance_inBounds (v : Bool) (d : Byte) (r : Bool) {j : EncJob} (hj : InBounds j) :
    InBounds (encAdvance v d r j).1 where
  taken := by
    rw [encAdvance_taken, encAdvance_frame]
    split
    · next h => simpa using h.2
    · exact hj.taken
  sent := (encAdvance_gives v d r hj).1.trans (availableBytes_isPrefix v d r j).length_le

/-- The bytes that have left are the first of those that could, and an edge keeps this so. -/
theorem take_availableBytes_encAdvance (v : Bool) (d : Byte) (r : Bool) {j : EncJob} (hj : InBounds j) :
    (availableBytes (encAdvance v d r j).1).take (encAdvance v d r j).1.sent =
      (availableBytes j).take j.sent ++ (encAdvance v d r j).2.toList := by
  obtain ⟨hle, heq⟩ := encAdvance_gives v d r hj
  rw [← take_eq_of_isPrefix (availableBytes_isPrefix v d r j) hle, heq]

/-- The bytes that can be given begin the frame of every payload that begins with the bytes taken (R171). -/
theorem availableBytes_isPrefix_frame {j : EncJob} {rest : List Byte}
    (h : j.taken.length + rest.length = j.len.toNat) :
    availableBytes j <+: encodeFrame j.dest j.src j.msgId (j.taken ++ rest) := by
  have hlen : BitVec.ofNat 16 (j.taken ++ rest).length = j.len := by
    rw [List.length_append, h, BitVec.ofNat_toNat, BitVec.setWidth_eq]
  rw [availableBytes, encodeFrame, hlen]
  split
  · next hall =>
    have hrest : rest = [] := List.eq_nil_of_length_eq_zero (by omega)
    simp [hrest]
  · simp

/-- Once all of the payload has been taken, the bytes that can be given are the frame. -/
theorem availableBytes_eq_frame {j : EncJob} (h : j.taken.length = j.len.toNat) :
    availableBytes j = encodeFrame j.dest j.src j.msgId j.taken := by
  have hpre := availableBytes_isPrefix_frame (rest := []) (h : j.taken.length + 0 = j.len.toNat)
  rw [List.append_nil] at hpre
  refine hpre.eq_of_length ?_
  rw [availableBytes_length, if_pos h, Encoder43.encodeFrame_length]
  omega

/-! ### A run of edges -/

/-- What a run of edges from a start keeps: the operands, the bounds, and which bytes have left. -/
structure Emitting (start j : EncJob) (gone : List Byte) : Prop where
  operands : j = { start with taken := j.taken, sent := j.sent }
  bounds : InBounds j
  gone : gone = (availableBytes j).take j.sent

theorem encRun_emitting {start j : EncJob} {gone : List Byte} (h : Emitting start j gone)
    (ins : List (Bool × Byte × Bool)) : Emitting start (encRun j ins).1 (gone ++ (encRun j ins).2) := by
  induction ins generalizing j gone with
  | nil => simpa [encRun] using h
  | cons e rest ih =>
    obtain ⟨v, d, r⟩ := e
    have hnext : Emitting start (encAdvance v d r j).1 (gone ++ (encAdvance v d r j).2.toList) := by
      refine ⟨?_, encAdvance_inBounds v d r h.bounds, ?_⟩
      · rw [encAdvance_frame, h.operands]
      · rw [take_availableBytes_encAdvance v d r h.bounds, h.gone]
    simpa [encRun] using ih hnext

/-- The payload bytes that a run of edges offers. -/
def offered (ins : List (Bool × Byte × Bool)) : List Byte := (ins.filter (fun e => e.1)).map (fun e => e.2.1)

theorem offered_cons (v : Bool) (d : Byte) (r : Bool) (rest : List (Bool × Byte × Bool)) :
    offered ((v, d, r) :: rest) = if v = true then d :: offered rest else offered rest := by
  cases v <;> rfl

/-- A run of edges takes the bytes offered, in order, until the length is reached. -/
theorem encRun_taken {j : EncJob} (hj : InBounds j) (ins : List (Bool × Byte × Bool)) :
    (encRun j ins).1.taken = (j.taken ++ offered ins).take j.len.toNat := by
  induction ins generalizing j with
  | nil => simp [encRun, offered, List.take_of_length_le hj.taken]
  | cons e rest ih =>
    obtain ⟨v, d, r⟩ := e
    have hlen : (encAdvance v d r j).1.len = j.len := rfl
    rw [encRun, ih (encAdvance_inBounds v d r hj), hlen, encAdvance_taken, offered_cons]
    split
    · next h => rw [if_pos h.1, List.append_assoc, List.singleton_append]
    · next h =>
      split
      · next hv =>
        have hfull : j.taken.length = j.len.toNat := le_antisymm hj.taken (Nat.not_lt.mp fun hlt => h ⟨hv, hlt⟩)
        rw [List.take_left' hfull, List.take_left' hfull]
      · rfl

/-- Nothing leaves while the consumer is not ready. -/
theorem encRun_notReady {ins : List (Bool × Byte × Bool)} (h : ∀ e ∈ ins, e.2.2 = false) (j : EncJob) :
    (encRun j ins).2 = [] := by
  induction ins generalizing j with
  | nil => rfl
  | cons e rest ih =>
    obtain ⟨v, d, r⟩ := e
    obtain rfl : r = false := h _ List.mem_cons_self
    rw [encRun, ih fun e he => h e (List.mem_cons_of_mem _ he)]
    rfl

/-- Once all of the payload has been taken, each edge with the consumer ready gives a byte, until the frame is out. -/
theorem encRun_ready {j : EncJob} (hall : j.taken.length = j.len.toNat) {n : Nat}
    (hn : j.sent + n ≤ j.len.toNat + 10) :
    (encRun j (List.replicate n (false, 0x00#8, true))).2.length = n := by
  induction n generalizing j with
  | zero => rfl
  | succ n ih =>
    have hsome : (encOutData j).isSome = true := by
      rw [encOutData_isSome, availableBytes_length, if_pos hall]
      exact decide_eq_true (by omega)
    obtain ⟨b, hb⟩ := Option.isSome_iff_exists.mp hsome
    have hsent : (encAdvance false 0x00#8 true j).1.sent = j.sent + 1 := by
      rw [encAdvance_sent, encAdvance_ready, hb]; rfl
    have hnext := ih (j := (encAdvance false 0x00#8 true j).1) hall (by
      rw [hsent]; show j.sent + 1 + n ≤ j.len.toNat + 10; omega)
    rw [List.replicate_succ, encRun, encAdvance_ready, hb]
    simpa using hnext

/-- A frame being emitted has given as many bytes as it counts. -/
theorem Emitting.length {start j : EncJob} {gone : List Byte} (h : Emitting start j gone) :
    gone.length = j.sent := by
  rw [h.gone, List.length_take, min_eq_left h.bounds.sent]

/-- When all `n + 10` bytes have left they are the frame. -/
theorem Emitting.whole {start j : EncJob} {gone : List Byte} (h : Emitting start j gone)
    (hsent : j.sent = j.len.toNat + 10) :
    j.taken.length = j.len.toNat ∧ gone = encodeFrame j.dest j.src j.msgId j.taken := by
  have hle := h.bounds.sent
  have htaken := h.bounds.taken
  rw [availableBytes_length] at hle
  have hall : j.taken.length = j.len.toNat := by
    by_contra hne
    rw [if_neg hne] at hle
    omega
  refine ⟨hall, ?_⟩
  rw [h.gone, availableBytes_eq_frame hall, List.take_of_length_le]
  rw [Encoder43.encodeFrame_length]
  omega

/-- A frame never gives more than `n + 10` bytes. -/
theorem InBounds.sent_le {j : EncJob} (h : InBounds j) : j.sent ≤ j.len.toNat + 10 := by
  have hsent := h.sent
  have htaken := h.taken
  rw [availableBytes_length] at hsent
  split at hsent <;> omega

/-- A byte can leave exactly while it is wanted and its inputs have been taken. -/
theorem encOutData_isSome_iff (j : EncJob) :
    (encOutData j).isSome = true ↔
      j.sent < 8 + j.taken.length ∨ (j.taken.length = j.len.toNat ∧ j.sent < j.len.toNat + 10) := by
  rw [encOutData_isSome, decide_eq_true_iff, availableBytes_length]
  split <;> omega

/-- What leaves at an edge with the consumer ready, as a number. -/
theorem encOutData_toList_length (j : EncJob) :
    (encOutData j).toList.length = if (encOutData j).isSome = true then 1 else 0 := by
  cases encOutData j <;> rfl

/-- One edge more, after a run. -/
theorem encRun_oneMore (start : EncJob) (ins : List (Bool × Byte × Bool)) (v : Bool) (d : Byte) (r : Bool) :
    (encRun start (ins ++ [(v, d, r)])).2 =
      (encRun start ins).2 ++ (encAdvance v d r (encRun start ins).1).2.toList := by
  rw [encRun_append]
  simp [encRun]

theorem encDone_of_whole {s : State} {j : EncJob} (hj : s.encJob = some j) (hsent : j.sent = j.len.toNat + 10) :
    encDone s = true ∧ encBusy s = false ∧ ∃ c, encCount s = some c ∧ c.toNat = j.len.toNat + 10 := by
  have hcount : j.sent = jobCount j := hsent
  refine ⟨by simp [encDone, hj, hcount], by simp [encBusy, hj, hcount], BitVec.ofNat 17 (jobCount j),
    by simp [encCount, hj, hcount], ?_⟩
  have := j.len.isLt
  rw [BitVec.toNat_ofNat, ← hcount, hsent]
  omega

/-- A run keeps the frame's operands. -/
theorem Emitting.operands_eq {start j : EncJob} {gone : List Byte} (h : Emitting start j gone) :
    j.dest = start.dest ∧ j.src = start.src ∧ j.msgId = start.msgId ∧ j.len = start.len := by
  rw [h.operands]
  exact ⟨rfl, rfl, rfl, rfl⟩

/-- A whole payload offered first, then `n + 10` edges with the consumer ready, give exactly its frame. -/
theorem encRun_wholePayload {start : EncJob} (hzero : Emitting start start []) (hempty : start.taken = [])
    {payload : List Byte} (hlen : payload.length = start.len.toNat) :
    (encRun start (payload.map (fun d => (true, d, false)) ++
      List.replicate (start.len.toNat + 10) (false, 0x00#8, true))).2 =
      encodeFrame start.dest start.src start.msgId payload := by
  have hfirst : (encRun start (payload.map fun d => (true, d, false))).2 = [] := encRun_notReady (by simp) start
  have hfill : offered (payload.map fun d => (true, d, false)) = payload := by
    simp [offered, List.filter_map, Function.comp_def]
  generalize (payload.map fun d => (true, d, false)) = fill at hfirst hfill ⊢
  have hfilled := encRun_emitting hzero fill
  rw [List.nil_append] at hfilled
  obtain ⟨-, -, -, hlenFilled⟩ := hfilled.operands_eq
  have hsent : (encRun start fill).1.sent = 0 := by rw [← hfilled.length, hfirst]; rfl
  have hall : (encRun start fill).1.taken = payload := by
    rw [encRun_taken hzero.bounds, hempty, hfill, List.nil_append, List.take_of_length_le hlen.le]
  have hready := encRun_ready (j := (encRun start fill).1) (n := start.len.toNat + 10)
    (by rw [hall, hlen, hlenFilled]) (by rw [hsent, hlenFilled, Nat.zero_add])
  have hlast : (encRun start (fill ++ List.replicate (start.len.toNat + 10) (false, 0x00#8, true))).2.length =
      start.len.toNat + 10 := by
    rw [encRun_append, hfirst, List.nil_append, hready]
  have hoffered : offered (fill ++ List.replicate (start.len.toNat + 10) (false, 0x00#8, true)) = payload := by
    rw [← hfill]
    simp [offered]
  generalize fill ++ List.replicate (start.len.toNat + 10) (false, 0x00#8, true) = whole at hlast hoffered ⊢
  have hemitted := encRun_emitting hzero whole
  rw [List.nil_append] at hemitted
  obtain ⟨hdest, hsrc, hmsgId, hlenW⟩ := hemitted.operands_eq
  have htaken : (encRun start whole).1.taken = payload := by
    rw [encRun_taken hzero.bounds, hempty, hoffered, List.nil_append, List.take_of_length_le hlen.le]
  rw [(hemitted.whole (by rw [← hemitted.length, hlast, hlenW])).2, hdest, hsrc, hmsgId, htaken]

/-- Settles O24: the run keeps `Emitting`; what could leave begins the frame (`availableBytes_isPrefix_frame`). -/
theorem encoderStreamEmitsFrame : Obligations.EncoderStreamEmitsFrame := by
  unfold Obligations.EncoderStreamEmitsFrame
  intro dest src msgId len start hstart
  have hzero : Emitting start start [] := by subst hstart; exact ⟨rfl, ⟨Nat.zero_le _, Nat.zero_le _⟩, rfl⟩
  have hrun : ∀ ins, Emitting start (encRun start ins).1 (encRun start ins).2 := encRun_emitting hzero
  refine ⟨fun ins j gone hj => ?run, fun payload hlen => ?frame⟩
  case run =>
    obtain ⟨rfl, rfl⟩ : j = (encRun start ins).1 ∧ gone = (encRun start ins).2 := by rw [hj]; exact ⟨rfl, rfl⟩
    have h := hrun ins
    have htaken : (encRun start ins).1.taken = (offered ins).take len.toNat := by
      rw [encRun_taken hzero.bounds, hstart]; rfl
    obtain ⟨rfl, rfl, rfl, rfl⟩ : (encRun start ins).1.dest = dest ∧ (encRun start ins).1.src = src ∧
        (encRun start ins).1.msgId = msgId ∧ (encRun start ins).1.len = len := by
      subst hstart; exact h.operands_eq
    refine ⟨htaken, h.length, h.bounds.sent_le, fun rest hrest => ?beginsFrame,
      fun v d => ⟨?notReady, ?ready⟩, fun hsent => ?whole⟩
    case beginsFrame => exact h.gone.trans (take_eq_of_isPrefix (availableBytes_isPrefix_frame hrest) h.bounds.sent)
    case notReady => rw [encRun_oneMore, encAdvance_notReady, Option.toList_none, List.append_nil]
    case ready =>
      rw [encRun_oneMore, encAdvance_ready, List.length_append, encOutData_toList_length,
        if_congr (encOutData_isSome_iff _) rfl rfl]
      split <;> rfl
    case whole => exact ⟨(h.whole hsent).2, fun s hs => encDone_of_whole hs hsent⟩
  case frame =>
    subst hstart
    exact encRun_wholePayload hzero rfl hlen

/-! ### The ports at one edge -/

/-- A beat and a command leave the frame in progress to the encoder. -/
theorem encJob_of_parts {b : Byte} {s u v : State} (hq : Quiet s u) (hv : byteStep b u = .next v ∨ v = u) :
    v.encJob = s.encJob := by
  have hu : u.encJob = s.encJob := by rw [hq.frame]
  obtain hv | rfl := hv
  · rw [byteStep_frame hv, hu]
  · exact hu

theorem encBusy_congr {s t : State} (h : t.encJob = s.encJob) : encBusy t = encBusy s := by
  rw [encBusy, encBusy, h]

/-- Settles O25: with `rst` the edge is RESET; at any other edge (`portEdge_parts`) the encoder finds its frame as it
was, and either takes a start (`encoderEdge_free`) or advances the frame (`encoderEdge_busy`). -/
theorem encoderPortsAtEdge : Obligations.EncoderPortsAtEdge := by
  unfold Obligations.EncoderPortsAtEdge
  refine fun p s => ⟨fun hrst => ⟨_, portEdge_rst hrst s, rfl⟩, fun hrst hbeat => ?_⟩
  obtain ⟨u, v, -, hq, hv, hedge⟩ := portEdge_parts hrst hbeat
  have hjob := encJob_of_parts hq hv
  have hbusy := encBusy_congr hjob
  refine ⟨_, hedge, fun hfree => ?free, fun j hj hb _ => ?busy⟩
  case free =>
    rw [encoderEdge_free p (hbusy.trans hfree)]
    exact ⟨rfl, rfl⟩
  case busy =>
    have hunsent : j.sent < j.len.toNat + 10 := by
      rw [encBusy, hj] at hb
      exact of_decide_eq_true hb
    have hgives := encOutData_isSome_iff j
    rw [encoderEdge_busy p (hjob.trans hj) (hbusy.trans hb)]
    refine ⟨_, rfl, encAdvance_frame .., encAdvance_taken .., fun hready hnext => ?gives, fun hstop => ?waits⟩
    case gives =>
      have hsome := hgives.mpr (hnext.imp_right fun hall => ⟨hall, hunsent⟩)
      obtain ⟨b, hb⟩ := Option.isSome_iff_exists.mp hsome
      rw [encAdvance_sent, hready, encAdvance_ready, hb]
      refine ⟨rfl, b, rfl, fun rest hrest => ?_⟩
      obtain ⟨hlt, rfl⟩ := List.getElem?_eq_some_iff.mp hb
      exact List.prefix_iff_getElem?.mp (availableBytes_isPrefix_frame hrest) _ hlt
    case waits =>
      have hnone : (encAdvance p.encPinValid p.encPinData p.encOutReady j).2 = none := by
        obtain hready | ⟨hsent, hmore⟩ := hstop
        · rw [hready, encAdvance_notReady]
        · cases p.encOutReady with
          | false => rfl
          | true =>
            rw [encAdvance_ready, ← Option.not_isSome_iff_eq_none, hgives]
            omega
      rw [encAdvance_sent, hnone]
      exact ⟨rfl, rfl⟩

end Sys2Proof.Proofs.EncoderPorts
end

section
/-! PROOFS. The invariants of spec/10_state.md R36: they hold after reset, every step keeps them, from a legal state a
step stops only where the host asks for nothing, and a valid snapshot is stable. -/

namespace Sys2Proof.Proofs.Invariants

open Sys2Proof Sys2Proof.Machine Sys2Proof.Safety Operations

/-! ### What the invariants read -/

/-- The snapshot's fields and the buffer behind it are the same. -/
structure SnapshotKept (s t : State) : Prop where
  dest : t.lvDest = s.lvDest
  src : t.lvSrc = s.lvSrc
  msgId : t.lvMsgid = s.lvMsgid
  len : t.lvLen = s.lvLen
  chkA : t.lvChkA = s.lvChkA
  chkB : t.lvChkB = s.lvChkB
  buf : t.buf = s.buf
  draws : t.draws = s.draws

/-- The pending packet's registers are the same. -/
structure PendingKept (s t : State) : Prop where
  fsm : t.fsm = s.fsm
  dest : t.pendDest = s.pendDest
  src : t.pendSrc = s.pendSrc
  msgId : t.pendMsgid = s.pendMsgid
  len : t.pendLen = s.pendLen
  index : t.pendIndex = s.pendIndex
  chkA : t.chkA = s.chkA
  chkB : t.chkB = s.chkB

theorem snapshotKept_opened (s : State) (rest : List Input) : SnapshotKept s (opened s rest) :=
  ⟨rfl, rfl, rfl, rfl, rfl, rfl, rfl, rfl⟩

theorem pendingKept_opened (s : State) (rest : List Input) : PendingKept s (opened s rest) :=
  ⟨rfl, rfl, rfl, rfl, rfl, rfl, rfl, rfl⟩

theorem snapshotKept_quiet {s t : State} (h : Quiet s t) : SnapshotKept s t := by
  rw [h.frame]; exact ⟨rfl, rfl, rfl, rfl, rfl, rfl, rfl, rfl⟩

theorem pendingKept_quiet {s t : State} (h : Quiet s t) : PendingKept s t := by
  rw [h.frame]; exact ⟨rfl, rfl, rfl, rfl, rfl, rfl, rfl, rfl⟩

theorem snapshotKept_encoderEdge (p : PortIn) (s : State) : SnapshotKept s (encoderEdge p s) := by
  rw [encoderEdge_frame]; exact ⟨rfl, rfl, rfl, rfl, rfl, rfl, rfl, rfl⟩

theorem pendingKept_encoderEdge (p : PortIn) (s : State) : PendingKept s (encoderEdge p s) := by
  rw [encoderEdge_frame]; exact ⟨rfl, rfl, rfl, rfl, rfl, rfl, rfl, rfl⟩

theorem bufRead_of_same {s t : State} (hb : t.buf = s.buf) (hd : t.draws = s.draws) (i n : Nat) :
    bufRead t i n = bufRead s i n :=
  bufRead_congr fun _ _ => bufByte_congr hb hd _

theorem snapshotMessage_of_kept {s t : State} (h : SnapshotKept s t) : snapshotMessage t = snapshotMessage s := by
  rw [snapshotMessage, snapshotMessage, h.dest, h.src, h.msgId, h.len, bufRead_of_same h.buf h.draws]

theorem capturedLen_of_kept {s t : State} (h : PendingKept s t) : capturedLen t = capturedLen s := by
  rw [capturedLen, capturedLen, h.fsm, h.index, h.len]

theorem coveredBytes_of_kept {s t : State} (hp : PendingKept s t) (hb : t.buf = s.buf) (hd : t.draws = s.draws) :
    coveredBytes t = coveredBytes s := by
  rw [coveredBytes, coveredBytes, capturedLen_of_kept hp, bufRead_of_same hb hd, headerSoFar, headerSoFar, hp.fsm,
    hp.dest, hp.src, hp.msgId, hp.len]

/-! ### `Legal` where the parser does not move -/

theorem legal_of_kept {s t : State} (h : Legal s) (hs : SnapshotKept s t) (hp : PendingKept s t)
    (hv : t.lvValid = true → s.lvValid = true) (hh : t.halted = true → s.halted = true)
    (hj : ∀ j, t.encJob = some j → EncoderPorts.InBounds j) : Legal t where
  bufCanonical := by rw [hs.buf]; exact h.bufCanonical
  copyBounds := by rw [hp.fsm, hp.len, hp.index]; exact h.copyBounds
  acceptedLen := by rw [hp.fsm, hp.len]; exact h.acceptedLen
  snapshotLen := by rw [hs.len]; exact h.snapshotLen ∘ hv
  haltedIdle := by rw [hp.fsm]; exact h.haltedIdle ∘ hh
  captureInvalidates := by
    rw [hp.fsm, hp.len]
    intro hcapture
    rw [← Bool.not_eq_true]
    exact fun hvalid => absurd ((h.captureInvalidates hcapture).symm.trans (hv hvalid)) nofun
  capturedWritten := by rw [capturedLen_of_kept hp, hs.buf]; exact h.capturedWritten
  snapshotWritten := by rw [hs.len, hs.buf]; exact h.snapshotWritten ∘ hv
  encoderBounds := fun j hjob => ⟨(hj j hjob).taken, (hj j hjob).sent⟩

theorem inBounds_of_legal {s : State} (h : Legal s) {j : EncJob} (hj : s.encJob = some j) : EncoderPorts.InBounds j :=
  ⟨(h.encoderBounds j hj).1, (h.encoderBounds j hj).2⟩

theorem legal_opened {s : State} (h : Legal s) (rest : List Input) : Legal (opened s rest) :=
  legal_of_kept h (snapshotKept_opened s rest) (pendingKept_opened s rest) id id fun _ => inBounds_of_legal h

theorem legal_quiet {s t : State} (h : Legal s) (hq : Quiet s t) : Legal t :=
  legal_of_kept h (snapshotKept_quiet hq) (pendingKept_quiet hq) hq.lvValid hq.halted fun j hj =>
    inBounds_of_legal h (by rw [hq.frame] at hj; exact hj)

theorem inBounds_encoderEdge {p : PortIn} {s : State} (h : Legal s) {j : EncJob}
    (hj : (encoderEdge p s).encJob = some j) : EncoderPorts.InBounds j := by
  cases hb : encBusy s with
  | true =>
    obtain ⟨k, hk⟩ : ∃ k, s.encJob = some k := by
      cases hk : s.encJob with
      | none => simp [encBusy, hk] at hb
      | some k => exact ⟨k, rfl⟩
    rw [encoderEdge_busy p hk hb] at hj
    cases hj
    exact EncoderPorts.encAdvance_inBounds _ _ _ (inBounds_of_legal h hk)
  | false =>
    rw [encoderEdge_free p hb, showEncByte_encJob, withJob_encJob] at hj
    split at hj <;> cases hj
    exact ⟨Nat.zero_le _, Nat.zero_le _⟩

theorem legal_encoderEdge {s : State} (h : Legal s) (p : PortIn) : Legal (encoderEdge p s) :=
  legal_of_kept h (snapshotKept_encoderEdge p s) (pendingKept_encoderEdge p s)
    (by rw [encoderEdge_frame]; exact id) (by rw [encoderEdge_frame]; exact id) fun _ => inBounds_encoderEdge h

/-- With nothing pending, nothing promoted, nothing written and nothing being emitted, all bounds hold. -/
theorem legal_of_clear {s : State} (hs : s.fsm = .idle) (hb : s.buf = []) (hv : s.lvValid = false)
    (hj : s.encJob = none) : Legal s := by
  constructor <;> simp [hs, hb, hv, hj, Memory.wf, capturedLen]

theorem legal_reset {s t : State} (h : exec .reset s = .next t) : Legal t := by
  cases h; exact legal_of_clear rfl rfl rfl rfl

/-! ### `Legal` over a beat -/

/-- The states in which payload capture is under way or its result waits for the checksum. -/
def capturing : ParserState → Bool
  | .sawLenHi | .awaitChecksumA | .awaitChecksumB => true
  | .idle | .sawSync0 | .sawSync1 | .sawDestAddr | .sawSrcAddr | .sawMsgIdLo | .sawMsgIdHi | .sawLenLo => false

theorem capturedLen_of_notCapturing {s : State} (h : capturing s.fsm = false) : capturedLen s = 0 := by
  unfold capturedLen
  split <;> simp_all [capturing]

/-- A beat that ends outside payload capture and touches neither the snapshot, its payload nor the encoder. -/
theorem legal_of_notCapturing {s t : State} (h : Legal s) (hs : capturing t.fsm = false) (hb : t.buf = s.buf)
    (hv : t.lvValid = s.lvValid) (hlen : t.lvLen = s.lvLen) (hj : t.encJob = s.encJob) (hh : t.halted = false) :
    Legal t where
  bufCanonical := by rw [hb]; exact h.bufCanonical
  copyBounds hc := by rw [hc] at hs; cases hs
  acceptedLen := by rintro (hc | hc) <;> rw [hc] at hs <;> cases hs
  snapshotLen := by rw [hv, hlen]; exact h.snapshotLen
  haltedIdle hc := absurd (hh.symm.trans hc) nofun
  captureInvalidates := by rintro (hc | ⟨hc | hc, -⟩) <;> rw [hc] at hs <;> cases hs
  capturedWritten i hi := by rw [capturedLen_of_notCapturing hs] at hi; exact absurd hi (Nat.not_lt_zero i)
  snapshotWritten := by rw [hv, hlen, hb]; exact h.snapshotWritten
  encoderBounds := by rw [hj]; exact h.encoderBounds

/-- LEN_ZERO reaches the checksum with length 0, so no snapshot need be gone (C5). -/
theorem legal_lenZero {s : State} (h : Legal s) (hh : s.halted = false) (hlow : s.pendLen.toNat % 256 = 0) :
    Legal (emit .noEvent (goto .awaitChecksumA (takeLenHi 0x00#8 s))) :=
  have hlen : setHighByte s.pendLen 0x00#8 = 0x0000#16 := Parser41.setHighByte_zero hlow
  { bufCanonical := h.bufCanonical
    copyBounds := nofun
    acceptedLen := fun _ => (congrArg BitVec.toNat hlen).trans_le (Nat.zero_le _)
    snapshotLen := h.snapshotLen
    haltedIdle := fun hc => absurd (hh.symm.trans hc) nofun
    captureInvalidates := by
      rintro (hc | ⟨-, hne⟩)
      · cases hc
      · exact absurd hlen hne
    capturedWritten := fun i hi => absurd (hi.trans_eq (congrArg BitVec.toNat hlen)) (Nat.not_lt_zero i)
    snapshotWritten := h.snapshotWritten
    encoderBounds := h.encoderBounds }

theorem legal_captureStarted {s : State} {b : Byte} (h : Legal s) (hh : s.halted = false)
    (hpos : 1 ≤ 256 * b.toNat + s.pendLen.toNat % 256) (hmax : 256 * b.toNat + s.pendLen.toNat % 256 < 1024) :
    Legal (captureStarted b s) where
  bufCanonical := h.bufCanonical
  copyBounds _ := by
    have hlen : (captureStarted b s).pendLen.toNat = 256 * b.toNat + s.pendLen.toNat % 256 := setHighByte_toNat _ b
    rw [hlen]
    exact ⟨hpos, Nat.le_of_lt_succ hmax, hpos⟩
  acceptedLen := nofun
  snapshotLen := nofun
  haltedIdle hc := absurd (hh.symm.trans hc) nofun
  captureInvalidates _ := rfl
  capturedWritten i hi := absurd hi (Nat.not_lt_zero i)
  snapshotWritten := nofun
  encoderBounds := h.encoderBounds

/-- A payload byte in the buffer is one more captured byte (R123, R124). -/
theorem written_storePayload {s : State} (h : Legal s) (hs : s.fsm = .sawLenHi) (b : Byte) :
    ∀ i, i < s.pendIndex.toNat + 1 → (memRead i (storePayload b s).buf).isSome = true := by
  intro i hi
  obtain rfl | hne := eq_or_ne i s.pendIndex.toNat
  · rw [storePayload_buf, memRead_memWrite_same]; rfl
  · have hcaptured : capturedLen s = s.pendIndex.toNat := by rw [capturedLen, hs]
    exact memRead_isSome_memWrite b (h.capturedWritten i (by omega))

/-- During payload copy no snapshot is valid, so what is kept of it is nothing. -/
theorem lvValid_of_copying {s : State} (h : Legal s) (hs : s.fsm = .sawLenHi) : s.lvValid = false :=
  h.captureInvalidates (.inl hs)

/-- PAY_BYTE and PAY_LAST: the index and the captured bytes grow together. -/
theorem legal_payload {s t : State} {b : Byte} (h : Legal s) (hh : s.halted = false) (hs : s.fsm = .sawLenHi)
    (ht : t = { accumulate b (storePayload b s) with fsm := t.fsm, out := t.out })
    (hfsm : (t.fsm = .sawLenHi ∧ s.pendIndex.toNat + 1 < s.pendLen.toNat) ∨
      (t.fsm = .awaitChecksumA ∧ s.pendIndex.toNat + 1 = s.pendLen.toNat)) : Legal t := by
  obtain ⟨hpos, hmax, -⟩ := h.copyBounds hs
  have hbefore := lvValid_of_copying h hs
  have hinvalid : t.lvValid = false := by rw [ht]; exact hbefore
  have hlen : t.pendLen = s.pendLen := by rw [ht]; rfl
  have hindex : t.pendIndex.toNat = s.pendIndex.toNat + 1 := by
    rw [ht]
    exact Parser41.pendIndex_succ_toNat hmax (by omega)
  have hcaptured : capturedLen t = s.pendIndex.toNat + 1 := by
    obtain ⟨hc, -⟩ | ⟨hc, hlast⟩ := hfsm
    · rw [capturedLen, hc, ← hindex]
    · rw [capturedLen, hc, hlast, ← hlen]
  exact {
    bufCanonical := by rw [ht]; exact storePayload_wf b h.bufCanonical
    copyBounds := fun hc => by
      obtain ⟨-, hmore⟩ | ⟨hawait, -⟩ := hfsm
      · rw [hlen, hindex]; exact ⟨hpos, hmax, hmore⟩
      · cases hc.symm.trans hawait
    acceptedLen := fun _ => hlen ▸ hmax
    snapshotLen := fun hc => absurd (hinvalid.symm.trans hc) nofun
    haltedIdle := fun hc => by rw [ht] at hc; exact absurd (hh.symm.trans hc) nofun
    captureInvalidates := fun _ => hinvalid
    capturedWritten := by rw [hcaptured, ht]; exact written_storePayload h hs b
    snapshotWritten := fun hc => absurd (hinvalid.symm.trans hc) nofun
    encoderBounds := by rw [ht]; exact h.encoderBounds }

theorem legal_chkaOk {s : State} (h : Legal s) (hh : s.halted = false) (hs : s.fsm = .awaitChecksumA) :
    Legal (emit .noEvent (goto .awaitChecksumB s)) where
  bufCanonical := h.bufCanonical
  copyBounds := nofun
  acceptedLen _ := h.acceptedLen (.inl hs)
  snapshotLen := h.snapshotLen
  haltedIdle hc := absurd (hh.symm.trans hc) nofun
  captureInvalidates := by
    rintro (hc | ⟨-, hne⟩)
    · cases hc
    · exact h.captureInvalidates (.inr ⟨.inl hs, hne⟩)
  capturedWritten := by
    have := h.capturedWritten
    rwa [capturedLen, hs] at this
  snapshotWritten := h.snapshotWritten
  encoderBounds := h.encoderBounds

/-- CHKB_OK: the captured bytes become the snapshot's. -/
theorem legal_promotion {s : State} (h : Legal s) (hs : s.fsm = .awaitChecksumB) :
    Legal (successHalt (countValid (setValid (takeSnapshot s)))) where
  bufCanonical := h.bufCanonical
  copyBounds := nofun
  acceptedLen := nofun
  snapshotLen _ := h.acceptedLen (.inr hs)
  haltedIdle _ := rfl
  captureInvalidates := nofun
  capturedWritten i hi := absurd hi (Nat.not_lt_zero i)
  snapshotWritten _ := by
    have := h.capturedWritten
    rwa [capturedLen, hs] at this
  encoderBounds := h.encoderBounds

theorem legal_byteStep {b : Byte} {s t : State} (h : Legal s) (hbyte : byteStep b s = .next t) : Legal t := by
  obtain ⟨hh, -⟩ := byteStep_cases hbyte
  apply byteStep_rows hbyte
  case idleSkip => exact fun hs _ => legal_of_notCapturing h (by rw [emit_fsm, hs]; rfl) rfl rfl rfl rfl hh
  case lenZero => rintro - rfl hlow; exact legal_lenZero h hh hlow
  case lenStart => exact fun _ hpos hmax => legal_captureStarted h hh hpos hmax
  case payByte => exact fun hs hmore => legal_payload h hh hs rfl (.inl ⟨hs, hmore⟩)
  case payLast => exact fun hs hlast => legal_payload h hh hs rfl (.inr ⟨rfl, hlast⟩)
  case chkaOk => exact fun hs _ => legal_chkaOk h hh hs
  case chkbOk => exact fun hs _ => legal_promotion h hs
  all_goals intros; exact legal_of_notCapturing h rfl rfl rfl rfl rfl hh

/-- Settles O39: every part of a step keeps `Legal` (`step_induction`). -/
theorem stepKeepsLegal : Obligations.StepKeepsLegal := by
  unfold Obligations.StepKeepsLegal
  intro s t h hstep
  exact step_induction hstep (legal_opened h) (fun p _ hu => legal_encoderEdge hu p) (fun _ _ => legal_quiet)
    (fun _ _ _ => legal_reset) (fun _ _ _ => legal_byteStep) (fun _ => id) (fun p _ hu => legal_encoderEdge hu p)

/-! ### The snapshot over a beat -/

/-- What a beat does to the snapshot and the buffer: nothing, but that `lv_valid` may fall; a payload store; or the
promotion. -/
theorem byteStep_snapshot {b : Byte} {s t : State} (h : byteStep b s = .next t) :
    (SnapshotKept s t ∧ (t.lvValid = true → s.lvValid = true)) ∨ (s.fsm = .sawLenHi ∧ t.lvValid = s.lvValid) ∨
      (s.fsm = .awaitChecksumB ∧ t = successHalt (countValid (setValid (takeSnapshot s)))) := by
  apply byteStep_rows h
  case lenStart => exact fun _ _ _ => .inl ⟨⟨rfl, rfl, rfl, rfl, rfl, rfl, rfl, rfl⟩, nofun⟩
  case payByte | payLast => exact fun hs _ => .inr (.inl ⟨hs, rfl⟩)
  case chkbOk => exact fun hs _ => .inr (.inr ⟨hs, rfl⟩)
  all_goals intros; exact .inl ⟨⟨rfl, rfl, rfl, rfl, rfl, rfl, rfl, rfl⟩, id⟩

/-- Settles O47: within a step the message stands as long as the snapshot does; a promotion, which replaces it, changes
`valid_packets`. -/
theorem validSnapshotIsStable : Obligations.ValidSnapshotIsStable := by
  unfold Obligations.ValidSnapshotIsStable
  intro s t hlegal hstep hvs hvt hcount
  refine step_induction
    (P := fun u => Legal u ∧ u.validPackets = s.validPackets ∧
      (u.lvValid = true → snapshotMessage u = snapshotMessage s))
    (Q := fun u => u.validPackets = s.validPackets → u.lvValid = true → snapshotMessage u = snapshotMessage s)
    hstep (fun rest => ?start) ?encoder ?quiet ?reset ?beat (fun _ ⟨_, _, hm⟩ _ => hm) ?encoderAfter hcount hvt
  case start => exact ⟨legal_opened hlegal rest, rfl, fun _ => snapshotMessage_of_kept (snapshotKept_opened s rest)⟩
  case encoder =>
    rintro p u ⟨hl, hc, hm⟩
    refine ⟨legal_encoderEdge hl p, by rw [encoderEdge_frame]; exact hc, fun hv => ?_⟩
    rw [snapshotMessage_of_kept (snapshotKept_encoderEdge p u)]
    rw [encoderEdge_frame] at hv
    exact hm hv
  case quiet =>
    rintro u v ⟨hl, hc, hm⟩ hq
    refine ⟨legal_quiet hl hq, by rw [hq.frame]; exact hc, fun hv => ?_⟩
    rw [snapshotMessage_of_kept (snapshotKept_quiet hq)]
    exact hm (hq.lvValid hv)
  case reset =>
    rintro u v - hx - hv
    cases hx
    cases hv
  case beat =>
    rintro b u v ⟨hl, hc, hm⟩ hbyte hcv hv
    obtain ⟨hkept, hvalid⟩ | ⟨hs, hvalid⟩ | ⟨-, rfl⟩ := byteStep_snapshot hbyte
    · rw [snapshotMessage_of_kept hkept]
      exact hm (hvalid hv)
    · exact absurd ((hvalid.trans (lvValid_of_copying hl hs)).symm.trans hv) nofun
    · exact absurd (hcv.trans hc.symm) (bump_ne u.validPackets)
  case encoderAfter =>
    intro p u hu hc hv
    rw [snapshotMessage_of_kept (snapshotKept_encoderEdge p u)]
    rw [encoderEdge_frame] at hc hv
    exact hu hc hv

/-! ### The checksums -/

theorem sumsAgree_of_kept {s t : State} (h : SumsAgree s) (hs : SnapshotKept s t) (hp : PendingKept s t)
    (hv : t.lvValid = true → s.lvValid = true) : SumsAgree t where
  running hmid := by
    rw [midFrame, hp.fsm] at hmid
    rw [hp.chkA, hp.chkB, coveredBytes_of_kept hp hs.buf hs.draws, h.running hmid]
  snapshot hvalid := by
    rw [hs.chkA, hs.chkB, hs.dest, hs.src, hs.msgId, hs.len, bufRead_of_same hs.buf hs.draws, h.snapshot (hv hvalid)]

theorem sumsAgree_of_clear {s : State} (hs : s.fsm = .idle) (hv : s.lvValid = false) : SumsAgree s := by
  constructor <;> simp [midFrame, hs, hv]

/-- One more byte accumulated is one more byte covered. -/
theorem running_of_accumulated {s t : State} {b : Byte} (h : SumsAgree s) (hmid : midFrame s = true)
    (hsum : (t.chkA, t.chkB) = chkAcc (s.chkA, s.chkB) b) (hcov : coveredBytes t = coveredBytes s ++ [b]) :
    (t.chkA, t.chkB) = chkSeq (coveredBytes t) := by
  rw [hcov, chkSeq_append_one, ← h.running hmid, hsum]

/-- A payload store appends to what the buffer holds of the packet. -/
theorem bufRead_storePayload (b : Byte) (s : State) :
    bufRead (storePayload b s) 0 (s.pendIndex.toNat + 1) = bufRead s 0 s.pendIndex.toNat ++ [b] := by
  rw [bufRead_succ, Nat.zero_add, bufByte_storePayload_same]
  congr 1
  exact bufRead_congr fun k hk => bufByte_storePayload_other b s (by omega)

/-- In payload copy the covered bytes are the header and the bytes stored. -/
theorem coveredBytes_copying {s : State} (hs : s.fsm = .sawLenHi) :
    coveredBytes s = headerBytes s.pendDest s.pendSrc s.pendMsgid s.pendLen ++ bufRead s 0 s.pendIndex.toNat := by
  rw [coveredBytes, headerSoFar, capturedLen, hs]

/-- Waiting for the checksum, the covered bytes are the header and the whole payload. -/
theorem coveredBytes_await {s : State} (hs : s.fsm = .awaitChecksumA ∨ s.fsm = .awaitChecksumB) :
    coveredBytes s = headerBytes s.pendDest s.pendSrc s.pendMsgid s.pendLen ++ bufRead s 0 s.pendLen.toNat := by
  obtain hs | hs := hs <;> rw [coveredBytes, headerSoFar, capturedLen, hs]

/-- Before payload capture the covered bytes are the header bytes alone. -/
theorem coveredBytes_header {s : State} (hs : capturing s.fsm = false) : coveredBytes s = headerSoFar s := by
  rw [coveredBytes, capturedLen_of_notCapturing hs, bufRead, List.append_nil]

/-- PAY_BYTE and PAY_LAST append their byte to the covered ones. -/
theorem coveredBytes_payload {s t : State} {b : Byte} (h : Legal s) (hs : s.fsm = .sawLenHi)
    (ht : t = { accumulate b (storePayload b s) with fsm := t.fsm, out := t.out })
    (hfsm : t.fsm = .sawLenHi ∨ (t.fsm = .awaitChecksumA ∧ s.pendIndex.toNat + 1 = s.pendLen.toNat)) :
    coveredBytes t = coveredBytes s ++ [b] := by
  obtain ⟨-, hmax, hlt⟩ := h.copyBounds hs
  have hread : bufRead t 0 (s.pendIndex.toNat + 1) = bufRead s 0 s.pendIndex.toNat ++ [b] := by
    rw [← bufRead_storePayload]
    exact bufRead_of_same (by rw [ht]; rfl) (by rw [ht]; rfl) _ _
  have hheader : headerBytes t.pendDest t.pendSrc t.pendMsgid t.pendLen =
      headerBytes s.pendDest s.pendSrc s.pendMsgid s.pendLen := by rw [ht]; rfl
  have hlen : t.pendLen = s.pendLen := by rw [ht]; rfl
  have hindex : t.pendIndex.toNat = s.pendIndex.toNat + 1 := by
    rw [ht]; exact Parser41.pendIndex_succ_toNat hmax hlt
  rw [coveredBytes_copying hs, List.append_assoc, ← hread, ← hheader]
  obtain hc | ⟨hc, hlast⟩ := hfsm
  · rw [coveredBytes_copying hc, hindex]
  · rw [coveredBytes_await (.inl hc), hlast, ← hlen]

/-- LEN_ZERO and LEN_START append the length's high byte to the covered ones. -/
theorem coveredBytes_lenZero {s : State} (hs : s.fsm = .sawLenLo) (hlow : s.pendLen.toNat % 256 = 0) :
    coveredBytes (emit .noEvent (goto .awaitChecksumA (takeLenHi 0x00#8 s))) = coveredBytes s ++ [0x00#8] := by
  have hlen : (emit .noEvent (goto .awaitChecksumA (takeLenHi 0x00#8 s))).pendLen.toNat = 0 :=
    congrArg BitVec.toNat (Parser41.setHighByte_zero hlow)
  rw [coveredBytes_await (.inl rfl), hlen, coveredBytes_header (by rw [hs]; rfl)]
  simp [headerSoFar, hs, bufRead, headerBytes, takeLenHi]

theorem coveredBytes_lenStart {s : State} (hs : s.fsm = .sawLenLo) (b : Byte) :
    coveredBytes (captureStarted b s) = coveredBytes s ++ [b] := by
  rw [coveredBytes_copying rfl, coveredBytes_header (by rw [hs]; rfl)]
  simp [headerSoFar, hs, bufRead, headerBytes, captureStarted]

theorem coveredBytes_chkaOk {s : State} (hs : s.fsm = .awaitChecksumA) :
    coveredBytes (emit .noEvent (goto .awaitChecksumB s)) = coveredBytes s := by
  rw [coveredBytes_await (.inr rfl), coveredBytes_await (.inl hs)]
  exact congrArg (_ ++ ·) (bufRead_of_same (s := s) (t := emit .noEvent (goto .awaitChecksumB s)) rfl rfl _ _)

/-- A beat keeps the running sums those of the bytes covered: outside a frame there is nothing to show, S0_SYNC1 clears
them, CHKA_OK holds them, and every other row accumulates its byte. -/
theorem byteStep_running {b : Byte} {s t : State} (hl : Legal s) (h : SumsAgree s) (hbyte : byteStep b s = .next t) :
    midFrame t = true → (t.chkA, t.chkB) = chkSeq (coveredBytes t) := by
  have hmid : ∀ st, s.fsm = st → st ≠ .idle → st ≠ .sawSync0 → midFrame s = true := by
    intro st hs hidle hsync
    simp [midFrame, hs, hidle, hsync]
  apply byteStep_rows hbyte
  case idleSync0 | s0Mismatch | chkaBad | chkbOk | chkbBad => exact fun _ _ => nofun
  case lenOver => exact fun _ _ => nofun
  case idleSkip => intro hs _ hm; rw [midFrame, emit_fsm, hs] at hm; cases hm
  case s0Sync1 => exact fun _ _ _ => rfl
  case lenZero =>
    rintro hs rfl hlow -
    exact running_of_accumulated h (hmid _ hs nofun nofun) rfl (coveredBytes_lenZero hs hlow)
  case lenStart =>
    exact fun hs _ _ _ => running_of_accumulated h (hmid _ hs nofun nofun) rfl (coveredBytes_lenStart hs b)
  case payByte =>
    exact fun hs _ _ =>
      running_of_accumulated h (hmid _ hs nofun nofun) rfl (coveredBytes_payload hl hs rfl (.inl hs))
  case payLast =>
    exact fun hs hlast _ =>
      running_of_accumulated h (hmid _ hs nofun nofun) rfl (coveredBytes_payload hl hs rfl (.inr ⟨rfl, hlast⟩))
  case chkaOk => intro hs _ _; rw [coveredBytes_chkaOk hs]; exact h.running (hmid _ hs nofun nofun)
  case hdrDest | hdrSrc | hdrIdLo | hdrIdHi | hdrLenLo =>
    intro hs _
    refine running_of_accumulated h (hmid _ hs nofun nofun) rfl ?_
    rw [coveredBytes_header rfl, coveredBytes_header (by rw [hs]; rfl)]
    simp [headerSoFar, hs]

theorem sumsAgree_byteStep {b : Byte} {s t : State} (hl : Legal s) (h : SumsAgree s)
    (hbyte : byteStep b s = .next t) :
    SumsAgree t where
  running := byteStep_running hl h hbyte
  snapshot hv := by
    obtain ⟨hkept, hvalid⟩ | ⟨hs, hvalid⟩ | ⟨hs, rfl⟩ := byteStep_snapshot hbyte
    · rw [hkept.chkA, hkept.chkB, hkept.dest, hkept.src, hkept.msgId, hkept.len,
        bufRead_of_same hkept.buf hkept.draws, h.snapshot (hvalid hv)]
    · exact absurd ((hvalid.trans (lvValid_of_copying hl hs)).symm.trans hv) nofun
    · have hrun := h.running (by rw [midFrame, hs]; rfl)
      have hread := bufRead_of_same (s := s) (t := successHalt (countValid (setValid (takeSnapshot s)))) rfl rfl
      rw [coveredBytes_await (.inr hs), ← hread] at hrun
      exact hrun

theorem encoderEdge_keeps (p : PortIn) (u : State) (hu : Legal u ∧ SumsAgree u) :
    Legal (encoderEdge p u) ∧ SumsAgree (encoderEdge p u) :=
  ⟨legal_encoderEdge hu.1 p, sumsAgree_of_kept hu.2 (snapshotKept_encoderEdge p u) (pendingKept_encoderEdge p u)
    (by rw [encoderEdge_frame]; exact id)⟩

/-- Settles O40: `Legal` and the agreement go together through a step (`step_induction`). -/
theorem stepKeepsSumsAgree : Obligations.StepKeepsSumsAgree := by
  unfold Obligations.StepKeepsSumsAgree
  intro s t hlegal hsums hstep
  have hkeeps : Legal t ∧ SumsAgree t := step_induction
    (P := fun u => Legal u ∧ SumsAgree u) (Q := fun u => Legal u ∧ SumsAgree u) hstep
    (start := fun rest => ⟨legal_opened hlegal rest,
      sumsAgree_of_kept hsums (snapshotKept_opened s rest) (pendingKept_opened s rest) id⟩)
    (encoder := encoderEdge_keeps)
    (quiet := fun u v ⟨hl, hu⟩ hq =>
      ⟨legal_quiet hl hq, sumsAgree_of_kept hu (snapshotKept_quiet hq) (pendingKept_quiet hq) hq.lvValid⟩)
    (reset := fun u v _ hx => ⟨legal_reset hx, by cases hx; exact sumsAgree_of_clear rfl rfl⟩)
    (beat := fun b u v ⟨hl, hu⟩ hbyte => ⟨legal_byteStep hl hbyte, sumsAgree_byteStep hl hu hbyte⟩)
    (still := fun _ => id)
    (encoderAfter := encoderEdge_keeps)
  exact hkeeps.2

/-- Settles O38: nothing is pending, promoted, written or emitted. -/
theorem resetMeetsInvariants : Obligations.ResetMeetsInvariants := by
  unfold Obligations.ResetMeetsInvariants
  exact ⟨legal_of_clear rfl rfl rfl rfl, sumsAgree_of_clear rfl rfl⟩

/-! ### When a step answers (R200) -/

/-- From a legal state a byte is taken unless the parser is halted. -/
theorem byteStep_answers_of_legal {b : Byte} {s : State} (h : Legal s) :
    (∃ t, byteStep b s = .next t) ↔ s.halted = false := by
  rw [Decoding30.byteStep_answers_iff]
  exact ⟨And.left, fun hh => ⟨hh, fun hs => (h.copyBounds hs).2.2⟩⟩

theorem runWord_command_answers (c : BitVec 3) (s : State) : (∃ t, runWord (.cmd c) s = .next t) ↔ c.toNat ≤ 3 := by
  have hcode : c.toNat ≤ 3 ↔ ∃ i, decodeCmd c = .op i := by
    obtain rfl | rfl | rfl | rfl | hreserved := Decoding30.commandCode_cases c
    case inr.inr.inr.inr =>
      rw [Extractor42.decodeCmd_reserved hreserved]
      exact ⟨fun h => absurd hreserved (by omega), nofun⟩
    all_goals exact iff_of_true (by decide) ⟨_, rfl⟩
  rw [hcode]
  constructor
  · rintro ⟨t, ht⟩
    cases hd : decodeCmd c with
    | op i => exact ⟨i, rfl⟩
    | rejected e => rw [runWord, decode, hd] at ht; cases ht
  · rintro ⟨i, hd⟩
    rw [runWord, decode, hd]
    exact Decoding30.command_answers hd s

theorem runWord_micro_answers (o : BitVec 2) (b : Byte) (s : State) :
    (∃ t, runWord (.chk o b) s = .next t) ↔ o.toNat ≤ 2 := by
  obtain rfl | rfl | rfl | rfl := Decoding30.microCode_cases o
  case inr.inr.inr =>
    have hreserved : runWord (.chk 0b11#2 b) s = .refused (.rejected .reservedMicroOp) := rfl
    refine iff_of_false ?_ (by decide)
    rintro ⟨t, ht⟩
    cases hreserved.symm.trans ht
  all_goals exact iff_of_true ⟨_, rfl⟩ (by decide)

theorem runWord_encode_answers (dest src : Byte) (msgId : Half) (payload : List Byte) (s : State) :
    (∃ t, runWord (.enc 1#1 dest src msgId payload) s = .next t) ↔ payload.length ≤ 65535 := by
  by_cases hlen : payload.length ≤ 65535
  · refine iff_of_true ?_ hlen
    rw [runWord, decode, if_neg (by simp), Config.maxPayload, if_pos hlen]
    exact ⟨_, Encoder43.encodeMsg_runs hlen dest src msgId s⟩
  · refine iff_of_false ?_ hlen
    rw [runWord, decode, if_neg (by simp), Config.maxPayload, if_neg hlen]
    rintro ⟨t, ht⟩
    cases ht

/-- From a legal state an edge always answers: it takes a byte only while the parser is not halted. -/
theorem portEdge_answers {s : State} (h : Legal s) (p : PortIn) : ∃ t, portEdge p s = .next t := by
  cases hrst : p.rst with
  | true => exact ⟨_, portEdge_rst hrst s⟩
  | false =>
    obtain ⟨-, v, -, -, -, hedge⟩ := portEdge_parts hrst fun _ hh => (byteStep_answers_of_legal h).mpr hh
    exact ⟨_, hedge⟩

/-- The state in which a transaction's operation runs is legal too. -/
theorem legal_transaction {s : State} (h : Legal s) (rest : List Input) : Legal (encoderIdle (opened s rest)) :=
  legal_encoderEdge (legal_opened h rest) {}

/-- Settles O41: kind of input by kind, each against its own line of `hostObeys`. -/
theorem legalStepAnswersNext : Obligations.LegalStepAnswersNext := by
  unfold Obligations.LegalStepAnswersNext
  intro s h
  cases hin : s.inputs with
  | nil =>
    have hobeys : hostObeys s = true := by rw [hostObeys, hin]
    exact iff_of_true ⟨_, (Decoding30.stepRunsDecodedOperation s).1 hin⟩ hobeys
  | cons x rest =>
    cases x with
    | edge p =>
      have hobeys : hostObeys s = true := by rw [hostObeys, hin]
      have hstep : step s = portEdge p (opened s rest) :=
        ((Decoding30.stepRunsDecodedOperation s).2 _ rest hin).1 p rfl
      exact iff_of_true (hstep ▸ portEdge_answers (legal_opened h rest) p) hobeys
    | byte b =>
      have hobeys : hostObeys s = !s.halted := by rw [hostObeys, hin]
      have hbyte : step s = byteStep b (encoderIdle (opened s rest)) := by
        rw [Decoding30.step_word hin rfl, byteStep, encoderIdle_opened]
      have hhalted : (encoderIdle (opened s rest)).halted = s.halted := by rw [encoderIdle_opened]
      rw [hbyte, byteStep_answers_of_legal (legal_transaction h rest), hhalted, hobeys, Bool.not_eq_true']
    | command c =>
      have hobeys : hostObeys s = decide (c.toNat ≤ 3) := by rw [hostObeys, hin]
      rw [Decoding30.step_word hin rfl, runWord_command_answers, hobeys, decide_eq_true_iff]
    | readReg a =>
      have hobeys : hostObeys s = true := by rw [hostObeys, hin]
      exact iff_of_true ⟨_, Decoding30.step_word hin rfl⟩ hobeys
    | readBuf i =>
      have hobeys : hostObeys s = true := by rw [hostObeys, hin]
      exact iff_of_true ⟨_, Decoding30.step_word hin rfl⟩ hobeys
    | reset =>
      have hobeys : hostObeys s = true := by rw [hostObeys, hin]
      exact iff_of_true ⟨_, Decoding30.step_word hin rfl⟩ hobeys
    | encode dest src msgId payload =>
      have hobeys : hostObeys s = decide (payload.length ≤ 65535) := by rw [hostObeys, hin]
      rw [Decoding30.step_word hin rfl, runWord_encode_answers, hobeys, decide_eq_true_iff]
    | micro o b =>
      have hobeys : hostObeys s = decide (o.toNat ≤ 2) := by rw [hostObeys, hin]
      rw [Decoding30.step_word hin rfl, runWord_micro_answers, hobeys, decide_eq_true_iff]

end Sys2Proof.Proofs.Invariants
end

section
/-! PROOFS. The parse call and the stream (spec/41_parser.md R130, R131; R112, R132, R106): what a call returns, that
chunks do not matter, and a frame's way through the parser, whole or with one byte changed. -/

namespace Sys2Proof.Proofs.Stream

open Sys2Proof Sys2Proof.Machine Sys2Proof.Safety Operations

/-! ### The parse call (R130) -/

/-- RESUME always answers, so a parse call is its loop with `halted` cleared. -/
theorem parseCall_eq (s : State) (bytes : List Byte) : parseCall s bytes = parseBytes bytes 0 (unhalt s) := rfl

/-- A byte step halts the parser exactly when it finds a packet, and counts it then and only then. -/
theorem byteStep_found {b : Byte} {s t : State} (h : byteStep b s = .next t) :
    (t.out.evt = .packetValid ∧ t.halted = true ∧ t.validPackets = s.validPackets + 1) ∨
      (t.out.evt ≠ .packetValid ∧ t.halted = false ∧ t.validPackets = s.validPackets) := by
  obtain ⟨hh, -⟩ := byteStep_cases h
  obtain ⟨he, hc, hht⟩ | ⟨he, hc, hht⟩ | ⟨he, hc, hht, -⟩ | ⟨e, rfl | rfl | rfl, rfl⟩ | rfl := byteStep_event h
  case inr.inl => exact .inl ⟨he, hht, ((State10.counters_eq_iff _ _).mp hc).1⟩
  case inl | inr.inr.inl => exact .inr ⟨by rw [he]; nofun, hht, ((State10.counters_eq_iff _ _).mp hc).1⟩
  all_goals exact .inr ⟨nofun, hh, rfl⟩

/-- What the loop returns from a parser that is not halted, `done` bytes having been consumed before. -/
theorem parseBytes_returns {bytes : List Byte} {done : Nat} {s : State} {r : ParseResult} (hh : s.halted = false)
    (h : parseBytes bytes done s = .next r) :
    (r.found = true ∧ done + 1 ≤ r.consumed ∧ r.consumed ≤ done + bytes.length ∧ r.st.halted = true ∧
        r.st.out.evt = .packetValid ∧ r.st.validPackets = s.validPackets + 1) ∨
      (r.found = false ∧ r.consumed = done + bytes.length ∧ r.st.halted = false ∧
        r.st.validPackets = s.validPackets) := by
  induction bytes generalizing done s with
  | nil => cases h; exact .inr ⟨rfl, rfl, hh, rfl⟩
  | cons b rest ih =>
    rw [parseBytes] at h
    obtain ⟨t, hbyte, hnext⟩ := andThen_next h
    obtain ⟨he, hhalted, hcount⟩ | ⟨he, hhalted, hcount⟩ := byteStep_found hbyte
    · rw [if_pos he] at hnext
      cases hnext
      exact .inl ⟨rfl, le_rfl, by simp, hhalted, he, hcount⟩
    · rw [if_neg he] at hnext
      rw [List.length_cons]
      obtain ⟨hf, hmin, hmax, hh', he', hc'⟩ | ⟨hf, hcons, hh', hc'⟩ := ih hhalted hnext
      · exact .inl ⟨hf, by omega, by omega, hh', he', hcount ▸ hc'⟩
      · exact .inr ⟨hf, by omega, hh', hcount ▸ hc'⟩

/-- Settles O49: the loop of a parse call starts with `halted` cleared (`parseBytes_returns`). -/
theorem parseCallContract : Obligations.ParseCallContract := by
  unfold Obligations.ParseCallContract
  refine ⟨fun _ => rfl, fun s bytes r h => ?_⟩
  obtain ⟨hf, hmin, hmax, hh, he, hc⟩ | ⟨hf, hcons, hh, hc⟩ := parseBytes_returns (s := unhalt s) rfl h
  · exact ⟨by omega, fun _ => ⟨by omega, hh, he, hc⟩, fun hf' => absurd (hf.symm.trans hf') nofun⟩
  · exact ⟨by omega, fun hf' => absurd (hf.symm.trans hf') nofun, fun _ => ⟨by omega, hh, hc⟩⟩

/-! ### Bytes that are skipped (R112) -/

/-- From Idle the loop runs over bytes that are not SYNC0 and changes the event shown alone. -/
theorem parseBytes_skip {bytes : List Byte} (hne : ∀ b ∈ bytes, b ≠ 0x76#8) {done : Nat} {s : State}
    (hh : s.halted = false) (hs : s.fsm = .idle) :
    ∃ e, parseBytes bytes done s = .next ⟨false, done + bytes.length, { s with out := { s.out with evt := e } }⟩ := by
  induction bytes generalizing done s with
  | nil => exact ⟨s.out.evt, rfl⟩
  | cons b rest ih =>
    obtain ⟨-, hbyte⟩ := Parser41.idleSkip_runs hh hs (hne b List.mem_cons_self)
    obtain ⟨e, he⟩ := ih (fun c hc => hne c (List.mem_cons_of_mem _ hc)) (done := done + 1)
      (s := emit .noEvent s) hh hs
    refine ⟨e, ?_⟩
    rw [Parser41.parseBytes_cons hbyte nofun, he, List.length_cons, Nat.add_assoc, Nat.add_comm 1]
    rfl

/-- Settles O50, by `parseBytes_skip` with `halted` cleared. -/
theorem garbageIsSkipped : Obligations.GarbageIsSkipped := by
  unfold Obligations.GarbageIsSkipped
  intro s bytes hs hne
  obtain ⟨e, he⟩ := parseBytes_skip hne (done := 0) (s := unhalt s) rfl hs
  rw [Nat.zero_add] at he
  exact ⟨_, he, rfl⟩

/-! ### A stream byte by byte (R131) -/

/-- A stream as a fold over its bytes: each byte is taken with `halted` cleared, and after a packet the host may
EXTRACT. -/
def feedBytes (place : Nat → Bool) : List Byte → Nat → State → Host.Outcome (Nat × State) Fault Refusal
  | [], k, s => .next (k, s)
  | b :: rest, k, s =>
      andThen (byteStep b (unhalt s)) fun t =>
        if t.out.evt = .packetValid then andThen (placedExtract place k t) fun u => feedBytes place rest (k + 1) u
        else feedBytes place rest k t

theorem feedBytes_append (place : Nat → Bool) (l m : List Byte) (k : Nat) (s : State) :
    feedBytes place (l ++ m) k s = andThen (feedBytes place l k s) fun r => feedBytes place m r.1 r.2 := by
  induction l generalizing k s with
  | nil => rfl
  | cons b rest ih =>
    rw [List.cons_append, feedBytes, feedBytes, andThen_assoc]
    congr 1
    funext t
    split
    · rw [andThen_assoc]
      exact congrArg (andThen _) (funext fun u => ih (k + 1) u)
    · exact ih k t

/-- Whatever consumed `pre` before, the loop's packet ends at the byte where the fold's first packet ends. -/
theorem feedBytes_eq_parseBytes (place : Nat → Bool) (k : Nat) (bytes pre : List Byte) {s : State}
    (hh : s.halted = false) :
    feedBytes place bytes k s = andThen (parseBytes bytes pre.length s) fun r =>
      if r.found then andThen (placedExtract place k r.st) fun t =>
        feedBytes place ((pre ++ bytes).drop r.consumed) (k + 1) t
      else .next (k, r.st) := by
  induction bytes generalizing pre s with
  | nil => rfl
  | cons b rest ih =>
    have hresume : unhalt s = s := by rw [unhalt, ← hh]
    rw [feedBytes, parseBytes, hresume, andThen_assoc]
    cases hbyte : byteStep b s with
    | fault f => rfl
    | refused e => rfl
    | next t =>
      have hdrop : (pre ++ b :: rest).drop (pre.length + 1) = rest := by simp
      rw [andThen_next_left, andThen_next_left]
      obtain ⟨he, -, -⟩ | ⟨he, hht, -⟩ := byteStep_found hbyte
      · rw [if_pos he, if_pos he, andThen_next_left, if_pos rfl, hdrop]
      · have hnext := ih (pre ++ [b]) hht
        rw [List.length_append, List.length_singleton, List.append_assoc, List.singleton_append] at hnext
        rw [if_neg he, if_neg he, hnext]

/-- ParseStream is the fold, for every bound that the bytes fit in. -/
theorem parseStream_eq_feedBytes (place : Nat → Bool) {n : Nat} {bytes : List Byte} (hn : bytes.length ≤ n) (k : Nat)
    (s : State) : parseStream place n k s bytes = feedBytes place bytes k s := by
  induction n generalizing bytes k s with
  | zero => rw [List.eq_nil_of_length_eq_zero (Nat.le_zero.mp hn)]; rfl
  | succ n ih =>
    cases bytes with
    | nil => rfl
    | cons b rest =>
      have hresume : feedBytes place (b :: rest) k s = feedBytes place (b :: rest) k (unhalt s) := rfl
      rw [hresume, feedBytes_eq_parseBytes place k (b :: rest) [] (s := unhalt s) rfl, parseStream, parseCall_eq]
      cases hcall : parseBytes (b :: rest) 0 (unhalt s) with
      | fault f => rfl
      | refused e => rfl
      | next r =>
        rw [andThen_next_left, andThen_next_left]
        obtain ⟨hf, hmin, -⟩ | ⟨hf, -⟩ := parseBytes_returns (s := unhalt s) rfl hcall
        · rw [if_pos hf, if_pos hf]
          refine congrArg (andThen _) (funext fun t => ih ?_ (k + 1) t)
          rw [List.length_drop, List.length_cons] at *
          omega
        · rw [hf]; rfl

/-- Settles O51: both sides are the fold over the bytes, which runs on from chunk to chunk (`feedBytes_append`). -/
theorem chunkingInvariance : Obligations.ChunkingInvariance := by
  unfold Obligations.ChunkingInvariance
  intro place chunks k s
  rw [parseStream_eq_feedBytes place le_rfl]
  induction chunks generalizing k s with
  | nil => rfl
  | cons c rest ih =>
    rw [feedChunks, parseStream_eq_feedBytes place le_rfl, List.flatten_cons, feedBytes_append]
    exact congrArg (andThen _) (funext fun r => ih r.1 r.2)

end Sys2Proof.Proofs.Stream
end

section
/-! PROOFS. A frame's way through the parser: the round trip of R132, and the frame with one byte changed of R106. -/

namespace Sys2Proof.Proofs.FrameParse

open Sys2Proof Sys2Proof.Machine Sys2Proof.Safety Operations

/-! ### Payload bytes (R123, R124) -/

/-- The state after one payload byte, still in payload copy. -/
def payloadByteTaken (b : Byte) (s : State) : State := emit .noEvent (accumulate b (storePayload b s))

/-- The state after a list of payload bytes. -/
def payloadTaken : List Byte → State → State
  | [], s => s
  | b :: rest, s => payloadTaken rest (payloadByteTaken b s)

theorem payloadTaken_frame (payload : List Byte) (s : State) :
    payloadTaken payload s =
      { s with buf := (payloadTaken payload s).buf, pendIndex := (payloadTaken payload s).pendIndex,
               chkA := (payloadTaken payload s).chkA, chkB := (payloadTaken payload s).chkB,
               out := (payloadTaken payload s).out } := by
  induction payload generalizing s with
  | nil => rfl
  | cons b rest ih => rw [payloadTaken, ih]; rfl

theorem payloadTaken_sums (payload : List Byte) (s : State) :
    ((payloadTaken payload s).chkA, (payloadTaken payload s).chkB) = payload.foldl chkAcc (s.chkA, s.chkB) := by
  induction payload generalizing s with
  | nil => rfl
  | cons b rest ih => exact ih _

theorem pendIndex_payloadByteTaken {b : Byte} {s : State} (h : s.pendIndex.toNat + 1 ≤ 1023) :
    (payloadByteTaken b s).pendIndex.toNat = s.pendIndex.toNat + 1 := by
  have hindex : (payloadByteTaken b s).pendIndex = s.pendIndex + 1 := rfl
  rw [hindex, BitVec.toNat_add]
  exact Nat.mod_eq_of_lt (show s.pendIndex.toNat + 1 < 1024 by omega)

/-- The bytes stand in the buffer in order, behind those stored before. -/
theorem bufRead_payloadTaken {payload : List Byte} {s : State} (h : s.pendIndex.toNat + payload.length ≤ 1023) :
    bufRead (payloadTaken payload s) 0 (s.pendIndex.toNat + payload.length) =
      bufRead s 0 s.pendIndex.toNat ++ payload := by
  induction payload generalizing s with
  | nil => simp [payloadTaken]
  | cons b rest ih =>
    rw [List.length_cons] at h
    have hindex := pendIndex_payloadByteTaken (b := b) (s := s) (by omega)
    have hnext := ih (s := payloadByteTaken b s) (by omega)
    have hbyte : bufRead (payloadByteTaken b s) 0 (s.pendIndex.toNat + 1) = bufRead s 0 s.pendIndex.toNat ++ [b] :=
      (Invariants.bufRead_of_same (s := storePayload b s) (t := payloadByteTaken b s) rfl rfl _ _).trans
        (Invariants.bufRead_storePayload b s)
    rw [hindex, hbyte, List.append_assoc, Nat.add_assoc, Nat.add_comm 1] at hnext
    exact hnext

/-- In payload copy the loop takes the rest of the payload and goes on to the checksum. -/
theorem parseBytes_payload {payload : List Byte} (hne : payload ≠ []) {s : State} (hh : s.halted = false)
    (hs : s.fsm = .sawLenHi) (hlen : s.pendIndex.toNat + payload.length = s.pendLen.toNat)
    (hmax : s.pendLen.toNat ≤ 1023) (rest : List Byte) (done : Nat) :
    parseBytes (payload ++ rest) done s =
      parseBytes rest (done + payload.length) (goto .awaitChecksumA (payloadTaken payload s)) := by
  induction payload generalizing s done with
  | nil => exact absurd rfl hne
  | cons b more ih =>
    rw [List.length_cons] at hlen
    cases more with
    | nil =>
      exact Encoder43.parseBytes_row (i := .payLast b) rfl rfl hh hs ((condition_payLast b _).mpr hlen) nofun rest done
    | cons c more =>
      have hindex := pendIndex_payloadByteTaken (b := b) (s := s) (by omega)
      have hmore : condition (.payByte b) (rowRegs s) = true := by
        rw [List.length_cons] at hlen
        exact (condition_payByte b _).mpr (by simp only [rowRegs]; omega)
      rw [List.cons_append, Encoder43.parseBytes_row (i := .payByte b) (u := payloadByteTaken b s) rfl rfl hh hs hmore
        nofun, ih (List.cons_ne_nil c more) (s := payloadByteTaken b s) hh hs
          (by rw [hindex]; show _ = s.pendLen.toNat; omega) hmax, List.length_cons (a := b), payloadTaken]
      congr 1
      omega

/-! ### Sync pair, header and payload -/

/-- From `s` in Idle the parser has taken a message's sync pair, header and payload, and waits for the checksum. -/
structure BodyTaken (dest src : Byte) (msgId : Half) (payload : List Byte) (s t : State) : Prop where
  fsm : t.fsm = .awaitChecksumA
  halted : t.halted = false
  pendDest : t.pendDest = dest
  pendSrc : t.pendSrc = src
  pendMsgid : t.pendMsgid = msgId
  pendLen : t.pendLen.toNat = payload.length
  sums : (t.chkA, t.chkB) = chkSeq (headerBytes dest src msgId (BitVec.ofNat 16 payload.length) ++ payload)
  read : bufRead t 0 payload.length = payload
  params : t.params = s.params
  validPackets : t.validPackets = s.validPackets
  parseErrors : t.parseErrors = s.parseErrors
  overruns : t.overruns = if s.lvValid = true ∧ payload ≠ [] then s.overruns + 1 else s.overruns

/-- The whole length field after its high byte. -/
theorem setHighByte_headerTaken (dest src : Byte) (msgId len : Half) (s : State) :
    setHighByte (Encoder43.headerTaken dest src msgId len s).pendLen (highByte len) = len :=
  Encoder43.setHighByte_setLowByte s.pendLen len

/-- After the header, the sums are those of its six bytes. -/
theorem chkAcc_headerTaken (dest src : Byte) (msgId len : Half) (s : State) :
    chkAcc ((Encoder43.headerTaken dest src msgId len s).chkA, (Encoder43.headerTaken dest src msgId len s).chkB)
      (highByte len) = chkSeq (headerBytes dest src msgId len) := rfl

/-- An empty payload: LEN_ZERO ends the header. -/
theorem parseBytes_emptyBody {s : State} (hh : s.halted = false) (hs : s.fsm = .idle) (dest src : Byte) (msgId : Half) :
    ∃ t, BodyTaken dest src msgId [] s t ∧ ∀ rest,
      parseBytes (framePrefix dest src msgId 0#16 ++ rest) 0 s = parseBytes rest 8 t := by
  have hlow : (Encoder43.headerTaken dest src msgId 0#16 s).pendLen.toNat % 256 = 0 :=
    Nat.eq_zero_of_add_eq_zero_left (Encoder43.headerTaken_declaredLen dest src msgId 0#16 s)
  have hlen := setHighByte_headerTaken dest src msgId 0#16 s
  refine ⟨emit .noEvent (goto .awaitChecksumA (takeLenHi 0x00#8 (Encoder43.headerTaken dest src msgId 0#16 s))),
    ⟨rfl, hh, rfl, rfl, rfl, congrArg BitVec.toNat hlen, chkAcc_headerTaken dest src msgId 0#16 s,
      rfl, rfl, rfl, rfl, by simp; rfl⟩,
    fun rest => ?_⟩
  refine (Encoder43.parseBytes_header hh hs dest src msgId 0#16 (highByte 0#16 :: rest) 0).trans ?_
  exact Encoder43.parseBytes_row (i := .lenZero) (s := Encoder43.headerTaken dest src msgId 0#16 s) rfl rfl hh rfl
    ((condition_lenZero _).mpr hlow) nofun rest 7

/-- LEN_START never completes a packet. -/
theorem captureStarted_evt (b : Byte) (s : State) : (captureStarted b s).out.evt ≠ .packetValid := by
  simp only [captureStarted]
  split <;> nofun

/-- A payload: LEN_START ends the header, and payload copy takes it. -/
theorem parseBytes_payloadBody {s : State} (hh : s.halted = false) (hs : s.fsm = .idle) (dest src : Byte) (msgId : Half)
    {payload : List Byte} (hne : payload ≠ []) (hmax : payload.length ≤ 1023) :
    ∃ t, BodyTaken dest src msgId payload s t ∧ ∀ rest,
      parseBytes (framePrefix dest src msgId (BitVec.ofNat 16 payload.length) ++ payload ++ rest) 0 s =
        parseBytes rest (8 + payload.length) t := by
  have hnat := Encoder43.lengthField_toNat (payload := payload) (by omega)
  have hpos := List.length_pos_iff.mpr hne
  generalize hfield : BitVec.ofNat 16 payload.length = len at hnat
  have hdeclared := Encoder43.headerTaken_declaredLen dest src msgId len s
  have hstart := lenStart_runs (s := Encoder43.headerTaken dest src msgId len s) hh rfl
    (by rw [hdeclared]; omega) (by rw [hdeclared]; omega)
  have hevt := captureStarted_evt (highByte len) (Encoder43.headerTaken dest src msgId len s)
  obtain ⟨c, hc⟩ : ∃ c, c = captureStarted (highByte len) (Encoder43.headerTaken dest src msgId len s) := ⟨_, rfl⟩
  have hpendLen : c.pendLen.toNat = payload.length :=
    hnat ▸ congrArg BitVec.toNat (hc ▸ setHighByte_headerTaken dest src msgId len s)
  have hindex : c.pendIndex.toNat = 0 := hc ▸ rfl
  have hsums : (c.chkA, c.chkB) = chkSeq (headerBytes dest src msgId len) :=
    hc ▸ chkAcc_headerTaken dest src msgId len s
  have hpayload := parseBytes_payload hne (s := c) (hc ▸ hh) (hc ▸ rfl) (by omega) (by omega)
  have hread := bufRead_payloadTaken (payload := payload) (s := c) (by omega)
  rw [← hc] at hstart hevt
  refine ⟨goto .awaitChecksumA (payloadTaken payload c), ?taken, fun rest => ?run⟩
  case run =>
    exact (Encoder43.parseBytes_header hh hs dest src msgId len (highByte len :: (payload ++ rest)) 0).trans
      ((Parser41.parseBytes_cons hstart hevt (payload ++ rest) 7).trans (hpayload rest 8))
  case taken =>
    have hframe := payloadTaken_frame payload c
    exact {
      fsm := rfl
      halted := by rw [goto_halted, hframe, hc]; exact hh
      pendDest := by rw [goto_pendDest, hframe, hc]; rfl
      pendSrc := by rw [goto_pendSrc, hframe, hc]; rfl
      pendMsgid := by rw [goto_pendMsgid, hframe, hc]; rfl
      pendLen := by rw [goto_pendLen, hframe]; exact hpendLen
      sums := by rw [goto_chkA, goto_chkB, payloadTaken_sums, hsums, hfield, ← chkSeq_append]
      read := by
        rw [hindex, Nat.zero_add] at hread
        exact (Invariants.bufRead_of_same (s := payloadTaken payload c)
          (t := goto .awaitChecksumA (payloadTaken payload c)) rfl rfl _ _).trans hread
      params := by rw [goto_params, hframe, hc]; rfl
      validPackets := by rw [goto_validPackets, hframe, hc]; rfl
      parseErrors := by rw [goto_parseErrors, hframe, hc]; rfl
      overruns := by
        rw [goto_overruns, hframe, hc]
        cases hv : s.lvValid <;> simp [captureStarted, Encoder43.headerTaken, hne, hv] }

theorem parseBytes_body {s : State} (hh : s.halted = false) (hs : s.fsm = .idle) (dest src : Byte) (msgId : Half)
    {payload : List Byte} (hlen : payload.length ≤ 1023) :
    ∃ t, BodyTaken dest src msgId payload s t ∧ ∀ rest,
      parseBytes (framePrefix dest src msgId (BitVec.ofNat 16 payload.length) ++ payload ++ rest) 0 s =
        parseBytes rest (8 + payload.length) t := by
  by_cases hne : payload = []
  · subst hne
    obtain ⟨t, ht, hrest⟩ := parseBytes_emptyBody hh hs dest src msgId
    exact ⟨t, ht, fun rest => by simpa using hrest rest⟩
  · exact parseBytes_payloadBody hh hs dest src msgId hne hlen

/-! ### The round trip (R132) -/

/-- A frame is its sync pair and header, its payload, and the two sums over header and payload. -/
theorem encodeFrame_eq (dest src : Byte) (msgId : Half) (payload : List Byte) :
    encodeFrame dest src msgId payload =
      framePrefix dest src msgId (BitVec.ofNat 16 payload.length) ++ payload ++
        [(chkSeq (headerBytes dest src msgId (BitVec.ofNat 16 payload.length) ++ payload)).1,
          (chkSeq (headerBytes dest src msgId (BitVec.ofNat 16 payload.length) ++ payload)).2] := rfl

/-- The promotion: both checksum bytes right, the parser halts on the packet. -/
def promoted (t : State) : State :=
  successHalt (countValid (setValid (takeSnapshot (emit .noEvent (goto .awaitChecksumB t)))))

theorem parseBytes_promotion {t : State} (hh : t.halted = false) (hs : t.fsm = .awaitChecksumA) (done : Nat) :
    parseBytes [t.chkA, t.chkB] done t = .next ⟨true, done + 2, promoted t⟩ := by
  obtain ⟨-, hbyte⟩ := Parser41.row_runs (i := .chkbOk t.chkB) (b := t.chkB)
    (s := emit .noEvent (goto .awaitChecksumB t))
    rfl rfl hh rfl (beq_iff_eq.mpr rfl)
  rw [Encoder43.parseBytes_row (i := .chkaOk t.chkA) rfl rfl hh hs (beq_iff_eq.mpr rfl) nofun]
  simp only [parseBytes, hbyte, andThen_next_left]
  rfl

/-- Settles O52: the body leaves the sums of the frame's own checksum (`parseBytes_body`), so both bytes promote. -/
theorem roundTrip : Obligations.RoundTrip := by
  unfold Obligations.RoundTrip
  intro s dest src msgId payload hs hlen
  obtain ⟨t, ht, hrest⟩ := parseBytes_body (s := unhalt s) rfl hs dest src msgId hlen
  have hsums := ht.sums
  have hdest : (promoted t).lvDest = dest := ht.pendDest
  have hsrc : (promoted t).lvSrc = src := ht.pendSrc
  have hmsgId : (promoted t).lvMsgid = msgId := ht.pendMsgid
  have hlvLen : (promoted t).lvLen.toNat = payload.length := ht.pendLen
  have hparams : (promoted t).params = s.params := ht.params
  have hread : bufRead (promoted t) 0 payload.length = payload :=
    (Invariants.bufRead_of_same (s := t) (t := promoted t) rfl rfl _ _).trans ht.read
  refine ⟨promoted t, ?call, rfl, hdest, hsrc, hmsgId, hlvLen, ?sums, hread, rfl, rfl, hparams,
    congrArg (· + 1) ht.validPackets, ht.parseErrors, ht.overruns, fun hcap => ?extract⟩
  case call =>
    rw [Stream.parseCall_eq, encodeFrame_eq, hrest, ← hsums, parseBytes_promotion ht.halted ht.fsm]
    congr 2
    omega
  case sums =>
    rw [encodeFrame_eq, ← hsums, List.drop_left' (by simp [Nat.add_comm])]
    rfl
  case extract =>
    refine ⟨_, Extractor42.extract_of_withinCap rfl (by rw [hlvLen, hparams]; exact hcap), rfl, rfl, congrArg some ?_⟩
    rw [snapshotMessage, hdest, hsrc, hmsgId, hlvLen, hread]

/-! ### One byte changed (R106) -/

/-- From Idle any one byte is taken without a packet and without an error. -/
theorem parseBytes_idle_one {s : State} (hh : s.halted = false) (hs : s.fsm = .idle) (b : Byte) (done : Nat) :
    ∃ t, parseBytes [b] done s = .next ⟨false, done + 1, t⟩ ∧ t.parseErrors = s.parseErrors ∧
      t.validPackets = s.validPackets := by
  by_cases hb : b = 0x76#8
  · subst hb
    obtain ⟨-, hbyte⟩ := Parser41.idleSync0_runs hh hs
    exact ⟨_, Parser41.parseBytes_cons hbyte nofun [] done, rfl, rfl⟩
  · obtain ⟨-, hbyte⟩ := Parser41.idleSkip_runs hh hs hb
    exact ⟨_, Parser41.parseBytes_cons hbyte nofun [] done, rfl, rfl⟩

/-- A wrong first checksum byte is one error, and the second is then a byte in Idle. -/
theorem parseBytes_wrongChecksumA {t : State} (hh : t.halted = false) (hs : t.fsm = .awaitChecksumA) {a : Byte}
    (ha : a ≠ t.chkA) (b : Byte) (done : Nat) :
    ∃ u, parseBytes [a, b] done t = .next ⟨false, done + 2, u⟩ ∧ u.parseErrors = t.parseErrors + 1 ∧
      u.validPackets = t.validPackets := by
  obtain ⟨u, hu, herrors, hvalid⟩ := parseBytes_idle_one (s := recover .errChkA t) hh rfl b (done + 1)
  exact ⟨u, (Encoder43.parseBytes_row (i := .chkaBad a) rfl rfl hh hs (bne_iff_ne.mpr ha) nofun [b] done).trans hu,
    herrors, hvalid⟩

/-- The bytes that a frame's checksum covers: header and payload (R73). -/
def coveredOf (dest src : Byte) (msgId : Half) (payload : List Byte) : List Byte :=
  headerBytes dest src msgId (BitVec.ofNat 16 payload.length) ++ payload

theorem coveredOf_length (dest src : Byte) (msgId : Half) (payload : List Byte) :
    (coveredOf dest src msgId payload).length = payload.length + 6 := by
  simp [coveredOf, headerBytes]

/-- A frame is the sync pair, the covered bytes and their two sums. -/
theorem encodeFrame_covered (dest src : Byte) (msgId : Half) (payload : List Byte) :
    encodeFrame dest src msgId payload =
      Config.sync0 :: Config.sync1 :: (coveredOf dest src msgId payload ++
        [(chkSeq (coveredOf dest src msgId payload)).1, (chkSeq (coveredOf dest src msgId payload)).2]) := rfl

/-- Changing an address, id or payload byte of what the checksum covers gives the covered bytes of another message of
the same length. -/
theorem coveredOf_set (dest src : Byte) (msgId : Half) (payload : List Byte) {i : Nat} (b : Byte)
    (hi : i ≤ 3 ∨ 6 ≤ i) :
    ∃ (dest' src' : Byte) (msgId' : Half) (payload' : List Byte), payload'.length = payload.length ∧
      (coveredOf dest src msgId payload).set i b = coveredOf dest' src' msgId' payload' := by
  obtain hi | hi := hi
  · interval_cases i
    · exact ⟨b, src, msgId, payload, rfl, rfl⟩
    · exact ⟨dest, b, msgId, payload, rfl, rfl⟩
    · exact ⟨dest, src, setLowByte msgId b, payload, rfl, by simp [coveredOf, headerBytes]⟩
    · exact ⟨dest, src, setHighByte msgId b, payload, rfl, by simp [coveredOf, headerBytes]⟩
  · refine ⟨dest, src, msgId, payload.set (i - 6) b, List.length_set, ?_⟩
    rw [coveredOf, coveredOf, List.length_set]
    exact List.set_append_right _ _ hi

/-- Settles O54: the changed frame is the body of another message (`coveredOf_set`) with the old checksum, whose A is
wrong (`chkSeq_set_fst_ne`). -/
theorem corruptedByteRejected : Obligations.CorruptedByteRejected := by
  unfold Obligations.CorruptedByteRejected
  intro s dest src msgId payload k b hs hlen hk hne
  obtain ⟨i, rfl⟩ : ∃ i, k = i + 2 := ⟨k - 2, by omega⟩
  have hi : i < (coveredOf dest src msgId payload).length := by rw [coveredOf_length]; omega
  obtain ⟨dest', src', msgId', payload', hlen', hset⟩ := coveredOf_set dest src msgId payload (i := i) b (by omega)
  obtain ⟨t, ht, hrest⟩ := parseBytes_body (s := unhalt s) rfl hs dest' src' msgId' (hlen'.trans_le hlen)
  rw [encodeFrame_covered] at hne ⊢
  generalize hcov : coveredOf dest src msgId payload = covered at hi hset hne ⊢
  rw [List.getElem?_cons_succ, List.getElem?_cons_succ, List.getElem?_append_left hi, List.getElem?_eq_getElem hi] at hne
  have hA : (chkSeq covered).1 ≠ t.chkA := by
    have hsum : t.chkA = (chkSeq (covered.set i b)).1 := hset ▸ congrArg Prod.fst ht.sums
    rw [hsum]
    exact (Checksum40.chkSeq_set_fst_ne hi fun h => hne (congrArg some h)).symm
  obtain ⟨u, hu, herrors, hvalid⟩ :=
      parseBytes_wrongChecksumA ht.halted ht.fsm hA (chkSeq covered).2 (8 + payload'.length)
  refine ⟨u, ?_, by rw [herrors, ht.parseErrors]; rfl, by rw [hvalid, ht.validPackets]; rfl⟩
  rw [List.set_cons_succ, List.set_cons_succ, List.set_append_left _ _ hi, hset]
  refine (hrest _).trans (hu.trans ?_)
  congr 2
  omega

end Sys2Proof.Proofs.FrameParse
end
